-- ==== Sys2Proof/Word.lean ====
section
/-! DEFINITION. The word types of the block (00_scope.md R7). -/

namespace Sys2Proof

/-- A byte is 8 bits (R7). -/
abbrev Byte := BitVec 8

/-- What the four data lines carry at once (R7, R34). -/
abbrev Nibble := BitVec 4

/-- A command word, a register of the window, the host bus's data (R51, R80). -/
abbrev Word := BitVec 32

/-- A value of the time base NOW (R28). -/
abbrev Tick := BitVec 64

/-- An offset of the 128-byte window, as the host bus carries it (R50, R202). -/
abbrev Offset := BitVec 7

end Sys2Proof
end

