-- ==== Sys2Proof/Syntax.lean ====
section
/-! DEFINITION. The commands of spec/opcode_table.json, and the host's and the assembler's language (30_encoding.md). -/

namespace Sys2Proof

/-- The mode of a transmission (R85, R104). -/
inductive Mode where
  | command
  | character
deriving DecidableEq, Repr

/-- A justification style (R83). -/
inductive Style where
  | left
  | center
  | right
deriving DecidableEq, Repr

/-- A line number 1 to 4 (R82). -/
inductive Line where
  | one
  | two
  | three
  | four
deriving DecidableEq, Repr

/-- The operand fields of a command word, as they stand in it (R81). Every command carries all of them, because a
field its opcode does not use may hold anything (R89) and SEQ keeps the whole word (R33). -/
structure Fields where
  /-- bits 5:4, line number minus 1 (R82) -/
  line : BitVec 2
  /-- bits 7:6 (R83) -/
  style : BitVec 2
  /-- bit 8 -/
  trail : Bool
  /-- bits 11:9, before the clamp (R84) -/
  nlines : BitVec 3
  /-- bit 12 (R85) -/
  mode : Mode
  /-- bit 13 (R87) -/
  autocfg : Bool
  /-- bits 23:16 (R86) -/
  value : Byte
deriving DecidableEq, Repr

/-- The commands, one constructor per row of spec/opcode_table.json (R88). -/
inductive Instr where
  | init (f : Fields)
  | writeLine (f : Fields)
  | clear (f : Fields)
  | animLeft (f : Fields)
  | animRight (f : Fields)
  | animDown (f : Fields)
  | shutdown (f : Fields)
  | transmit (f : Fields)
deriving DecidableEq, Repr

/-- Why a word is no command (R93), in the order of the checks. -/
inductive Reject where
  | illegalOp
  | reservedBits
  | badField
deriving DecidableEq, Repr

/-- The width of a host access (R52, R202). -/
inductive Width where
  | w8
  | w16
  | w32
deriving DecidableEq, Repr

/-- One operation of a host program (R95). -/
inductive HostOp where
  /-- `wr8`, `wr16`, `wr32` -/
  | write (wd : Width) (off : Offset) (v : Word)
  /-- `rd8`, `rd16`, `rd32` -/
  | read (wd : Width) (off : Offset)
  /-- `poll`: repeat `rd32 off` until `(value & mask) == val` -/
  | poll (off : Offset) (mask val : Word)
deriving DecidableEq, Repr

/-- One command of the assembler (R94), its operands as written. -/
inductive AsmCommand where
  | init (autocfg : Bool)
  | wline (line : Nat) (style : Style)
  | clear
  | aleft (line : Nat)
  | aright (line : Nat)
  /-- `n` may be omitted -/
  | adown (style : Style) (trail : Bool) (n : Option Nat)
  | shutdown
  | tx (imm8 : Nat) (mode : Mode)
deriving DecidableEq, Repr

/-- One line of a host program: an operation or a pseudo-instruction (R95, R96). -/
inductive AsmLine where
  | op (o : HostOp)
  | msg (text : List Byte)
  | cmd (c : AsmCommand)
  | sync
  | run (c : AsmCommand)
  | clrerr
deriving DecidableEq, Repr

end Sys2Proof
end

