-- ==== Sys2Proof/WellFormed.lean ====
section
/-! DEFINITION. Which commands are legal (30_encoding.md R83, R89). -/

namespace Sys2Proof

/-- STYLE holds a style: the value 3 is reserved (R83). -/
def Fields.styleLegal (f : Fields) : Bool := f.style != 3#2

/-- An opcode that uses STYLE refuses 3; every other field value of every opcode is legal (R82 to R87, R89). -/
def Instr.wellFormed : Instr → Bool
  | .init _ => true
  | .writeLine f => f.styleLegal
  | .clear _ => true
  | .animLeft _ => true
  | .animRight _ => true
  | .animDown f => f.styleLegal
  | .shutdown _ => true
  | .transmit _ => true

end Sys2Proof
end

