-- ==== Sys2Proof/Decode.lean ====
section
/-! DEFINITION. Decoding a command word, total on every word and rejecting by name (30_encoding.md R81, R88 to R93),
and encoding a command. -/

namespace Sys2Proof

/-- A 1-bit field as a mode (R85). -/
def Mode.ofBit (b : Bool) : Mode := if b then .character else .command

/-- A mode as a 1-bit field (R85). -/
def Mode.toBit : Mode → Bool
  | .command => false
  | .character => true

/-- OP, bits 3:0 (R81). -/
def opField (w : Word) : BitVec 4 := w.extractLsb' 0 4

/-- The operand fields (R81). -/
def fieldsOf (w : Word) : Fields where
  line := w.extractLsb' 4 2
  style := w.extractLsb' 6 2
  trail := w.getLsbD 8
  nlines := w.extractLsb' 9 3
  mode := Mode.ofBit (w.getLsbD 12)
  autocfg := w.getLsbD 13
  value := w.extractLsb' 16 8

/-- Bits 15:14 and 31:24 are 0 (R90). -/
def reservedClear (w : Word) : Bool := w.extractLsb' 14 2 == 0#2 && w.extractLsb' 24 8 == 0#8

/-- The opcode map; 0x0 and 0x9 to 0xF are illegal (R88, R91). -/
def instrOf (op : BitVec 4) (f : Fields) : Option Instr :=
  match op.toNat with
  | 1 => some (.init f)
  | 2 => some (.writeLine f)
  | 3 => some (.clear f)
  | 4 => some (.animLeft f)
  | 5 => some (.animRight f)
  | 6 => some (.animDown f)
  | 7 => some (.shutdown f)
  | 8 => some (.transmit f)
  | _ => none

/-- R93, its three checks in its order. -/
def decode (w : Word) : Except Reject Instr :=
  match instrOf (opField w) (fieldsOf w) with
  | none => .error .illegalOp
  | some i =>
    if reservedClear w then
      if i.wellFormed then .ok i else .error .badField
    else .error .reservedBits

/-- The opcode of a command (R88). -/
def Instr.opcode : Instr → BitVec 4
  | .init _ => 1#4
  | .writeLine _ => 2#4
  | .clear _ => 3#4
  | .animLeft _ => 4#4
  | .animRight _ => 5#4
  | .animDown _ => 6#4
  | .shutdown _ => 7#4
  | .transmit _ => 8#4

/-- The fields a command carries. -/
def Instr.fields : Instr → Fields
  | .init f => f
  | .writeLine f => f
  | .clear f => f
  | .animLeft f => f
  | .animRight f => f
  | .animDown f => f
  | .shutdown f => f
  | .transmit f => f

/-- A field at its place in a 32-bit word (R81). -/
def place {n : Nat} (lsb : Nat) (b : BitVec n) : Word := b.setWidth 32 <<< lsb

/-- The pattern of R81, `rrrrrrrr VVVVVVVV rr A M NNN T SS LL OOOO`, each field at its lowest bit. -/
def pack (op : BitVec 4) (f : Fields) : Word :=
  place 16 f.value ||| place 13 (BitVec.ofBool f.autocfg) ||| place 12 (BitVec.ofBool f.mode.toBit)
    ||| place 9 f.nlines ||| place 8 (BitVec.ofBool f.trail) ||| place 6 f.style ||| place 4 f.line ||| place 0 op

/-- The command word of a command. -/
def encode (i : Instr) : Word := pack i.opcode i.fields

/-- The host's view of the decoder: the table's rows have 32 bits, bit 0 the least significant of the word. -/
def decodeTableWord (nbits w : Nat) : Option Instr :=
  if nbits ≤ 32 then
    match decode (BitVec.ofNat 32 (w % 2 ^ nbits)) with
    | .ok i => some i
    | .error _ => none
  else none

end Sys2Proof
end

