-- ==== Sys2Proof/Config.lean ====
section
/-! DEFINITION. What a platform fixes (00_scope.md R5, R6), the ports' types (60_exceptions.md R202), and the free values. -/

namespace Sys2Proof

/-- WIDTH, characters per row (R5). -/
def Config.width : Nat := 20

/-- MSG_CAP, the bytes of MSG_BUF (R6). -/
def Config.msgCap : Nat := 64

/-- SPACE (R6). -/
def Config.space : Byte := 0x20#8

/-- T_COLLAB_DEBOUNCE_MS, the value passed to the edge source (R6, R129). -/
def Config.collabDebounceMs : Nat := 700

/-- The pull of the button input (BTN_PULL, R6). -/
inductive Pull where
  | none
  | down
  | up
deriving DecidableEq, Repr, Inhabited

/-- What the block presents on BTN_CFG while the edge source is armed (R129, R202). The pull setting stands here beside
the debounce, so it is presented only then: DESIGN CHOICE (log 17). -/
structure BtnCfg where
  pull : Pull
  debounceMs : Nat
deriving DecidableEq, Repr, Inhabited

/-- LINE_ADDR[1..4] (R120): the Command byte that positions the cursor at the start of each row. -/
structure LineAddr where
  line1 : Byte
  line2 : Byte
  line3 : Byte
  line4 : Byte
deriving DecidableEq, Repr, Inhabited

/-- PIN_MAP (R6, R34): the logical pin numbers. -/
structure PinMap where
  rs : Nat
  e : Nat
  d0 : Nat
  d1 : Nat
  d2 : Nat
  d3 : Nat
  bl : Nat
  btn : Nat
deriving DecidableEq, Repr, Inhabited

/-- The platform's parameters (R6). No step of the block writes one; a claim that holds for every state holds for
every platform. DESIGN CHOICE (safe): they stand in State, see log 2. -/
structure Params where
  /-- BLOCK_BASE, where the window lies in the host's address space (R50). -/
  blockBase : Nat
  /-- F_TICK in Hz (R100). -/
  fTick : Nat
  tSettle : BitVec 32
  tPulse : BitVec 32
  tFrame : BitVec 32
  tDebounce : Tick
  tReadyOff : BitVec 32
  tPostInit : BitVec 32
  lineAddr : LineAddr
  /-- INIT_SEQ[0..5], exactly INIT_COUNT = 6 Command bytes (R5, R127). -/
  initSeq : Vector Byte 6
  btnPull : Pull
  pinMap : PinMap
deriving DecidableEq, Repr

/-- The values of R6. BLOCK_BASE and PIN_MAP have none there: DESIGN CHOICE 0 (log 2); no rule's effect reads them. -/
def Params.default : Params where
  blockBase := 0
  fTick := 1000000
  tSettle := 50#32
  tPulse := 50#32
  tFrame := 500000#32
  tDebounce := 700000#64
  tReadyOff := 0#32
  tPostInit := 0#32
  lineAddr := { line1 := 0x80#8, line2 := 0xC0#8, line3 := 0x94#8, line4 := 0xD4#8 }
  initSeq := #v[0x33#8, 0x32#8, 0x06#8, 0x0C#8, 0x28#8, 0x01#8]
  btnPull := .down
  pinMap := { rs := 0, e := 0, d0 := 0, d1 := 0, d2 := 0, d3 := 0, bl := 0, btn := 0 }

/-- An output pin (R34). -/
inductive Pin where
  | rs | e | d0 | d1 | d2 | d3 | bl
deriving DecidableEq, Repr, Inhabited

/-- The state of an output pin: not driven, 0 or 1 (R34). -/
inductive Level where
  | z
  | lo
  | hi
deriving DecidableEq, Repr, Inhabited

/-- One step of one agent, or a change of the RESET input (R11, R202, R211). The flag of a sequencer or toggler step
is the environment's draw on GPIO_FAIL for that step (R212). -/
inductive Event where
  /-- The tick agent's step (R100). -/
  | tick
  /-- The sequencer may perform one enabled micro-step (R33). -/
  | sequencer (gpioFail : Bool)
  /-- The environment delivers one button edge event to the toggler (R170). -/
  | edge (gpioFail : Bool)
  /-- The host performs its next operation (R60). -/
  | host
  /-- RESET is asserted or released (R230). -/
  | setReset (asserted : Bool)
deriving DecidableEq, Repr, Inhabited

/-- FREE VALUE (log 1): the agent that moves where the schedule lists nothing (R211, U3 to U6). -/
opaque Config.freeEvent : Nat → Event

/-- FREE VALUE (log 4): a pin's level after a GPIO failure (R212, U7). -/
opaque Config.freeLevel : Nat → Pin → Level

/-- FREE VALUE (log 4): BL_STATE after a GPIO failure on a toggler step (R181, U8). -/
opaque Config.freeBlState : Nat → Bool

/-- FREE VALUE (log 4): BL_LAST after a GPIO failure on a toggler step (R181, U8). -/
opaque Config.freeBlLast : Nat → Tick

/-- FREE VALUE (log 6): I between commands (R37, U9). -/
opaque Config.freeAnimI : Nat → Fin 21

/-- FREE VALUE (log 6): K between commands (R37, U9). -/
opaque Config.freeAnimK : Nat → Fin 4

/-- FREE VALUE (log 6): ACC between commands (R37, U9); the machine keeps at most MSG_CAP bytes of it. -/
opaque Config.freeAnimAcc : Nat → List Byte

/-- FREE VALUE (log 12): the receiver's address counter before its first clear (R72, U25). -/
opaque Config.freeReceiverAc : BitVec 7

/-- FREE VALUE (log 12): the receiver's DDRAM before its first clear (R72, U25). -/
opaque Config.freeReceiverDdram : BitVec 7 → Byte

end Sys2Proof
end

