-- ==== Sys2Proof/Machine/State.lean ====
section
/-! DEFINITION. The state of the block (10_state.md R20), plain data, and its value after reset (R39). -/

namespace Sys2Proof.Machine

/-- A fault of the MODEL: the machine stops. The block's own fault state (FAULT = 1, R212) is a next state. -/
inductive Fault where
  /-- Raised by a sequencer step of a running command that has no step left. R33's lists end with `Done`, so no
  command reaches it. DESIGN CHOICE, safe (log 11). -/
  | stepListExhausted
deriving DecidableEq, Repr

/-- Why the model has no meaning for an instruction. -/
inductive Refusal where
  /-- Raised by an arm of `exec` whose instruction has no meaning yet. Safe. -/
  | notModelled (mnemonic : String)
deriving DecidableEq, Repr

/-- The codes of ERRCODE (R201); 11 to 15 are never produced. -/
inductive ErrCode where
  | noError
  | illegalOp
  | reservedBits
  | badField
  | notInit
  | alreadyInit
  | busy
  | lenRange
  | badAccess
  | faulted
  | gpioFail
deriving DecidableEq, Repr

/-- PINCFG (R36). -/
inductive PinCfg where
  | released
  | configured
deriving DecidableEq, Repr

/-- The levels of the output pins (R34). -/
structure Pins where
  rs : Level
  e : Level
  d0 : Level
  d1 : Level
  d2 : Level
  d3 : Level
  bl : Level
deriving DecidableEq, Repr

/-- One write to an output pin, or to the four data lines at once (R8, R105). -/
inductive PinWrite where
  | rs (b : Bool)
  | e (b : Bool)
  | d (n : Nibble)
  | bl (b : Bool)
deriving DecidableEq, Repr

/-- One event of the pin-update trace (R35): a write, or all pins configured or released at once (R129, R131). -/
inductive PinUpdate where
  | write (w : PinWrite)
  | configure
  | release
deriving DecidableEq, Repr

/-- A pin-update event stamped with NOW (R35). -/
structure PinEvent where
  time : Tick
  update : PinUpdate
deriving DecidableEq, Repr

/-- One micro-step of the sequencer (R33): a pin write, a wait, or a write of internal state that a rule names. -/
inductive MicroStep where
  | pin (w : PinWrite)
  | wait (n : BitVec 32)
  /-- R129 -/
  | configurePins
  /-- R128 step 4 -/
  | backlightReady
  /-- R130 step 2 -/
  | backlightOff
  /-- R131 -/
  | releasePins
  /-- R128 step 7, R130 step 4 -/
  | setInited (b : Bool)
  /-- R151, R153 -/
  | setI (i : Fin 21)
  /-- R156 -/
  | setK (k : Fin 4)
  /-- R151, R153 -/
  | setAcc (a : List Byte)
  /-- R33: sets SEQ to IDLE -/
  | done
deriving DecidableEq, Repr

/-- SEQ (R33). -/
inductive Seq where
  | idle
  | running (op : BitVec 4) (w : Word) (steps : List MicroStep)
deriving DecidableEq, Repr

/-- Bytes by window offset, in one canonical form (`Memory.wf`). -/
abbrev Memory := List Host.Cell

/-- The state of the block, its ports, its observable output, and the model's own fields. -/
structure State where
  /-- SEQ (R33) -/
  seq : Seq
  /-- STATUS.INITED (R24) -/
  inited : Bool
  /-- STATUS.FAULT (R25) -/
  fault : Bool
  /-- STATUS.ERRCODE (R26) -/
  errcode : ErrCode
  /-- MSG_LEN bits 6:0 (R27) -/
  msgLen : BitVec 7
  /-- MSG_BUF (R27), by window offset -/
  msgBuf : Memory
  /-- NOW (R28) -/
  now : Tick
  /-- DLY (R29) -/
  dly : BitVec 32
  /-- BL_STATE (R30) -/
  blState : Bool
  /-- BL_LAST (R31) -/
  blLast : Tick
  /-- TOG_EN (R32) -/
  togEn : Bool
  /-- RS, E, D[3:0], BL (R34) -/
  pins : Pins
  /-- PINCFG (R36) -/
  pincfg : PinCfg
  /-- I (R37) -/
  animI : Fin 21
  /-- K (R37) -/
  animK : Fin 4
  /-- ACC (R37) -/
  animAcc : List Byte
  /-- the RESET input's level (R202, R230) -/
  resetPort : Bool
  /-- the BTN_CFG output (R129, R131, R202); `none` while the edge source is disarmed, the pull setting with it (DESIGN
  CHOICE, log 17) -/
  btnCfg : Option BtnCfg
  /-- the pin-update trace (R35), newest first -/
  trace : List PinEvent
  /-- the values of the host's reads (R95), newest first -/
  observed : List Word
  /-- the model's own: the host's remaining program (R95, log 3) -/
  program : List HostOp
  /-- the model's own: the agents that move next (R211, log 1) -/
  schedule : List Event
  /-- the model's own: what the free values are applied to (log 1, 4, 6) -/
  drawn : Nat
  /-- the model's own: the platform's parameters (R6, log 2) -/
  params : Params
deriving DecidableEq, Repr

/-- Every output pin at Z (R39). -/
def Pins.released : Pins := { rs := .z, e := .z, d0 := .z, d1 := .z, d2 := .z, d3 := .z, bl := .z }

/-- R39. I, K and ACC are unspecified there: DESIGN CHOICE 0, 0 and empty (unsafe, log 5). BTN_CFG: DESIGN CHOICE
disarmed, with no pull setting (logs 9, 17). The model's own fields: logs 1, 2, 3, 10. -/
def State.reset : State where
  seq := .idle
  inited := false
  fault := false
  errcode := .noError
  msgLen := 0#7
  msgBuf := []
  now := 0#64
  dly := 0#32
  blState := false
  blLast := 0#64
  togEn := false
  pins := Pins.released
  pincfg := .released
  animI := 0
  animK := 0
  animAcc := []
  resetPort := false
  btnCfg := none
  trace := []
  observed := []
  program := []
  schedule := []
  drawn := 0
  params := Params.default

end Sys2Proof.Machine
end

