-- ==== Sys2Proof/Machine/Flags.lean ====
section
/-! DEFINITION. The STATUS fields and the STATUS word (10_state.md R22 to R26, 60_exceptions.md R201). -/

namespace Sys2Proof.Machine

/-- STATUS.BUSY is SEQ not IDLE (R23, R33). -/
def State.busy (s : State) : Bool :=
  match s.seq with
  | .idle => false
  | .running _ _ _ => true

/-- STATUS.ACTIVE_OP is SEQ.op while BUSY = 1, else 0 (R26). -/
def State.activeOp (s : State) : BitVec 4 :=
  match s.seq with
  | .idle => 0#4
  | .running op _ _ => op

/-- The number of an error code (R201). -/
def ErrCode.code : ErrCode → BitVec 4
  | .noError => 0#4
  | .illegalOp => 1#4
  | .reservedBits => 2#4
  | .badField => 3#4
  | .notInit => 4#4
  | .alreadyInit => 5#4
  | .busy => 6#4
  | .lenRange => 7#4
  | .badAccess => 8#4
  | .faulted => 9#4
  | .gpioFail => 10#4

/-- The error code of a word that decodes to no command (R93, R201). -/
def ErrCode.ofReject : Reject → ErrCode
  | .illegalOp => .illegalOp
  | .reservedBits => .reservedBits
  | .badField => .badField

/-- STATUS (R22), each field at its lowest bit; bits 31:16, 11:10 and 8 read 0. -/
def State.status (s : State) : Word :=
  place 12 s.activeOp ||| place 9 (BitVec.ofBool s.togEn) ||| place 4 s.errcode.code
    ||| place 3 (BitVec.ofBool s.blState) ||| place 2 (BitVec.ofBool s.fault) ||| place 1 (BitVec.ofBool s.inited)
    ||| place 0 (BitVec.ofBool s.busy)

end Sys2Proof.Machine
end

