-- ==== Sys2Proof/Machine/Ops.lean ====
section
/-! DEFINITION. The shared operations: MSG_BUF, the pins and their trace, errors and the GPIO failure, and taking a
command (20_memory.md, 10_state.md, 60_exceptions.md). -/

namespace Sys2Proof.Machine

/-- The window offset of MSG_BUF[0] (R51). -/
def msgBase : Nat := 0x40

/-- The end of the window (R50). -/
def windowEnd : Nat := 0x80

/-- What a byte of MSG_BUF that no cell lists reads as: its reset value (R39). -/
def Memory.unlisted : Byte := 0x00#8

/-- Offsets rise strictly from `lo` on, lie below the window's end, and no cell holds the unlisted value. -/
def Memory.wfFrom (lo : Nat) : Memory → Bool
  | [] => true
  | (a, b) :: m => decide (lo ≤ a) && decide (a < windowEnd) && b != Memory.unlisted && Memory.wfFrom (a + 1) m

/-- The canonical form of MSG_BUF. -/
def Memory.wf (m : Memory) : Bool := Memory.wfFrom msgBase m

/-- The byte at an offset. -/
def Memory.readByte (a : Nat) : Memory → Byte
  | [] => Memory.unlisted
  | (k, b) :: m => if k = a then b else Memory.readByte a m

/-- Put a byte before a memory, unless it is what an unlisted offset reads as. -/
def Memory.consCell (a : Nat) (b : Byte) (m : Memory) : Memory := if b = Memory.unlisted then m else (a, b) :: m

/-- Write the byte at an offset, keeping the canonical form. -/
def Memory.writeByte (a : Nat) (b : Byte) : Memory → Memory
  | [] => Memory.consCell a b []
  | (k, c) :: m =>
    if a < k then Memory.consCell a b ((k, c) :: m)
    else if a = k then Memory.consCell a b m
    else (k, c) :: Memory.writeByte a b m

/-- `n` bytes from an offset up, the lowest offset in bits 7:0, zero-extended (R54, R55). -/
def Memory.readLE (m : Memory) (a : Nat) : Nat → Word
  | 0 => 0#32
  | n + 1 => (m.readByte a).setWidth 32 ||| (Memory.readLE m (a + 1) n <<< 8)

/-- The low `n` bytes of `v` from an offset up, bits 7:0 at the lowest (R54, R56). -/
def Memory.writeLE (m : Memory) (a : Nat) (v : Word) : Nat → Memory
  | 0 => m
  | n + 1 => Memory.writeLE (m.writeByte a (v.setWidth 8)) (a + 1) (v >>> 8) n

/-- `msg`, MSG_BUF[0 .. MSG_LEN-1] (R9, R27). -/
def State.message (s : State) : List Byte :=
  (List.range s.msgLen.toNat).map fun k => s.msgBuf.readByte (msgBase + k)

/-- A driven level. -/
def Level.ofBool (b : Bool) : Level := if b then .hi else .lo

/-- One write on the pins; a D write sets all four lines (R105). -/
def Pins.write (p : Pins) : PinWrite → Pins
  | .rs b => { p with rs := Level.ofBool b }
  | .e b => { p with e := Level.ofBool b }
  | .d n =>
    { p with
      d0 := Level.ofBool (n.getLsbD 0)
      d1 := Level.ofBool (n.getLsbD 1)
      d2 := Level.ofBool (n.getLsbD 2)
      d3 := Level.ofBool (n.getLsbD 3) }
  | .bl b => { p with bl := Level.ofBool b }

/-- Every output pin driven to 0 (R129). -/
def Pins.allLow : Pins := { rs := .lo, e := .lo, d0 := .lo, d1 := .lo, d2 := .lo, d3 := .lo, bl := .lo }

/-- One pin-update event on the pins (R35, R129, R131). -/
def Pins.update (p : Pins) : PinUpdate → Pins
  | .write w => p.write w
  | .configure => Pins.allLow
  | .release => Pins.released

/-- Perform one pin-update event: the levels, and the trace stamped with NOW (R35). -/
def State.drive (u : PinUpdate) (s : State) : State :=
  { s with pins := s.pins.update u, trace := { time := s.now, update := u } :: s.trace }

/-- `raise Error(code)`: ERRCODE keeps the first error (R207). -/
def State.raiseError (c : ErrCode) (s : State) : State :=
  { s with errcode := if s.errcode = .noError then c else s.errcode }

/-- ERRCLR, the only return from an error (R208). -/
def State.clearError (s : State) : State := { s with errcode := .noError }

/-- SEQ leaves a command: from here on I, K and ACC are unspecified (R37, U9), so each is a free value (log 6). -/
def State.endCommand (s : State) : State :=
  { s with
    seq := .idle
    animI := Config.freeAnimI s.drawn
    animK := Config.freeAnimK s.drawn
    animAcc := (Config.freeAnimAcc s.drawn).take Config.msgCap
    drawn := s.drawn + 1 }

/-- Every output pin at a free level (R212, U7, log 4). -/
def Pins.free (n : Nat) : Pins where
  rs := Config.freeLevel n .rs
  e := Config.freeLevel n .e
  d0 := Config.freeLevel n .d0
  d1 := Config.freeLevel n .d1
  d2 := Config.freeLevel n .d2
  d3 := Config.freeLevel n .d3
  bl := Config.freeLevel n .bl

/-- `gpio_failure()` (R212): FAULT, the error code, the command aborted, the toggler off, the pins unspecified. -/
def State.gpioFailure (s : State) : State :=
  { (s.raiseError .gpioFail).endCommand with fault := true, togEn := false, pins := Pins.free s.drawn }

/-- The checks a command's acceptance makes beside decoding, in the order of R203. `fieldOk` is false where the
command uses STYLE and it is 3; `wantsInited` is the INITED that the opcode needs. -/
def State.commandCheck (fieldOk wantsInited : Bool) (s : State) : Option ErrCode :=
  if s.fault then some .faulted
  else if s.busy then some .busy
  else if !fieldOk then some .badField
  else if wantsInited && !s.inited then some .notInit
  else if !wantsInited && s.inited then some .alreadyInit
  else none

/-- Taking a command (R203): refused with the check's code, or SEQ <- RUNNING(op, w, steps) (R33). -/
def State.takeCommand (i : Instr) (check : Option ErrCode) (steps : List MicroStep) (s : State) :
    Host.Outcome State Fault Refusal :=
  match check with
  | some c => .next (s.raiseError c)
  | none => .next { s with seq := .running i.opcode (encode i) steps }

end Sys2Proof.Machine
end

