-- ==== Sys2Proof/Machine/Operands.lean ====
section
/-! DEFINITION. The operand forms of a command word (30_encoding.md R82 to R87) and the parameters they select. -/

namespace Sys2Proof

/-- `line = LINE + 1` (R82). -/
def Line.ofField (b : BitVec 2) : Line :=
  match b.toNat with
  | 0 => .one
  | 1 => .two
  | 2 => .three
  | _ => .four

/-- The line number, 1 to 4 (R82). -/
def Line.number : Line → Nat
  | .one => 1
  | .two => 2
  | .three => 3
  | .four => 4

/-- The line `k mod 4 + 1` (R156). -/
def Line.ofIndex (k : Nat) : Line :=
  match k % 4 with
  | 0 => .one
  | 1 => .two
  | 2 => .three
  | _ => .four

/-- STYLE (R83). The value 3 is refused before a style is read from it; it is mapped to `right` only to be total. -/
def Style.ofField (b : BitVec 2) : Style :=
  match b.toNat with
  | 0 => .left
  | 1 => .center
  | _ => .right

/-- `n = clamp(NLINES, 1, 4)` (R84). -/
def Fields.lineCount (f : Fields) : Nat := min (max f.nlines.toNat 1) 4

/-- LINE_ADDR[line] (R120). -/
def LineAddr.get (a : LineAddr) : Line → Byte
  | .one => a.line1
  | .two => a.line2
  | .three => a.line3
  | .four => a.line4

/-- The RS level of a mode (R104). -/
def Mode.rsLevel : Mode → Bool
  | .command => false
  | .character => true

/-- `v[7:4]` (R7). -/
def hiNibble (v : Byte) : Nibble := v.extractLsb' 4 4

/-- `v[3:0]` (R7). -/
def loNibble (v : Byte) : Nibble := v.extractLsb' 0 4

/-- `spaces(n)` (R9). -/
def spaces (n : Nat) : List Byte := List.replicate n Config.space

/-- The logical pin number of an output pin (R34). -/
def PinMap.number (m : PinMap) : Pin → Nat
  | .rs => m.rs
  | .e => m.e
  | .d0 => m.d0
  | .d1 => m.d1
  | .d2 => m.d2
  | .d3 => m.d3
  | .bl => m.bl

/-- The bytes of a host access (R52). -/
def Width.bytes : Width → Nat
  | .w8 => 1
  | .w16 => 2
  | .w32 => 4

/-- The window offset a host address names (R50): the window lies at BLOCK_BASE. -/
def Params.offsetOf (p : Params) (address : Nat) : Option Offset :=
  if p.blockBase ≤ address ∧ address < p.blockBase + 128 then some (BitVec.ofNat 7 (address - p.blockBase)) else none

end Sys2Proof
end

