-- ==== Sys2Proof/Machine/Backlight.lean ====
section
/-! DEFINITION. The debounced button-to-backlight toggler (43_backlight.md R170 to R181). -/

namespace Sys2Proof.Machine

/-- The toggle guard (R172): enabled, and strictly more than T_DEBOUNCE ticks since BL_LAST, modulo 2^64. -/
def State.edgeAccepted (s : State) : Bool := s.togEn && decide (s.params.tDebounce < s.now - s.blLast)

/-- An accepted edge event: flip, apply, stamp (R172). -/
def State.toggle (s : State) : State :=
  { s.drive (.write (.bl (!s.blState))) with blState := !s.blState, blLast := s.now }

/-- A GPIO failure on the toggler's pin write: BL_STATE and BL_LAST are unspecified after it (R181, U8, log 4). -/
def State.toggleFailure (s : State) : State :=
  { s.gpioFailure with blState := Config.freeBlState s.drawn, blLast := Config.freeBlLast s.drawn }

/-- The toggler's step on one edge event, atomic (R171, R172). A refused event changes nothing and writes no pin, so
only an accepted one can meet a GPIO failure (R211, R212). -/
def edgeStep (gpioFail : Bool) (s : State) : State :=
  if s.edgeAccepted then (if gpioFail then s.toggleFailure else s.toggle) else s

end Sys2Proof.Machine
end

