-- ==== Sys2Proof/Machine/Transmit.lean ====
section
/-! DEFINITION. The nibble transmitter and TRANSMIT (40_transmit.md R103 to R109). -/

namespace Sys2Proof.Machine

/-- One phase of a TX: clear the lines, present a nibble, settle, pulse E, settle (R103 steps 2 to 8, R106). -/
def txPhase (p : Params) (n : Nibble) : List MicroStep :=
  [.pin (.d 0#4), .pin (.d n), .wait p.tSettle, .pin (.e true), .wait p.tPulse, .pin (.e false), .wait p.tSettle]

/-- `TX(v, m)` (R103): RS once, then the high nibble and the low nibble. -/
def tx (p : Params) (v : Byte) (m : Mode) : List MicroStep :=
  .pin (.rs m.rsLevel) :: (txPhase p (hiNibble v) ++ txPhase p (loNibble v))

/-- The step list of TRANSMIT (R109). -/
def transmitSteps (p : Params) (f : Fields) : List MicroStep := tx p f.value f.mode ++ [.done]

/-- TRANSMIT (R109). -/
def execTransmit (f : Fields) (s : State) : Host.Outcome State Fault Refusal :=
  s.takeCommand (.transmit f) (s.commandCheck true true) (transmitSteps s.params f)

end Sys2Proof.Machine
end

