-- ==== Sys2Proof/Machine/Display.lean ====
section
/-! DEFINITION. The display driver: WRITE_LINE, CLEAR, INIT, SHUTDOWN (41_display.md R120 to R131). -/

namespace Sys2Proof.Machine

/-- `justify(s, style)` (R121). -/
def justify (s : List Byte) (style : Style) : List Byte :=
  if Config.width ≤ s.length then s.take Config.width
  else
    let p := Config.width - s.length
    match style with
    | .left => s ++ spaces p
    | .right => spaces p ++ s
    | .center => spaces (p / 2) ++ s ++ spaces ((p + 1) / 2)

/-- The procedure `write_line(s, line, style)` (R123). -/
def writeLine (p : Params) (s : List Byte) (line : Line) (style : Style) : List MicroStep :=
  tx p (p.lineAddr.get line) .command ++ (justify s style).flatMap fun c => tx p c .character

/-- The procedure `clear()` (R125). -/
def clearLines (p : Params) : List MicroStep :=
  [Line.one, .two, .three, .four].flatMap fun line => writeLine p [] line .left

/-- The step list of WRITE_LINE (R124). -/
def writeLineSteps (p : Params) (msg : List Byte) (f : Fields) : List MicroStep :=
  writeLine p msg (Line.ofField f.line) (Style.ofField f.style) ++ [.done]

/-- WRITE_LINE (R124). -/
def execWriteLine (f : Fields) (s : State) : Host.Outcome State Fault Refusal :=
  s.takeCommand (.writeLine f) (s.commandCheck f.styleLegal true) (writeLineSteps s.params s.message f)

/-- The step list of CLEAR (R126). -/
def clearSteps (p : Params) : List MicroStep := clearLines p ++ [.done]

/-- CLEAR (R126). -/
def execClear (f : Fields) (s : State) : Host.Outcome State Fault Refusal :=
  s.takeCommand (.clear f) (s.commandCheck true true) (clearSteps s.params)

/-- The step list of INIT (R128). AUTOCFG is ignored (R87). -/
def initSteps (p : Params) : List MicroStep :=
  [.configurePins, .pin (.bl false), .wait p.tReadyOff, .backlightReady]
    ++ p.initSeq.toList.flatMap (fun b => tx p b .command)
    ++ [.wait p.tPostInit, .setInited true, .done]

/-- INIT (R128). -/
def execInit (f : Fields) (s : State) : Host.Outcome State Fault Refusal :=
  s.takeCommand (.init f) (s.commandCheck true false) (initSteps s.params)

/-- The step list of SHUTDOWN (R130). -/
def shutdownSteps (p : Params) : List MicroStep :=
  clearLines p ++ [.backlightOff, .releasePins, .setInited false, .done]

/-- SHUTDOWN (R130). -/
def execShutdown (f : Fields) (s : State) : Host.Outcome State Fault Refusal :=
  s.takeCommand (.shutdown f) (s.commandCheck true true) (shutdownSteps s.params)

end Sys2Proof.Machine
end

