-- ==== Sys2Proof/Machine/Animation.lean ====
section
/-! DEFINITION. The animation frame composer: ANIM_LEFT, ANIM_RIGHT, ANIM_DOWN (42_animation.md R150 to R157), in the
source's accumulator form. The writes of I, K and ACC are micro-steps of their own (10_state.md R33, R37). -/

namespace Sys2Proof.Machine

/-- ACC after step I of ANIM_LEFT (R151); ACC is empty before step 1. -/
def accLeft (msg : List Byte) : Nat → List Byte
  | 0 => []
  | i + 1 => if msg.length < i + 1 then accLeft msg i ++ spaces 1 else msg.take (i + 1)

/-- Step I of ANIM_LEFT (R151): ACC, its frame right-justified, and the frame delay (R150). -/
def frameLeft (p : Params) (msg : List Byte) (line : Line) (i : Nat) : List MicroStep :=
  [.setI (Fin.ofNat 21 i), .setAcc (accLeft msg i)] ++ writeLine p (accLeft msg i) line .right ++ [.wait p.tFrame]

/-- The step list of ANIM_LEFT (R151), I from 1 to 20. -/
def animLeftSteps (p : Params) (msg : List Byte) (f : Fields) : List MicroStep :=
  .setAcc [] :: ((List.range 20).flatMap fun k => frameLeft p msg (Line.ofField f.line) (k + 1)) ++ [.done]

/-- ANIM_LEFT (R151). -/
def execAnimLeft (f : Fields) (s : State) : Host.Outcome State Fault Refusal :=
  s.takeCommand (.animLeft f) (s.commandCheck true true) (animLeftSteps s.params s.message f)

/-- `d = max(0, 20 - L)` (R153, R155). -/
def marginRight (msg : List Byte) : Nat := Config.width - msg.length

/-- One step I of ANIM_RIGHT on ACC (R153). -/
def accRightStep (msg : List Byte) (i : Nat) (acc : List Byte) : List Byte :=
  if i < marginRight msg then spaces 1 ++ acc else msg.drop (i - marginRight msg)

/-- ACC after the `k`-th step of ANIM_RIGHT, counting from 0, at which I = 20 - k (R153); ACC is empty before it. -/
def accRight (msg : List Byte) : Nat → List Byte
  | 0 => accRightStep msg 20 []
  | k + 1 => accRightStep msg (20 - (k + 1)) (accRight msg k)

/-- The `k`-th step of ANIM_RIGHT (R153): ACC, its frame left-justified, and the frame delay (R150). -/
def frameRight (p : Params) (msg : List Byte) (line : Line) (k : Nat) : List MicroStep :=
  [.setI (Fin.ofNat 21 (20 - k)), .setAcc (accRight msg k)] ++ writeLine p (accRight msg k) line .left
    ++ [.wait p.tFrame]

/-- The step list of ANIM_RIGHT (R153), I from 20 down to 0. -/
def animRightSteps (p : Params) (msg : List Byte) (f : Fields) : List MicroStep :=
  .setAcc [] :: ((List.range 21).flatMap fun k => frameRight p msg (Line.ofField f.line) k) ++ [.done]

/-- ANIM_RIGHT (R153). -/
def execAnimRight (f : Fields) (s : State) : Host.Outcome State Fault Refusal :=
  s.takeCommand (.animRight f) (s.commandCheck true true) (animRightSteps s.params s.message f)

/-- Step K of ANIM_DOWN over `n` lines (R156): with TRAIL = 0 the previous line in the cycle is blanked first, line 4
at K = 0 (R157); no delay follows the last line (R150). -/
def frameDown (p : Params) (msg : List Byte) (style : Style) (trail : Bool) (n k : Nat) : List MicroStep :=
  .setK (Fin.ofNat 4 k) :: ((if trail then [] else writeLine p [] (Line.ofIndex (k + 3)) .left)
    ++ writeLine p msg (Line.ofIndex k) style
    ++ (if k + 1 < n then [.wait p.tFrame] else []))

/-- The step list of ANIM_DOWN (R156), K from 0 to n - 1. -/
def animDownSteps (p : Params) (msg : List Byte) (f : Fields) : List MicroStep :=
  ((List.range f.lineCount).flatMap fun k => frameDown p msg (Style.ofField f.style) f.trail f.lineCount k) ++ [.done]

/-- ANIM_DOWN (R156). -/
def execAnimDown (f : Fields) (s : State) : Host.Outcome State Fault Refusal :=
  s.takeCommand (.animDown f) (s.commandCheck f.styleLegal true) (animDownSteps s.params s.message f)

end Sys2Proof.Machine
end

