-- ==== Sys2Proof/Machine/Dispatch.lean ====
section
/-! DEFINITION. One arm per command. -/

namespace Sys2Proof.Machine

def exec (i : Instr) (s : State) : Host.Outcome State Fault Refusal :=
  match i with
  | .init f => Sys2Proof.Machine.execInit f s
  | .writeLine f => Sys2Proof.Machine.execWriteLine f s
  | .clear f => Sys2Proof.Machine.execClear f s
  | .animLeft f => Sys2Proof.Machine.execAnimLeft f s
  | .animRight f => Sys2Proof.Machine.execAnimRight f s
  | .animDown f => Sys2Proof.Machine.execAnimDown f s
  | .shutdown f => Sys2Proof.Machine.execShutdown f s
  | .transmit f => Sys2Proof.Machine.execTransmit f s

end Sys2Proof.Machine
end

