-- ==== Sys2Proof/Machine/HostBus.lean ====
section
/-! DEFINITION. The host's accesses to the register window (20_memory.md R50 to R60, 60_exceptions.md R203 to R206) and
the host agent's step (30_encoding.md R95). -/

namespace Sys2Proof.Machine

/-- The accesses R52 and R53 admit: naturally aligned, and below MSG_BUF 32-bit only. -/
def admitted (wd : Width) (off : Offset) : Bool :=
  off.toNat % wd.bytes == 0 && (wd == .w32 || decide (msgBase ≤ off.toNat))

/-- What an admitted read returns (R55). -/
def State.readWindow (wd : Width) (off : Offset) (s : State) : Word :=
  if off = 0x00#7 then 0#32
  else if off = 0x04#7 then s.status
  else if off = 0x08#7 then s.msgLen.setWidth 32
  else if off.toNat < msgBase then 0#32
  else s.msgBuf.readLE off.toNat wd.bytes

/-- `MemRead` (R55): a refused read returns 0 (R206). -/
def State.memRead (wd : Width) (off : Offset) (s : State) : Word :=
  if admitted wd off then s.readWindow wd off else 0#32

/-- What a read leaves: no side effect, but for the error of a refused one (R57, R206). -/
def State.afterRead (wd : Width) (off : Offset) (s : State) : State :=
  if admitted wd off then s else s.raiseError .badAccess

/-- `accept_command(w)` (R203): FAULTED and BUSY come before decoding, and each command checks the rest itself. -/
def acceptCommand (w : Word) (s : State) : Host.Outcome State Fault Refusal :=
  if s.fault then .next (s.raiseError .faulted)
  else if s.busy then .next (s.raiseError .busy)
  else
    match decode w with
    | .error r => .next (s.raiseError (ErrCode.ofReject r))
    | .ok i => exec i s

/-- A MSG_LEN write (R56, R204). -/
def State.writeMsgLen (v : Word) (s : State) : State :=
  if s.busy then s.raiseError .busy
  else if Config.msgCap < v.toNat then s.raiseError .lenRange
  else { s with msgLen := v.setWidth 7 }

/-- A MSG_BUF write (R54, R56, R204). -/
def State.writeMsgBuf (wd : Width) (off : Offset) (v : Word) (s : State) : State :=
  if s.busy then s.raiseError .busy else { s with msgBuf := s.msgBuf.writeLE off.toNat v wd.bytes }

/-- `MemWrite` (R56), after the access check (R206). -/
def memWrite (wd : Width) (off : Offset) (v : Word) (s : State) : Host.Outcome State Fault Refusal :=
  if admitted wd off then
    if off = 0x00#7 then acceptCommand v s
    else if off = 0x04#7 then .next (if v.getLsbD 8 then s.clearError else s)
    else if off = 0x08#7 then .next (s.writeMsgLen v)
    else if off.toNat < msgBase then .next s
    else .next (s.writeMsgBuf wd off v)
  else .next (s.raiseError .badAccess)

/-- Record the value of a read (R95). -/
def State.observe (v : Word) (s : State) : State := { s with observed := v :: s.observed }

/-- The host's step: its next operation (R60, R95). A `poll` whose value does not match stays at the head (log 16). -/
def hostStep (s : State) : Host.Outcome State Fault Refusal :=
  match s.program with
  | [] => .next s
  | .write wd off v :: rest => memWrite wd off v { s with program := rest }
  | .read wd off :: rest => .next (({ s with program := rest }.observe (s.memRead wd off)).afterRead wd off)
  | .poll off mask val :: rest =>
    let v := s.memRead .w32 off
    .next (({ s with program := if v &&& mask = val then rest else s.program }.observe v).afterRead .w32 off)

end Sys2Proof.Machine
end

