-- ==== Sys2Proof/Machine/Sequencer.lean ====
section
/-! DEFINITION. The sequencer's and the tick's steps (10_state.md R33, 40_transmit.md R100 to R102, 60_exceptions.md R212). -/

namespace Sys2Proof.Machine

/-- The micro-steps that perform a pin, configure or release operation, and so may fail (R212). -/
def MicroStep.usesGpio : MicroStep → Bool
  | .pin _ => true
  | .wait _ => false
  | .configurePins => true
  | .backlightReady => true
  | .backlightOff => true
  | .releasePins => true
  | .setInited _ => false
  | .setI _ => false
  | .setK _ => false
  | .setAcc _ => false
  | .done => false

/-- `configure_pins()` (R129). -/
def State.configurePins (s : State) : State :=
  { s.drive .configure with
    pincfg := .configured
    btnCfg := some { pull := s.params.btnPull, debounceMs := Config.collabDebounceMs } }

/-- INIT's step 4, one atomic step (R128). -/
def State.backlightReady (s : State) : State :=
  { s.drive (.write (.bl true)) with blState := true, blLast := s.now, togEn := true }

/-- SHUTDOWN's step 2, one atomic step (R130). -/
def State.backlightOff (s : State) : State :=
  { s.drive (.write (.bl false)) with blState := false, togEn := false }

/-- `release_pins()` (R131). It disarms the edge source. What BTN_CFG's pull setting is from then on the spec does not
say: DESIGN CHOICE (log 17), it goes with the arming. -/
def State.releasePins (s : State) : State := { s.drive .release with pincfg := .released, btnCfg := none }

/-- The effect of one micro-step that does not fail (R33). -/
def State.perform (m : MicroStep) (s : State) : State :=
  match m with
  | .pin w => s.drive (.write w)
  | .wait n => { s with dly := n }
  | .configurePins => s.configurePins
  | .backlightReady => s.backlightReady
  | .backlightOff => s.backlightOff
  | .releasePins => s.releasePins
  | .setInited b => { s with inited := b }
  | .setI i => { s with animI := i }
  | .setK k => { s with animK := k }
  | .setAcc a => { s with animAcc := a }
  | .done => s.endCommand

/-- One step of the sequencer: the head of SEQ's list, enabled only when DLY = 0 (R33, R101). Where none is enabled
the sequencer does nothing (log 13). A failing GPIO step is the failure and nothing else (R212, log 14). -/
def sequencerStep (gpioFail : Bool) (s : State) : Host.Outcome State Fault Refusal :=
  match s.seq with
  | .idle => .next s
  | .running op w steps =>
    if s.dly ≠ 0#32 then .next s
    else
      match steps with
      | [] => .fault .stepListExhausted
      | m :: rest =>
        if gpioFail && m.usesGpio then .next s.gpioFailure
        else .next ({ s with seq := .running op w rest }.perform m)

/-- The tick (R100). -/
def State.tick (s : State) : State :=
  { s with now := s.now + 1#64, dly := if s.dly = 0#32 then 0#32 else s.dly - 1#32 }

end Sys2Proof.Machine
end

