-- ==== Sys2Proof/Machine/Agents.lean ====
section
/-! DEFINITION. One step of one agent, and the RESET input (00_scope.md R11, 70_reset_and_hazards.md R230). -/

namespace Sys2Proof.Machine

/-- RESET asserted (R230, R231): every piece of state at its value of R39, at once and with no pin event. The trace and
the model's own fields are not the block's state and stay (log 10). -/
def State.enterReset (s : State) : State :=
  { State.reset with
    resetPort := true
    trace := s.trace
    observed := s.observed
    program := s.program
    schedule := s.schedule
    drawn := s.drawn
    params := s.params }

/-- One step of an agent while RESET is released. -/
def agentStep (ev : Event) (s : State) : Host.Outcome State Fault Refusal :=
  match ev with
  | .tick => .next s.tick
  | .sequencer gpioFail => sequencerStep gpioFail s
  | .edge gpioFail => .next (edgeStep gpioFail s)
  | .host => hostStep s
  | .setReset asserted => .next (if asserted then s.enterReset else { s with resetPort := false })

/-- One event (R211). While RESET is asserted every piece of state holds its reset value (R230), so no agent's step has
an effect; the host's access waits (log 8). -/
def handle (ev : Event) (s : State) : Host.Outcome State Fault Refusal :=
  if s.resetPort then
    match ev with
    | .tick => .next s
    | .sequencer _ => .next s
    | .edge _ => .next s
    | .host => .next s
    | .setReset asserted => .next { s with resetPort := asserted }
  else agentStep ev s

/-- The event of the next step: the schedule's first, or a free one where it lists nothing (log 1). -/
def State.nextEvent (s : State) : Event :=
  match s.schedule with
  | [] => Config.freeEvent s.drawn
  | ev :: _ => ev

/-- The state once its next event is taken from the schedule, or drawn. -/
def State.dropEvent (s : State) : State :=
  match s.schedule with
  | [] => { s with drawn := s.drawn + 1 }
  | _ :: rest => { s with schedule := rest }

/-- The host about to write `w` to CMD, RESET released: what the command's fetch is on this block (R21, log 3). -/
def State.placeCommand (w : Word) (s : State) : State :=
  { s with
    resetPort := false
    program := .write .w32 0x00#7 w :: s.program
    schedule := .host :: s.schedule }

end Sys2Proof.Machine
end

