-- ==== Sys2Proof/Machine/Step.lean ====
section
/-! DEFINITION. The step, and how the host places a command word for it. -/

namespace Sys2Proof.Machine

/-- One step: the next event, of whichever agent it is (R11, R211). -/
def step (s : State) : Host.Outcome State Fault Refusal := handle s.nextEvent s.dropEvent

/-- The command word `w` written to CMD by the very next step. -/
def State.withFetchWord (s : State) (nbits w : Nat) : State := s.placeCommand (BitVec.ofNat 32 (w % 2 ^ nbits))

end Sys2Proof.Machine
end

