-- ==== Sys2Proof/Machine/HostProgram.lean ====
section
/-! DEFINITION. The assembler: command mnemonics and the pseudo-instructions of a host program (30_encoding.md R94 to R96). -/

namespace Sys2Proof

/-- The number of a style (R83, R94). -/
def Style.toField : Style → Word
  | .left => 0#32
  | .center => 1#32
  | .right => 2#32

/-- `(line-1)<<4` for a line 1 to 4; any other is refused (R94). -/
def asmLine (line : Nat) : Option Word :=
  if 1 ≤ line ∧ line ≤ 4 then some (BitVec.ofNat 32 (line - 1) <<< 4) else none

/-- The word of one command, or a refusal (R94). -/
def assemble : AsmCommand → Option Word
  | .init autocfg => some (if autocfg then 0x00002001#32 else 0x00000001#32)
  | .wline line style => (asmLine line).map fun l => 0x2#32 ||| l ||| (style.toField <<< 6)
  | .clear => some 0x00000003#32
  | .aleft line => (asmLine line).map fun l => 0x4#32 ||| l
  | .aright line => (asmLine line).map fun l => 0x5#32 ||| l
  | .adown style trail n =>
    if n.getD 4 ≤ 7 then
      some (0x6#32 ||| (style.toField <<< 6) ||| ((if trail then 1#32 else 0#32) <<< 8) ||| (BitVec.ofNat 32 (n.getD 4) <<< 9))
    else none
  | .shutdown => some 0x00000007#32
  | .tx imm8 mode =>
    if imm8 < 256 then
      some (0x8#32 ||| (BitVec.ofNat 32 imm8 <<< 16) ||| ((if mode = .character then 1#32 else 0#32) <<< 12))
    else none

/-- `wr8 0x40+k, <byte k>` for each byte of a text, from index `k` on (R96). -/
def msgWrites (k : Nat) : List Byte → List HostOp
  | [] => []
  | b :: t => .write .w8 (BitVec.ofNat 7 (0x40 + k)) (b.setWidth 32) :: msgWrites (k + 1) t

/-- `sync`: wait until BUSY = 0 (R96). -/
def syncOp : HostOp := .poll 0x04#7 0x1#32 0x0#32

/-- `cmd`: write the command's word to CMD (R96). -/
def cmdOps (c : AsmCommand) : Option (List HostOp) := (assemble c).map fun w => [.write .w32 0x00#7 w]

/-- The operations of one line, or a refusal (R96). -/
def AsmLine.expand : AsmLine → Option (List HostOp)
  | .op o => some [o]
  | .msg text =>
    if text.length ≤ Config.msgCap then
      some (msgWrites 0 text ++ [.write .w32 0x08#7 (BitVec.ofNat 32 text.length)])
    else none
  | .cmd c => cmdOps c
  | .sync => some [syncOp]
  | .run c => (cmdOps c).map fun ops => ops ++ [syncOp]
  | .clrerr => some [.write .w32 0x04#7 0x100#32]

/-- A host program, or a refusal of one of its lines (R95, R96). -/
def assembleProgram : List AsmLine → Option (List HostOp)
  | [] => some []
  | l :: ls =>
    match l.expand, assembleProgram ls with
    | some a, some b => some (a ++ b)
    | _, _ => none

end Sys2Proof
end

