-- ==== Sys2Proof/Machine/Receiver.lean ====
section
/-! DEFINITION. The reference receiver (20_memory.md R70 to R75): what the pin-update trace means to the LCD controller.
It is outside the block and no step reads it; it is a function of the trace (log 12). -/

namespace Sys2Proof.Machine

/-- The receiver: the pins it sees, a first nibble waiting for its second (R71), AC and DDRAM (R72). -/
structure Receiver where
  configured : Bool
  rs : Bool
  e : Bool
  d : Nibble
  half : Option (Bool × Nibble)
  ac : BitVec 7
  ddram : BitVec 7 → Byte

/-- Before any event: AC and DDRAM unknown (R72), so free values (log 12). -/
def Receiver.powerOn : Receiver where
  configured := false
  rs := false
  e := false
  d := 0#4
  half := none
  ac := Config.freeReceiverAc
  ddram := Config.freeReceiverDdram

/-- One byte in Command mode (R73). -/
def Receiver.takeCommandByte (b : Byte) (r : Receiver) : Receiver :=
  if b.getLsbD 7 then { r with ac := b.setWidth 7 }
  else if b = 0x01#8 then { r with ac := 0#7, ddram := fun _ => 0x20#8 }
  else r

/-- One byte in Character mode (R74). -/
def Receiver.takeCharacter (b : Byte) (r : Receiver) : Receiver :=
  { r with ac := r.ac + 1#7, ddram := fun a => if a = r.ac then b else r.ddram a }

/-- One sample of (RS, D): the first of a pair waits, the second completes a byte, in the mode of the first (R71). -/
def Receiver.sample (r : Receiver) : Receiver :=
  match r.half with
  | none => { r with half := some (r.rs, r.d) }
  | some (character, hi) =>
    let b : Byte := hi ++ r.d
    if character then { r with half := none }.takeCharacter b else { r with half := none }.takeCommandByte b

/-- One pin-update event: a sample is taken at a falling edge of E while the pins are configured (R70); the pairing
starts afresh when they are configured (R71). -/
def Receiver.feed (r : Receiver) : PinUpdate → Receiver
  | .write (.rs b) => { r with rs := b }
  | .write (.d n) => { r with d := n }
  | .write (.e b) => if r.configured && r.e && !b then { r.sample with e := b } else { r with e := b }
  | .write (.bl _) => r
  | .configure => { r with configured := true, rs := false, e := false, d := 0#4, half := none }
  | .release => { r with configured := false }

/-- A list of events, oldest first. -/
def Receiver.feedAll (r : Receiver) (us : List PinUpdate) : Receiver := us.foldl Receiver.feed r

/-- What the receiver holds after the events of a state's trace. -/
def State.receiver (s : State) : Receiver := Receiver.powerOn.feedAll (s.trace.reverse.map PinEvent.update)

/-- The first DDRAM address of a row: `LINE_ADDR[r] - 0x80` (R75). Below 0x80 the difference is negative and R75 gives no
row: DESIGN CHOICE (log 18), the difference is taken modulo 128. -/
def rowBase (p : Params) (line : Line) : BitVec 7 := (p.lineAddr.get line - 0x80#8).setWidth 7

/-- The 20 bytes of a row (R75). Where `base_r + 19` lies past DDRAM[127] R75 gives no row: DESIGN CHOICE (log 18), the
index wraps modulo 128, as R74's AC does. -/
def Receiver.row (p : Params) (line : Line) (r : Receiver) : List Byte :=
  (List.range Config.width).map fun j => r.ddram (rowBase p line + BitVec.ofNat 7 j)

end Sys2Proof.Machine
end

