-- ==== Sys2Proof/Safety.lean ====
section
/-! DEFINITION. The terms claims are stated in: runs under a given schedule, what a step list sends and how long it
waits, the invariants of the block, and when a run has ended. -/

namespace Sys2Proof

/-- A pin driven to 1 (R34). -/
def Level.isHigh : Level → Bool
  | .z => false
  | .lo => false
  | .hi => true

end Sys2Proof

namespace Sys2Proof.Machine

/-- `expand(op, w)` (R33): the step list a command starts, over the parameters and the message. -/
def expand (p : Params) (msg : List Byte) : Instr → List MicroStep
  | .init _ => initSteps p
  | .writeLine f => writeLineSteps p msg f
  | .clear _ => clearSteps p
  | .animLeft f => animLeftSteps p msg f
  | .animRight f => animRightSteps p msg f
  | .animDown f => animDownSteps p msg f
  | .shutdown _ => shutdownSteps p
  | .transmit f => transmitSteps p f

/-- The INITED that a command needs (R203): INIT wants 0, every other 1. -/
def wantsInited : Instr → Bool
  | .init _ => false
  | .writeLine _ => true
  | .clear _ => true
  | .animLeft _ => true
  | .animRight _ => true
  | .animDown _ => true
  | .shutdown _ => true
  | .transmit _ => true

/-- Two commands of one opcode that agree on the fields it uses (R81). INIT's AUTOCFG is accepted and ignored (R87). -/
def sameUsedFields (i j : Instr) : Prop :=
  i.opcode = j.opcode ∧
    match i with
    | .init _ => True
    | .writeLine f => f.line = j.fields.line ∧ f.style = j.fields.style
    | .clear _ => True
    | .animLeft f => f.line = j.fields.line
    | .animRight f => f.line = j.fields.line
    | .animDown f => f.style = j.fields.style ∧ f.trail = j.fields.trail ∧ f.nlines = j.fields.nlines
    | .shutdown _ => True
    | .transmit f => f.value = j.fields.value ∧ f.mode = j.fields.mode

/-- The remaining steps of SEQ (R33). -/
def State.steps (s : State) : List MicroStep :=
  match s.seq with
  | .idle => []
  | .running _ _ steps => steps

/-- The events of a list one after the other (R211), stopping at the first stop. -/
def runEvents : List Event → State → Host.Outcome State Fault Refusal
  | [], s => .next s
  | ev :: evs, s =>
    match handle ev s with
    | .next t => runEvents evs t
    | .fault r => .fault r
    | .refused r => .refused r

/-- The pin-update event of a micro-step (R35). -/
def MicroStep.updates : MicroStep → List PinUpdate
  | .pin w => [.write w]
  | .wait _ => []
  | .configurePins => [.configure]
  | .backlightReady => [.write (.bl true)]
  | .backlightOff => [.write (.bl false)]
  | .releasePins => [.release]
  | .setInited _ => []
  | .setI _ => []
  | .setK _ => []
  | .setAcc _ => []
  | .done => []

/-- The pin-update events of a step list, oldest first. -/
def updatesOf (steps : List MicroStep) : List PinUpdate := steps.flatMap MicroStep.updates

/-- A micro-step the pins or the time can show: not a write of I, K or ACC. -/
def MicroStep.isVisible : MicroStep → Bool
  | .setI _ => false
  | .setK _ => false
  | .setAcc _ => false
  | .pin _ => true
  | .wait _ => true
  | .configurePins => true
  | .backlightReady => true
  | .backlightOff => true
  | .releasePins => true
  | .setInited _ => true
  | .done => true

/-- The events of RS, E and D, and of all pins at once; the toggler never performs one (R175). -/
def PinUpdate.isDisplay : PinUpdate → Bool
  | .write (.rs _) => true
  | .write (.e _) => true
  | .write (.d _) => true
  | .write (.bl _) => false
  | .configure => true
  | .release => true

/-- The pin-update events of the trace so far, oldest first. -/
def State.sent (s : State) : List PinUpdate := s.trace.reverse.map PinEvent.update

/-- Those of them that concern the display pins. -/
def State.sentDisplay (s : State) : List PinUpdate := s.sent.filter PinUpdate.isDisplay

/-- The ticks a micro-step waits at least (R101). -/
def MicroStep.ticks : MicroStep → Nat
  | .wait n => n.toNat
  | .pin _ => 0
  | .configurePins => 0
  | .backlightReady => 0
  | .backlightOff => 0
  | .releasePins => 0
  | .setInited _ => 0
  | .setI _ => 0
  | .setK _ => 0
  | .setAcc _ => 0
  | .done => 0

/-- The sum of a step list's `Wait` loads (R240). -/
def waitTicks (steps : List MicroStep) : Nat := (steps.map MicroStep.ticks).sum

/-- The number of rises of E in a step list; each byte is two (R103, R132). -/
def ePulses (steps : List MicroStep) : Nat := steps.count (.pin (.e true))

/-- The number of pin events of a step list (R110). -/
def pinEvents (steps : List MicroStep) : Nat := (updatesOf steps).length

/-- A schedule without slack: each micro-step at once, each `Wait(N)` exactly N ticks (95_test_vectors.md). -/
def zeroSlack : List MicroStep → List Event
  | [] => []
  | m :: rest => .sequencer false :: (List.replicate m.ticks .tick ++ zeroSlack rest)

/-- An event of any agent, RESET left alone. -/
def isAgent : Event → Bool
  | .tick => true
  | .sequencer _ => true
  | .edge _ => true
  | .host => true
  | .setReset _ => false

/-- A schedule that is fair to the tick and to the sequencer: each comes up again and again (R102). -/
def fairSchedule (sched : Nat → Event) : Prop :=
  (∀ n, ∃ m, n ≤ m ∧ sched m = .tick) ∧ ∀ n, ∃ m b, n ≤ m ∧ sched m = .sequencer b

/-- The least time that has passed since each kind of change, as a step list is gone through (R107). -/
structure StrobeClock where
  eHigh : Bool
  sinceData : Nat
  sinceRise : Nat
  sinceFall : Nat
deriving DecidableEq, Repr

/-- `n` ticks pass. -/
def StrobeClock.pass (n : Nat) (c : StrobeClock) : StrobeClock :=
  { c with sinceData := c.sinceData + n, sinceRise := c.sinceRise + n, sinceFall := c.sinceFall + n }

/-- RS or D may change: E is low and fell at least T_SETTLE ago (R107). -/
def StrobeClock.dataMayChange (p : Params) (c : StrobeClock) : Bool := !c.eHigh && decide (p.tSettle.toNat ≤ c.sinceFall)

/-- R107 on a step list: RS and D stand still from T_SETTLE before E rises to T_SETTLE after it falls, E is high for
T_PULSE and low for twice T_SETTLE between two pulses. -/
def strobesTimed (p : Params) (c : StrobeClock) : List MicroStep → Bool
  | [] => true
  | .pin (.rs _) :: rest => c.dataMayChange p && strobesTimed p { c with sinceData := 0 } rest
  | .pin (.d _) :: rest => c.dataMayChange p && strobesTimed p { c with sinceData := 0 } rest
  | .pin (.e true) :: rest =>
    !c.eHigh && decide (p.tSettle.toNat ≤ c.sinceData) && decide (2 * p.tSettle.toNat ≤ c.sinceFall)
      && strobesTimed p { c with eHigh := true, sinceRise := 0 } rest
  | .pin (.e false) :: rest =>
    c.eHigh && decide (p.tPulse.toNat ≤ c.sinceRise) && strobesTimed p { c with eHigh := false, sinceFall := 0 } rest
  | .pin (.bl _) :: rest => strobesTimed p c rest
  | .wait n :: rest => strobesTimed p (c.pass n.toNat) rest
  | .configurePins :: rest => c.dataMayChange p && strobesTimed p { c with sinceData := 0 } rest
  | .backlightReady :: rest => strobesTimed p c rest
  | .backlightOff :: rest => strobesTimed p c rest
  | .releasePins :: rest => c.dataMayChange p && strobesTimed p { c with sinceData := 0 } rest
  | .setInited _ :: rest => strobesTimed p c rest
  | .setI _ :: rest => strobesTimed p c rest
  | .setK _ :: rest => strobesTimed p c rest
  | .setAcc _ :: rest => strobesTimed p c rest
  | .done :: rest => c.dataMayChange p && strobesTimed p c rest

/-- Where a step list begins: E low, and down for at least T_SETTLE. -/
def StrobeClock.start (p : Params) : StrobeClock :=
  { eHigh := false, sinceData := 0, sinceRise := 0, sinceFall := p.tSettle.toNat }

/-- A step list is legal from a point of the block's life: pins are written only while configured, the backlight pin by
the sequencer only while the toggler is off, the pins are released only with the toggler off, and the list ends with one
`Done` at which INITED, TOG_EN and PINCFG agree and E is low (R24, R32, R36, R103, R173). -/
def staged (configured togEn inited eHigh : Bool) : List MicroStep → Bool
  | [] => false
  | .pin (.rs _) :: rest => configured && staged configured togEn inited eHigh rest
  | .pin (.d _) :: rest => configured && staged configured togEn inited eHigh rest
  | .pin (.e b) :: rest => configured && staged configured togEn inited b rest
  | .pin (.bl _) :: rest => configured && !togEn && staged configured togEn inited eHigh rest
  | .wait _ :: rest => staged configured togEn inited eHigh rest
  | .configurePins :: rest => !configured && !togEn && staged true togEn inited false rest
  | .backlightReady :: rest => configured && staged configured true inited eHigh rest
  | .backlightOff :: rest => configured && staged configured false inited eHigh rest
  | .releasePins :: rest => configured && !togEn && staged false togEn inited false rest
  | .setInited b :: rest => staged configured togEn b eHigh rest
  | .setI _ :: rest => staged configured togEn inited eHigh rest
  | .setK _ :: rest => staged configured togEn inited eHigh rest
  | .setAcc a :: rest => decide (a.length ≤ Config.msgCap) && staged configured togEn inited eHigh rest
  | .done :: rest => rest.isEmpty && inited == togEn && togEn == configured && !eHigh

/-- PINCFG as a bit (R36). -/
def PinCfg.isConfigured : PinCfg → Bool
  | .released => false
  | .configured => true

/-- MSG_BUF is in canonical form, MSG_LEN is at most MSG_CAP and ACC holds at most MSG_CAP bytes (R27, R37). -/
def State.messageOk (s : State) : Prop :=
  s.msgBuf.wf = true ∧ s.msgLen.toNat ≤ Config.msgCap ∧ s.animAcc.length ≤ Config.msgCap

/-- Idle and not faulted, no delay runs, and INITED, TOG_EN and PINCFG agree; running, SEQ holds a command word, its own
opcode, and a step list that is legal where the block stands (R24, R33, R101). -/
def State.sequencerOk (s : State) : Prop :=
  match s.seq with
  | .idle =>
    s.fault = false →
      s.dly = 0#32 ∧ (s.pincfg = .configured ↔ s.inited = true) ∧ s.togEn = s.inited ∧ s.pins.e ≠ .hi
  | .running op w steps =>
    s.fault = false ∧ (∃ i, decode w = .ok i ∧ i.opcode = op)
      ∧ staged s.pincfg.isConfigured s.togEn s.inited s.pins.e.isHigh steps = true

/-- While the block is not faulted: released pins are Z, configured ones are driven, the edge source is armed exactly
while they are configured, and while TOG_EN = 1 the BL pin shows BL_STATE and the pins are configured (R34, R36, R173).
While it is faulted the toggler is off (R213). That BTN_CFG is absent while the pins are released is the model's choice at
reset (log 9), and for the pull setting everywhere (log 17). -/
def State.pinsOk (s : State) : Prop :=
  (s.fault = true → s.togEn = false)
    ∧ (s.fault = false →
        (s.pincfg = .released → s.pins = Pins.released ∧ s.btnCfg = none ∧ s.togEn = false)
        ∧ (s.pincfg = .configured →
            (s.pins.rs ≠ .z ∧ s.pins.e ≠ .z ∧ s.pins.d0 ≠ .z ∧ s.pins.d1 ≠ .z ∧ s.pins.d2 ≠ .z ∧ s.pins.d3 ≠ .z
              ∧ s.pins.bl ≠ .z) ∧ s.btnCfg ≠ none)
        ∧ (s.togEn = true → s.pins.bl = Level.ofBool s.blState))

/-- While RESET is asserted every piece of state holds its reset value (R230). -/
def State.resetHeld (s : State) : Prop := s.resetPort = true → s = s.enterReset

/-- The invariant of the block. -/
def State.Inv (s : State) : Prop := s.messageOk ∧ s.sequencerOk ∧ s.pinsOk ∧ s.resetHeld

/-- R241: the host has performed its last operation, BUSY = 0 and FAULT = 0. -/
def State.runEnded (s : State) : Prop := s.program = [] ∧ s.busy = false ∧ s.fault = false

/-- R235: T_SETTLE and T_PULSE each last at least 50 microseconds at F_TICK. The block cannot check it. -/
def timingOk (p : Params) : Prop :=
  0 < p.fTick ∧ 50 * p.fTick ≤ p.tSettle.toNat * 1000000 ∧ 50 * p.fTick ≤ p.tPulse.toNat * 1000000

/-- The row addresses are distinct 20-byte ranges of `set address` commands, as those of the default are (R75). A range
that wraps past DDRAM[127] is admitted (log 18). -/
def rowsApart (p : Params) : Prop :=
  (∀ line, (p.lineAddr.get line).getLsbD 7 = true)
    ∧ ∀ a b : Line, a ≠ b → ∀ i j : Nat, i < Config.width → j < Config.width →
      rowBase p a + BitVec.ofNat 7 i ≠ rowBase p b + BitVec.ofNat 7 j

end Sys2Proof.Machine
end

