-- ==== Sys2Proof/Certificates/Slice0/Obligations.lean ====
section
/-! DEFINITION. The statements about the block, each from the spec's numbered rules. -/

open Sys2Proof Sys2Proof.Machine

/-! ## Encoding -/

/-- R81, R88, R93: every field of every command at every value it may have comes back from the command's word. -/
def Obligations.DecodeEncodeAgree : Prop :=
  ∀ i : Instr, i.wellFormed = true → decode (encode i) = .ok i

/-- R33, R81, R93: a word that decodes to a command is that command's word, so SEQ holds the word the host wrote. -/
def Obligations.DecodedWordIsEncoded : Prop :=
  ∀ (w : Word) (i : Instr), decode w = .ok i →
    encode i = w ∧ i.wellFormed = true ∧ i.opcode = opField w ∧ i.fields = fieldsOf w

/-- The words of 95_test_vectors.md EN3, EN8, EN10, EN15, EN18, EN19, EN26 and EN27. -/
def Obligations.WordsOfTheSpecDecode : Prop :=
  decode 0x00000092#32 = .ok (.writeLine ⟨1#2, 2#2, false, 0#3, .command, false, 0#8⟩)
    ∧ decode 0x00000024#32 = .ok (.animLeft ⟨2#2, 0#2, false, 0#3, .command, false, 0#8⟩)
    ∧ decode 0x00000846#32 = .ok (.animDown ⟨0#2, 1#2, false, 4#3, .command, false, 0#8⟩)
    ∧ decode 0x00000F06#32 = .ok (.animDown ⟨0#2, 0#2, true, 7#3, .command, false, 0#8⟩)
    ∧ decode 0x00411008#32 = .ok (.transmit ⟨0#2, 0#2, false, 0#3, .character, false, 0x41#8⟩)
    ∧ decode 0x000000C4#32 = .ok (.animLeft ⟨0#2, 3#2, false, 0#3, .command, false, 0#8⟩)
    ∧ decode 0x0000F008#32 = .error .reservedBits
    ∧ decode 0x01000009#32 = .error .illegalOp

/-- R90, R91: on a block that is neither faulted nor busy, an illegal opcode is refused with ILLEGAL_OP whatever its
reserved bits are, and a legal opcode with a reserved bit set with RESERVED_BITS; ERRCODE keeps the first error. -/
def Obligations.IllegalAndReservedWordsRefused : Prop :=
  ∀ (w : Word) (s : State), s.fault = false → s.seq = .idle →
    ((w.toNat % 16 = 0 ∨ 9 ≤ w.toNat % 16) →
      acceptCommand w s = .next { s with errcode := if s.errcode = .noError then .illegalOp else s.errcode })
    ∧ (1 ≤ w.toNat % 16 → w.toNat % 16 ≤ 8 → w &&& 0xFF00C000#32 ≠ 0#32 →
      acceptCommand w s = .next { s with errcode := if s.errcode = .noError then .reservedBits else s.errcode })

/-- R83: the three styles, and STYLE = 3 refused with BAD_FIELD by the two opcodes that use it. -/
def Obligations.ReservedStyleRefused : Prop :=
  Style.ofField 0#2 = .left ∧ Style.ofField 1#2 = .center ∧ Style.ofField 2#2 = .right
    ∧ ∀ (w : Word) (s : State), s.fault = false → s.seq = .idle →
      (w.toNat % 16 = 2 ∨ w.toNat % 16 = 6) → w &&& 0xFF00C000#32 = 0#32 → w &&& 0xC0#32 = 0xC0#32 →
      acceptCommand w s = .next { s with errcode := if s.errcode = .noError then .badField else s.errcode }

/-- R84: the clamp of NLINES, and the default 4 that is the assembler's. -/
def Obligations.LineCountIsClamped : Prop :=
  (∀ f : Fields,
    (f.nlines = 0#3 → f.lineCount = 1)
    ∧ (1 ≤ f.nlines.toNat → f.nlines.toNat ≤ 4 → f.lineCount = f.nlines.toNat)
    ∧ (5 ≤ f.nlines.toNat → f.lineCount = 4))
  ∧ ∀ style trail, assemble (.adown style trail none) = assemble (.adown style trail (some 4))

/-- R87, R89: two commands that differ only in fields their opcode does not use do the same; only the word kept in SEQ
differs. -/
def Obligations.UnusedFieldsIgnored : Prop :=
  ∀ (i j : Instr) (s : State), sameUsedFields i j →
    ∃ t u, exec i s = .next t ∧ exec j s = .next u ∧ u = { t with seq := u.seq } ∧ u.steps = t.steps
      ∧ u.activeOp = t.activeOp ∧ u.busy = t.busy

/-! ## Taking a command -/

/-- A step runs the decoded command: the word placed for the very next step, and any word a scheduled host access
writes to CMD (R21, R33). -/
def Obligations.StepRunsDecodedCommand : Prop :=
  (∀ (s : State) (w : Nat) (i : Instr), decode (BitVec.ofNat 32 (w % 2 ^ 32)) = .ok i →
    step (s.withFetchWord 32 w) = exec i { s with resetPort := false })
  ∧ ∀ (s : State) (w : Word) (i : Instr) (evs : List Event) (ops : List HostOp),
    s.schedule = .host :: evs → s.program = .write .w32 0x00#7 w :: ops → s.resetPort = false → decode w = .ok i →
    step s = exec i { s with schedule := evs, program := ops }

/-- R203, whole: BAD_ACCESS, FAULTED, BUSY, the decoder's code, NOT_INIT, ALREADY_INIT, in that order, each recorded and
nothing else changed; and where none applies, SEQ <- RUNNING(op, w, expand(op, w)) with the word as written. -/
def Obligations.AcceptanceInOrder : Prop :=
  (∀ (wd : Width) (w : Word) (s : State), wd ≠ .w32 →
    memWrite wd 0x00#7 w s = .next (s.raiseError .badAccess))
  ∧ ∀ (w : Word) (s : State),
    memWrite .w32 0x00#7 w s = acceptCommand w s
    ∧ (s.fault = true → acceptCommand w s = .next (s.raiseError .faulted))
    ∧ (s.fault = false → s.seq ≠ .idle → acceptCommand w s = .next (s.raiseError .busy))
    ∧ (s.fault = false → s.seq = .idle →
        (∀ r, decode w = .error r → acceptCommand w s = .next (s.raiseError (ErrCode.ofReject r)))
        ∧ (∀ i, decode w = .ok i → opField w ≠ 1#4 → s.inited = false →
            acceptCommand w s = .next (s.raiseError .notInit))
        ∧ (∀ i, decode w = .ok i → opField w = 1#4 → s.inited = true →
            acceptCommand w s = .next (s.raiseError .alreadyInit))
        ∧ (∀ i, decode w = .ok i → (opField w = 1#4 ↔ s.inited = false) →
            acceptCommand w s = .next { s with seq := .running (opField w) w (expand s.params s.message i) }))

/-- R38, R207: the frame of every command. Accepted, it changes SEQ alone; refused, ERRCODE alone, and that only where
it held no error. No byte of MSG_BUF, no pin, no flag and no counter changes, and no pin event happens. -/
def Obligations.CommandFrame : Prop :=
  ∀ (i : Instr) (s t : State), exec i s = .next t →
    t = { s with seq := t.seq, errcode := t.errcode }
    ∧ ((t.seq = s.seq ∧ (t.errcode = s.errcode ∨ s.errcode = .noError))
      ∨ (t.errcode = s.errcode ∧ s.fault = false ∧ s.seq = .idle ∧ t.busy = true ∧ t.activeOp = i.opcode))
    ∧ ∀ a, t.msgBuf.readByte a = s.msgBuf.readByte a

/-- R109, R124, R126: TRANSMIT, WRITE_LINE and CLEAR start with the step lists of their rules, from every initialised
idle block without a fault. -/
def Obligations.LineCommandsStart : Prop :=
  ∀ (f : Fields) (s : State), s.fault = false → s.seq = .idle → s.inited = true →
    exec (.transmit f) s
      = .next { s with seq := .running 8#4 (encode (.transmit f)) (tx s.params f.value f.mode ++ [.done]) }
    ∧ (f.style ≠ 3#2 →
        exec (.writeLine f) s
          = .next { s with
              seq := .running 2#4 (encode (.writeLine f))
                (tx s.params (s.params.lineAddr.get (Line.ofField f.line)) .command
                  ++ (justify s.message (Style.ofField f.style)).flatMap (fun c => tx s.params c .character)
                  ++ [.done]) })
    ∧ exec (.clear f) s
      = .next { s with
          seq := .running 3#4 (encode (.clear f))
            (writeLine s.params [] .one .left ++ writeLine s.params [] .two .left
                    ++ writeLine s.params [] .three .left ++ writeLine s.params [] .four .left ++ [.done]) }

/-- R128, R130: INIT starts from every uninitialised and SHUTDOWN from every initialised idle block without a fault,
with the step lists of their rules. -/
def Obligations.LifecycleCommandsStart : Prop :=
  ∀ (f : Fields) (s : State), s.fault = false → s.seq = .idle →
    (s.inited = false →
      exec (.init f) s
        = .next { s with
            seq := .running 1#4 (encode (.init f))
              ([.configurePins, .pin (.bl false), .wait s.params.tReadyOff, .backlightReady]
                      ++ tx s.params s.params.initSeq[0] .command ++ tx s.params s.params.initSeq[1] .command
                      ++ tx s.params s.params.initSeq[2] .command ++ tx s.params s.params.initSeq[3] .command
                      ++ tx s.params s.params.initSeq[4] .command ++ tx s.params s.params.initSeq[5] .command
                      ++ [.wait s.params.tPostInit, .setInited true, .done]) })
    ∧ (s.inited = true →
      exec (.shutdown f) s
        = .next { s with
            seq := .running 7#4 (encode (.shutdown f))
              (writeLine s.params [] .one .left ++ writeLine s.params [] .two .left
                      ++ writeLine s.params [] .three .left ++ writeLine s.params [] .four .left
                      ++ [.backlightOff, .releasePins, .setInited false, .done]) })

/-- R150, R151, R152: ANIM_LEFT starts from every initialised idle block without a fault. But for its writes of I and
ACC, its steps are the twenty frames of the closed form, each followed by the frame delay. -/
def Obligations.AnimLeftStarts : Prop :=
  ∀ (f : Fields) (s : State), s.fault = false → s.seq = .idle → s.inited = true →
    ∃ steps,
      exec (.animLeft f) s = .next { s with seq := .running 4#4 (encode (.animLeft f)) steps }
      ∧ steps.filter MicroStep.isVisible
        = ((List.range 20).flatMap fun k =>
            tx s.params (s.params.lineAddr.get (Line.ofField f.line)) .command
              ++ (spaces (20 - (k + 1)) ++ (s.message ++ spaces 20).take (k + 1)).flatMap
                  (fun c => tx s.params c .character)
              ++ [.wait s.params.tFrame])
          ++ [.done]

/-- R150, R153, R154, R155: ANIM_RIGHT starts from every initialised idle block without a fault. But for its writes of I
and ACC, its steps are the twenty-one frames of the closed form, I from 20 down to 0, each followed by the frame delay;
a message longer than 20 bytes has the clamped frames. -/
def Obligations.AnimRightStarts : Prop :=
  ∀ (f : Fields) (s : State), s.fault = false → s.seq = .idle → s.inited = true →
    ∃ steps,
      exec (.animRight f) s = .next { s with seq := .running 5#4 (encode (.animRight f)) steps }
      ∧ steps.filter MicroStep.isVisible
        = ((List.range 21).flatMap fun k =>
            tx s.params (s.params.lineAddr.get (Line.ofField f.line)) .command
              ++ (if s.message.length ≤ 20 then
                    (spaces 20 ++ s.message).drop (20 + s.message.length - k) ++ spaces (20 - k)
                  else (s.message.drop (20 - k) ++ spaces 20).take 20).flatMap
                  (fun c => tx s.params c .character)
              ++ [.wait s.params.tFrame])
          ++ [.done]

/-- R84, R150, R156, R157: ANIM_DOWN starts from every initialised idle block without a fault with a legal style. But
for its writes of K, its steps write lines 1 to n in order, a blank of the previous line in the cycle (line 4 for line
1) before each where TRAIL = 0, and a frame delay between lines and not after the last. -/
def Obligations.AnimDownStarts : Prop :=
  ∀ (f : Fields) (s : State), s.fault = false → s.seq = .idle → s.inited = true → f.style ≠ 3#2 →
    ∃ steps,
      exec (.animDown f) s = .next { s with seq := .running 6#4 (encode (.animDown f)) steps }
      ∧ steps.filter MicroStep.isVisible
        = ((List.range (min (max f.nlines.toNat 1) 4)).flatMap fun k =>
            (if f.trail then []
              else writeLine s.params [] (if k = 0 then .four else if k = 1 then .one else if k = 2 then .two else .three)
                .left)
              ++ writeLine s.params s.message
                (if k = 0 then .one else if k = 1 then .two else if k = 2 then .three else .four)
                (Style.ofField f.style)
              ++ (if k + 1 < min (max f.nlines.toNat 1) 4 then [.wait s.params.tFrame] else []))
          ++ [.done]

/-! ## The transmitter and time -/

/-- R103, with the levels of R104 and the lines of R105: one transmission, performed without slack from any state, gives
exactly its nine pin events at their times, leaves E low, RS at the mode's level and D at the low nibble, and changes
nothing else. -/
def Obligations.TransmissionTrace : Prop :=
  ∀ (s : State) (op : BitVec 4) (w : Word) (v : Byte) (m : Mode) (rest : List MicroStep),
    s.seq = .running op w (tx s.params v m ++ rest) → s.dly = 0#32 → s.resetPort = false →
    let settle : Tick := s.params.tSettle.setWidth 64
    let pulse : Tick := s.params.tPulse.setWidth 64
    let rs := decide (m = .character)
    runEvents (zeroSlack (tx s.params v m)) s
      = .next { s with
          seq := .running op w rest
          now := s.now + 4#64 * settle + 2#64 * pulse
          pins := { s.pins with
            rs := Level.ofBool rs, e := .lo
            d0 := Level.ofBool (v.getLsbD 0), d1 := Level.ofBool (v.getLsbD 1)
            d2 := Level.ofBool (v.getLsbD 2), d3 := Level.ofBool (v.getLsbD 3) }
          trace :=
            [⟨s.now + 3#64 * settle + 2#64 * pulse, .write (.e false)⟩,
             ⟨s.now + 3#64 * settle + pulse, .write (.e true)⟩,
             ⟨s.now + 2#64 * settle + pulse, .write (.d (v.extractLsb' 0 4))⟩,
             ⟨s.now + 2#64 * settle + pulse, .write (.d 0#4)⟩,
             ⟨s.now + settle + pulse, .write (.e false)⟩,
             ⟨s.now + settle, .write (.e true)⟩,
             ⟨s.now, .write (.d (v.extractLsb' 4 4))⟩,
             ⟨s.now, .write (.d 0#4)⟩,
             ⟨s.now, .write (.rs rs)⟩] ++ s.trace }

/-- R132: the bytes each command sends, two E pulses a byte. -/
def Obligations.BytesPerCommand : Prop :=
  ∀ (p : Params) (msg : List Byte) (f : Fields),
    ePulses (expand p msg (.init f)) = 2 * 6
    ∧ ePulses (expand p msg (.writeLine f)) = 2 * 21
    ∧ ePulses (expand p msg (.clear f)) = 2 * 84
    ∧ ePulses (expand p msg (.shutdown f)) = 2 * 84
    ∧ ePulses (expand p msg (.transmit f)) = 2 * 1

/-- R159: the bytes and the frame delays of the animations, counted where the frame delay can be told from the other
waits. -/
def Obligations.AnimationCounts : Prop :=
  ∀ (p : Params) (msg : List Byte) (f : Fields), p.tFrame ≠ p.tSettle → p.tFrame ≠ p.tPulse →
    let n := min (max f.nlines.toNat 1) 4
    (ePulses (expand p msg (.animLeft f)) = 2 * 420 ∧ (expand p msg (.animLeft f)).count (.wait p.tFrame) = 20)
    ∧ (ePulses (expand p msg (.animRight f)) = 2 * 441 ∧ (expand p msg (.animRight f)).count (.wait p.tFrame) = 21)
    ∧ (f.trail = true →
        ePulses (expand p msg (.animDown f)) = 2 * (21 * n) ∧ (expand p msg (.animDown f)).count (.wait p.tFrame) = n - 1)
    ∧ (f.trail = false →
        ePulses (expand p msg (.animDown f)) = 2 * (42 * n) ∧ (expand p msg (.animDown f)).count (.wait p.tFrame) = n - 1)

/-- R110, R240: the least duration of each command, as the sum of its waits, over the parameters and at the defaults. -/
def Obligations.LeastDurations : Prop :=
  (∀ (p : Params) (msg : List Byte) (f : Fields),
    let b := 4 * p.tSettle.toNat + 2 * p.tPulse.toNat
    let n := min (max f.nlines.toNat 1) 4
    waitTicks (expand p msg (.transmit f)) = b
    ∧ waitTicks (expand p msg (.writeLine f)) = 21 * b
    ∧ waitTicks (expand p msg (.clear f)) = 84 * b
    ∧ waitTicks (expand p msg (.init f)) = 6 * b + p.tReadyOff.toNat + p.tPostInit.toNat
    ∧ waitTicks (expand p msg (.shutdown f)) = 84 * b
    ∧ waitTicks (expand p msg (.animLeft f)) = 20 * (21 * b + p.tFrame.toNat)
    ∧ waitTicks (expand p msg (.animRight f)) = 21 * (21 * b + p.tFrame.toNat)
    ∧ (f.trail = true → waitTicks (expand p msg (.animDown f)) = 21 * b * n + p.tFrame.toNat * (n - 1))
    ∧ (f.trail = false → waitTicks (expand p msg (.animDown f)) = 42 * b * n + p.tFrame.toNat * (n - 1)))
  ∧ ∀ (msg : List Byte) (f : Fields),
    waitTicks (expand .default msg (.transmit f)) = 300
    ∧ waitTicks (expand .default msg (.writeLine f)) = 6300
    ∧ waitTicks (expand .default msg (.clear f)) = 25200
    ∧ waitTicks (expand .default msg (.shutdown f)) = 25200
    ∧ waitTicks (expand .default msg (.init f)) = 1800
    ∧ waitTicks (expand .default msg (.animLeft f)) = 10126000
    ∧ waitTicks (expand .default msg (.animRight f)) = 10632300
    ∧ (f.nlines = 4#3 → waitTicks (expand .default msg (.animDown f)) = if f.trail then 1525200 else 1550400)

/-- R107: in every command, RS and D stand still from T_SETTLE before each rise of E to T_SETTLE after its fall, E is
high for T_PULSE, and low for twice T_SETTLE between two pulses. -/
def Obligations.StrobesKeepTheirTimes : Prop :=
  ∀ (i : Instr) (s t : State), exec i s = .next t → s.seq = .idle →
    strobesTimed s.params (StrobeClock.start s.params) t.steps = true

/-- R100, in every state but an asserted RESET: idle, running and faulted alike. -/
def Obligations.TickAdvancesTime : Prop :=
  ∀ s : State, s.resetPort = false →
    ∃ t, handle .tick s = .next t ∧ t = { s with now := t.now, dly := t.dly }
      ∧ t.now.toNat = (s.now.toNat + 1) % 2 ^ 64
      ∧ (s.dly ≠ 0#32 → t.dly.toNat = s.dly.toNat - 1) ∧ (s.dly = 0#32 → t.dly = 0#32)

/-- R101: `Wait(N)` loads DLY, and from the load to the sequencer's next step at least N ticks pass whatever the agents
do. -/
def Obligations.WaitLastsAtLeastN : Prop :=
  ∀ (s : State) (op : BitVec 4) (w : Word) (n : BitVec 32) (rest : List MicroStep),
    s.seq = .running op w (.wait n :: rest) → s.dly = 0#32 → s.resetPort = false →
    ∃ t, (∀ b, handle (.sequencer b) s = .next t) ∧ t = { s with seq := .running op w rest, dly := n }
      ∧ ∀ (evs : List Event) (u : State), evs.all isAgent = true → runEvents evs t = .next u →
          u.fault = false → u.seq ≠ t.seq → n.toNat ≤ evs.count .tick

/-- R101, R102, R240: no schedule finishes a command in fewer ticks than the sum of its waits. -/
def Obligations.NoCommandIsFasterThanItsWaits : Prop :=
  ∀ (s t : State) (op : BitVec 4) (w : Word) (steps : List MicroStep) (evs : List Event),
    s.seq = .running op w (steps ++ [.done]) → .done ∉ steps → s.resetPort = false →
    evs.all isAgent = true → runEvents evs s = .next t → t.fault = false → t.seq = .idle →
    waitTicks steps ≤ evs.count .tick

/-- R33, R102, R158: every accepted command runs to `Done` on the schedule without slack, sends exactly the pin events
of its list, takes exactly the sum of its waits, keeps the message and ERRCODE, and leaves INITED at 1, but SHUTDOWN at
0. -/
def Obligations.CommandsRunToDone : Prop :=
  ∀ (i : Instr) (s : State), s.fault = false → s.seq = .idle → i.wellFormed = true → s.inited = wantsInited i →
    s.dly = 0#32 → s.resetPort = false →
    ∃ t u, exec i s = .next t ∧ runEvents (zeroSlack (expand s.params s.message i)) t = .next u
      ∧ u.seq = .idle ∧ u.fault = false ∧ u.dly = 0#32 ∧ u.errcode = s.errcode
      ∧ u.sent = s.sent ++ updatesOf (expand s.params s.message i)
      ∧ u.now = s.now + BitVec.ofNat 64 (waitTicks (expand s.params s.message i))
      ∧ u.inited = decide (i.opcode ≠ 7#4) ∧ u.message = s.message

/-- R102: on every schedule that is fair to the tick and to the sequencer, whatever else it lists, a running command
comes to its end, at `Done` or at a GPIO failure. That the order of the agents is a list of events is the model's choice,
log 1. -/
def Obligations.FairSchedulesEndEveryCommand : Prop :=
  ∀ (s : State) (op : BitVec 4) (w : Word) (steps : List MicroStep) (sched : Nat → Event),
    s.seq = .running op w (steps ++ [.done]) → s.resetPort = false →
    fairSchedule sched → (∀ n, isAgent (sched n) = true) →
    ∃ n t, runEvents ((List.range n).map sched) s = .next t ∧ t.busy = false

/-- R60, R61, R158, R175, R211: whatever the order of the agents, and whatever the host does short of another CMD write,
the display pins see a prefix of the running command's events, in order, and the whole list once it is done. -/
def Obligations.ScheduleCannotChangeACommand : Prop :=
  ∀ (s t : State) (op : BitVec 4) (w : Word) (steps : List MicroStep) (evs : List Event),
    s.seq = .running op w (steps ++ [.done]) → .done ∉ steps → s.resetPort = false →
    (∀ v, .write .w32 0x00#7 v ∉ s.program) → evs.all isAgent = true →
    runEvents evs s = .next t → t.fault = false →
    ∃ sent left, steps = sent ++ left
      ∧ t.sentDisplay = s.sentDisplay ++ (updatesOf sent).filter PinUpdate.isDisplay
      ∧ (t.seq = .running op w (left ++ [.done]) ∨ (left = [] ∧ t.seq = .idle))

/-- R61: while BUSY = 1 no agent's step changes the message, and a write to MSG_LEN or MSG_BUF is refused with BUSY. -/
def Obligations.MessageFrozenWhileBusy : Prop :=
  ∀ s : State, s.busy = true →
    (∀ ev t, isAgent ev = true → handle ev s = .next t →
      t.msgBuf = s.msgBuf ∧ t.msgLen = s.msgLen ∧ t.message = s.message)
    ∧ (∀ v, memWrite .w32 0x08#7 v s = .next (s.raiseError .busy))
    ∧ ∀ wd off v, admitted wd off = true → 0x40 ≤ off.toNat → memWrite wd off v s = .next (s.raiseError .busy)

/-- The steps of a run are the events of its schedule, one after the other (R11, R60). -/
def Obligations.StepsFollowTheSchedule : Prop :=
  ∀ (evs rest : List Event) (s : State),
    core.run evs.length { s with schedule := evs ++ rest } = runEvents evs { s with schedule := rest }

/-! ## The toggler -/

/-- R172: the guard is strict and modulo 2^64; an accepted event flips BL_STATE, drives it on BL and stamps BL_LAST;
any other event changes nothing. -/
def Obligations.ToggleRule : Prop :=
  ∀ s : State, s.resetPort = false →
    (s.togEn = true → s.params.tDebounce.toNat < (s.now.toNat + 2 ^ 64 - s.blLast.toNat) % 2 ^ 64 →
      handle (.edge false) s
        = .next { s with
            blState := !s.blState
            pins := { s.pins with bl := if s.blState then .lo else .hi }
            blLast := s.now
            trace := ⟨s.now, .write (.bl (!s.blState))⟩ :: s.trace })
    ∧ (¬ (s.togEn = true ∧ s.params.tDebounce.toNat < (s.now.toNat + 2 ^ 64 - s.blLast.toNat) % 2 ^ 64) →
      ∀ b, handle (.edge b) s = .next s)

/-- R180: after an accepted edge event, every edge event no more than T_DEBOUNCE ticks later is refused, whatever the
agents do meanwhile; so two events that close flip BL_STATE exactly once where the first is accepted, and where both are
refused not at all. -/
def Obligations.SecondEdgeInWindowRefused : Prop :=
  ∀ s : State, s.resetPort = false →
    (s.edgeAccepted = true →
      ∃ t, handle (.edge false) s = .next t ∧ t.blState = !s.blState
        ∧ ∀ (evs : List Event) (u : State), evs.all isAgent = true → runEvents evs t = .next u →
            evs.count .tick ≤ s.params.tDebounce.toNat → ∀ b, handle (.edge b) u = .next u)
    ∧ (s.edgeAccepted = false → ∀ b, handle (.edge b) s = .next s)

/-- R174: an edge event while TOG_EN = 0, or within T_DEBOUNCE of BL_LAST, has no effect and is not remembered; TOG_EN
is 0 after reset, after SHUTDOWN's step 2 and after a GPIO failure. -/
def Obligations.EdgeWithoutEffect : Prop :=
  (∀ s : State, (s.togEn = false ∨ (s.now - s.blLast).toNat ≤ s.params.tDebounce.toNat) →
    ∀ b, handle (.edge b) s = .next s)
  ∧ State.reset.togEn = false
  ∧ ∀ s : State, s.backlightOff.togEn = false ∧ s.gpioFailure.togEn = false ∧ s.enterReset.togEn = false

/-- R175: an edge event that meets no failure changes BL_STATE, BL_LAST and the BL pin at most, and does the same whatever
command runs or none; and the sequencer's step neither reads BL_STATE nor BL_LAST. -/
def Obligations.TogglerAndSequencerIndependent : Prop :=
  (∀ s t : State, handle (.edge false) s = .next t →
    t = { s with blState := t.blState, blLast := t.blLast, pins := { s.pins with bl := t.pins.bl }, trace := t.trace }
    ∧ t.sentDisplay = s.sentDisplay ∧ t.busy = s.busy
    ∧ ∀ q : Seq, handle (.edge false) { s with seq := q } = .next { t with seq := q })
  ∧ ∀ (s t : State) (b x : Bool) (y : Tick), sequencerStep b s = .next t →
    ∃ u, sequencerStep b { s with blState := x, blLast := y } = .next u
      ∧ u = { t with blState := u.blState, blLast := u.blLast }

/-- R128, R130, R212: TOG_EN and INITED change only at the steps of INIT and SHUTDOWN that name them, or, TOG_EN, at a
GPIO failure (R24, R32, R62). -/
def Obligations.LifecycleBitsChangeOnlyAtTheirSteps : Prop :=
  ∀ (s t : State) (ev : Event), isAgent ev = true → handle ev s = .next t →
    (t.inited ≠ s.inited → ∃ b op w x rest, ev = .sequencer b ∧ s.seq = .running op w (.setInited x :: rest))
    ∧ (t.togEn ≠ s.togEn →
        (∃ b op w m rest, ev = .sequencer b ∧ s.seq = .running op w (m :: rest)
          ∧ (m = .backlightReady ∨ m = .backlightOff))
        ∨ ((ev = .sequencer true ∨ ev = .edge true) ∧ t.fault = true ∧ t.togEn = false))

/-! ## Errors and failures -/

/-- R212: a failing pin, configure or release step of the sequencer, and a failing pin write of the toggler, set FAULT,
record GPIO_FAIL, abort the command and disarm the toggler, with no pin event; INITED, MSG_LEN and MSG_BUF keep their
values. A micro-step that is none of these cannot fail. Nothing is said of the pins' levels. -/
def Obligations.GpioFailureAborts : Prop :=
  (∀ (s : State) (op : BitVec 4) (w : Word) (m : MicroStep) (rest : List MicroStep),
    s.seq = .running op w (m :: rest) → s.dly = 0#32 → s.resetPort = false →
    ((∃ x, m = .pin x) ∨ m = .configurePins ∨ m = .backlightReady ∨ m = .backlightOff ∨ m = .releasePins →
      ∃ t, handle (.sequencer true) s = .next t ∧ t.fault = true ∧ t.seq = .idle ∧ t.togEn = false
        ∧ t.errcode = (if s.errcode = .noError then .gpioFail else s.errcode)
        ∧ t.inited = s.inited ∧ t.msgLen = s.msgLen ∧ t.msgBuf = s.msgBuf ∧ t.trace = s.trace
        ∧ t.blState = s.blState ∧ t.blLast = s.blLast ∧ t.pincfg = s.pincfg ∧ t.now = s.now ∧ t.dly = s.dly)
    ∧ ((∃ n, m = .wait n) ∨ (∃ b, m = .setInited b) ∨ (∃ i, m = .setI i) ∨ (∃ k, m = .setK k) ∨ (∃ a, m = .setAcc a)
        ∨ m = .done →
      handle (.sequencer true) s = handle (.sequencer false) s))
  ∧ ∀ s : State, s.edgeAccepted = true → s.resetPort = false →
    ∃ t, handle (.edge true) s = .next t ∧ t.fault = true ∧ t.seq = .idle ∧ t.togEn = false
      ∧ t.errcode = (if s.errcode = .noError then .gpioFail else s.errcode)
      ∧ t.inited = s.inited ∧ t.msgLen = s.msgLen ∧ t.msgBuf = s.msgBuf ∧ t.trace = s.trace

/-- R213: while FAULT = 1 every CMD write is refused with FAULTED, edge events do nothing, the tick goes on, reads and
writes to anything but CMD work as on a block without the fault, MSG writes among them, and nothing but asserting RESET
clears FAULT. -/
def Obligations.FaultedBlock : Prop :=
  ∀ s : State, s.fault = true → s.Inv →
    (∀ w, acceptCommand w s = .next { s with errcode := if s.errcode = .noError then .faulted else s.errcode })
    ∧ (∀ b, handle (.edge b) s = .next s)
    ∧ (s.resetPort = false → handle .tick s = .next s.tick)
    ∧ (∀ wd off, off ≠ 0x04#7 → s.memRead wd off = { s with fault := false }.memRead wd off)
    ∧ (∀ wd off v, off ≠ 0x00#7 → ∃ t, memWrite wd off v s = .next t
        ∧ memWrite wd off v { s with fault := false } = .next { t with fault := false })
    ∧ (∀ v, v.toNat ≤ 64 → memWrite .w32 0x08#7 v s = .next { s with msgLen := v.setWidth 7 })
    ∧ (∀ wd off v, admitted wd off = true → 0x40 ≤ off.toNat →
        memWrite wd off v s = .next { s with msgBuf := s.msgBuf.writeLE off.toNat v wd.bytes })
    ∧ (∀ ev t, ev ≠ .setReset true → handle ev s = .next t → t.fault = true)
    ∧ ∃ t, handle (.setReset true) s = .next t ∧ t.fault = false

/-- R26, R207, R208: ERRCODE keeps its first error: an agent's step changes it only from NONE, or to NONE by a STATUS
write with bit 8 set. -/
def Obligations.FirstErrorKept : Prop :=
  ∀ (s t : State) (ev : Event), isAgent ev = true → handle ev s = .next t → t.errcode ≠ s.errcode →
    s.errcode = .noError
    ∨ (t.errcode = .noError ∧ ev = .host ∧ ∃ v rest, s.program = .write .w32 0x04#7 v :: rest ∧ v.getLsbD 8 = true)

/-- R22: each field of STATUS is where the table puts it, the reserved bits and ERRCLR read 0, and a write acts through
bit 8 alone; all of it resets to 0. -/
def Obligations.StatusFields : Prop :=
  State.reset.status = 0#32 ∧ ∀ s : State,
    s.memRead .w32 0x04#7 = s.status
    ∧ s.status.getLsbD 0 = s.busy ∧ s.status.getLsbD 1 = s.inited ∧ s.status.getLsbD 2 = s.fault
    ∧ s.status.getLsbD 3 = s.blState ∧ s.status.extractLsb' 4 4 = s.errcode.code ∧ s.status.getLsbD 8 = false
    ∧ s.status.getLsbD 9 = s.togEn ∧ s.status.extractLsb' 10 2 = 0#2
    ∧ s.status.extractLsb' 12 4 = (match s.seq with | .idle => 0#4 | .running op _ _ => op)
    ∧ s.status.extractLsb' 16 16 = 0#16
    ∧ ∀ v, memWrite .w32 0x04#7 v s = .next { s with errcode := if v.getLsbD 8 then .noError else s.errcode }

/-! ## The register window -/

/-- R52, R53, R57, R206: an access of a width or an alignment not admitted is refused before anything else, a read
giving 0 and a write changing only ERRCODE; an admitted read has no side effect. -/
def Obligations.BadAccessRefused : Prop :=
  ∀ (wd : Width) (off : Offset) (s : State),
    ((off.toNat % wd.bytes ≠ 0 ∨ (off.toNat < 0x40 ∧ wd ≠ .w32)) →
      s.memRead wd off = 0#32
      ∧ s.afterRead wd off = { s with errcode := if s.errcode = .noError then .badAccess else s.errcode }
      ∧ ∀ v, memWrite wd off v s
          = .next { s with errcode := if s.errcode = .noError then .badAccess else s.errcode })
    ∧ (off.toNat % wd.bytes = 0 → (0x40 ≤ off.toNat ∨ wd = .w32) → s.afterRead wd off = s)

/-- R54, R56: a write to MSG_BUF on an idle block puts the bytes of the value at its offsets, the low byte lowest, and
changes no other byte and no other state; the same access reads it back. -/
def Obligations.MessageBufferWrite : Prop :=
  ∀ (wd : Width) (off : Offset) (v : Word) (s : State),
    s.msgBuf.wf = true → s.seq = .idle → off.toNat % wd.bytes = 0 → 0x40 ≤ off.toNat →
    ∃ t, memWrite wd off v s = .next t ∧ t = { s with msgBuf := t.msgBuf }
      ∧ (∀ j, j < wd.bytes → t.msgBuf.readByte (off.toNat + j) = v.extractLsb' (8 * j) 8)
      ∧ (∀ a, a < off.toNat ∨ off.toNat + wd.bytes ≤ a → t.msgBuf.readByte a = s.msgBuf.readByte a)
      ∧ (t.memRead wd off).toNat = v.toNat % 2 ^ (8 * wd.bytes)

/-- R204: the checks of a MSG_LEN and a MSG_BUF write in their order; FAULT refuses neither. -/
def Obligations.MessageWriteChecks : Prop :=
  (∀ (wd : Width) (v : Word) (s : State),
    (wd ≠ .w32 → memWrite wd 0x08#7 v s = .next (s.raiseError .badAccess))
    ∧ (s.busy = true → memWrite .w32 0x08#7 v s = .next (s.raiseError .busy))
    ∧ (s.busy = false → 64 < v.toNat → memWrite .w32 0x08#7 v s = .next (s.raiseError .lenRange))
    ∧ (s.busy = false → v.toNat ≤ 64 →
        memWrite .w32 0x08#7 v s = .next { s with msgLen := v.setWidth 7 }
        ∧ { s with msgLen := v.setWidth 7 }.memRead .w32 0x08#7 = v))
  ∧ ∀ (wd : Width) (off : Offset) (v : Word) (s : State), 0x40 ≤ off.toNat →
    (off.toNat % wd.bytes ≠ 0 → memWrite wd off v s = .next (s.raiseError .badAccess))
    ∧ (off.toNat % wd.bytes = 0 → s.busy = true → memWrite wd off v s = .next (s.raiseError .busy))
    ∧ (off.toNat % wd.bytes = 0 → s.busy = false →
        memWrite wd off v s = .next { s with msgBuf := s.msgBuf.writeLE off.toNat v wd.bytes })

/-- R58: reserved offsets read 0 and ignore a write, with no error. -/
def Obligations.ReservedOffsets : Prop :=
  ∀ (off : Offset) (v : Word) (s : State), 0x0C ≤ off.toNat → off.toNat < 0x40 → off.toNat % 4 = 0 →
    s.memRead .w32 off = 0#32 ∧ s.afterRead .w32 off = s ∧ memWrite .w32 off v s = .next s

/-! ## Reset, the invariant, the parameters -/

/-- R230, R231: asserting RESET puts every piece of state at its value of R39 at once, in the middle of a command too,
with no pin event; I, K and ACC, for which R39 gives none, take the values of log 5. -/
def Obligations.ResetAtOnce : Prop :=
  ∀ s : State, s.resetPort = false →
    ∃ t, handle (.setReset true) s = .next t
      ∧ t.seq = .idle ∧ t.status = 0#32 ∧ t.msgLen = 0#7 ∧ (∀ a, t.msgBuf.readByte a = 0#8) ∧ t.now = 0#64
      ∧ t.dly = 0#32 ∧ t.blState = false ∧ t.blLast = 0#64 ∧ t.togEn = false ∧ t.inited = false ∧ t.fault = false
      ∧ t.errcode = .noError ∧ t.pincfg = .released
      ∧ t.pins = { rs := .z, e := .z, d0 := .z, d1 := .z, d2 := .z, d3 := .z, bl := .z } ∧ t.trace = s.trace
      ∧ ∀ ev u, isAgent ev = true → handle ev t = .next u → u = t

/-- The state after reset meets the invariant. What it holds there of BTN_CFG (absent) is the model's choice (log 9, and
log 17 for the pull setting), and so is that ACC is short enough (log 5): R39 gives neither a value. -/
def Obligations.ResetMeetsInvariant : Prop := State.reset.Inv

/-- R24, R27, R32, R33, R34, R36, R173, R230: from every state that meets the invariant, a step gives one that meets
it, whatever the schedule, the host, the environment and the parameters. What it holds of I, K and ACC in RESET is log
5's, of BTN_CFG logs 9's and 17's. -/
def Obligations.StepKeepsInvariant : Prop :=
  ∀ s t : State, s.Inv → step s = .next t → t.Inv

/-- R12, R60: from every state that meets the invariant a step answers a next state: no access, no command and no event
stops the machine. -/
def Obligations.InvariantNeverStops : Prop :=
  ∀ s : State, s.Inv → ∃ t, step s = .next t

/-- R27: MSG_BUF's canonical form and the bound on MSG_LEN are kept by every step on their own. -/
def Obligations.MessageFormKept : Prop :=
  ∀ s t : State, s.msgBuf.wf = true → s.msgLen.toNat ≤ 64 → step s = .next t →
    t.msgBuf.wf = true ∧ t.msgLen.toNat ≤ 64

/-- R6: no step changes a parameter. -/
def Obligations.ParametersFixed : Prop :=
  ∀ s t : State, step s = .next t → t.params = s.params

/-! ## The display -/

/-- R122: the properties of `justify`. -/
def Obligations.JustifyProperties : Prop :=
  ∀ (s : List Byte) (style : Style),
    (justify s style).length = 20
    ∧ (s.length ≤ 20 →
        s <+: justify s .left ∧ s <:+ justify s .right
        ∧ justify s .center
          = List.replicate ((20 - s.length) / 2) 0x20#8 ++ s
            ++ List.replicate (20 - s.length - (20 - s.length) / 2) 0x20#8)
    ∧ (20 < s.length → justify s style = s.take 20)
    ∧ justify [] style = List.replicate 20 0x20#8

/-- R70 to R75, R123 (the receiver is the spec's reference model, log 12): the pin events of a line, given to a receiver
between two bytes, put the justified text in that row, leave every other DDRAM byte, and leave the receiver between two
bytes. For a row that runs past DDRAM[127], which R75 does not give, the row wraps by the model's choice (log 18). -/
def Obligations.WriteLineShowsItsRow : Prop :=
  ∀ (p : Params) (s : List Byte) (line : Line) (style : Style) (r : Receiver),
    (p.lineAddr.get line).getLsbD 7 = true → r.configured = true → r.e = false → r.half = none →
    let r' := r.feedAll (updatesOf (writeLine p s line style))
    r'.row p line = justify s style
    ∧ (∀ a, (∀ j, j < 20 → a ≠ rowBase p line + BitVec.ofNat 7 j) → r'.ddram a = r.ddram a)
    ∧ r'.configured = true ∧ r'.e = false ∧ r'.half = none

/-- R75: the rows of the default LINE_ADDR and that they lie apart, and where rows lie apart a line written to one
changes no other. A row past DDRAM[127] wraps by the model's choice (log 18). -/
def Obligations.RowsLieApart : Prop :=
  rowBase .default .one = 0x00#7 ∧ rowBase .default .two = 0x40#7 ∧ rowBase .default .three = 0x14#7
    ∧ rowBase .default .four = 0x54#7 ∧ rowsApart Params.default
    ∧ ∀ (p : Params) (s : List Byte) (line other : Line) (style : Style) (r : Receiver),
      rowsApart p → other ≠ line → r.configured = true → r.e = false → r.half = none →
      (r.feedAll (updatesOf (writeLine p s line style))).row p other = r.row p other

/-- R125, R126: the pin events of `clear()` leave all four rows blank, in the receiver of log 12. A row past DDRAM[127]
wraps by the model's choice (log 18). -/
def Obligations.ClearBlanksTheDisplay : Prop :=
  ∀ (p : Params) (r : Receiver) (line : Line), rowsApart p → r.configured = true → r.e = false → r.half = none →
    (r.feedAll (updatesOf (clearLines p))).row p line = List.replicate 20 0x20#8

/-- R128, R129, R177: INIT run to its end without slack: STATUS, the toggler's state, the pins and the ports it leaves,
and with the default INIT_SEQ a blank display whatever the receiver held. -/
def Obligations.InitRun : Prop :=
  ∀ (f : Fields) (s : State), s.fault = false → s.seq = .idle → s.inited = false → s.dly = 0#32 →
    s.resetPort = false →
    ∃ t u, exec (.init f) s = .next t ∧ runEvents (zeroSlack (expand s.params s.message (.init f))) t = .next u
      ∧ (s.errcode = .noError → u.status = 0x0000020A#32)
      ∧ u.inited = true ∧ u.blState = true ∧ u.togEn = true
      ∧ u.blLast = s.now + s.params.tReadyOff.setWidth 64
      ∧ u.pincfg = .configured ∧ u.pins.bl = .hi ∧ u.pins.e = .lo
      ∧ u.btnCfg = some { pull := s.params.btnPull, debounceMs := 700 }
      ∧ u.msgBuf = s.msgBuf ∧ u.msgLen = s.msgLen
      ∧ (s.params.initSeq = Params.default.initSeq →
          u.receiver.ac = 0#7 ∧ ∀ line, u.receiver.row s.params line = List.replicate 20 0x20#8)

/-- R130, R131, R178: SHUTDOWN run to its end without slack: STATUS is 0, the backlight is off whatever it was, every
pin is released, the edge source is disarmed (that its pull setting goes with it is the model's choice, log 17), and the
message stays. -/
def Obligations.ShutdownRun : Prop :=
  ∀ (f : Fields) (s : State), s.fault = false → s.seq = .idle → s.inited = true → s.dly = 0#32 →
    s.resetPort = false →
    ∃ t u, exec (.shutdown f) s = .next t ∧ runEvents (zeroSlack (expand s.params s.message (.shutdown f))) t = .next u
      ∧ (s.errcode = .noError → u.status = 0#32)
      ∧ u.inited = false ∧ u.blState = false ∧ u.togEn = false ∧ u.pincfg = .released
      ∧ u.pins = { rs := .z, e := .z, d0 := .z, d1 := .z, d2 := .z, d3 := .z, bl := .z } ∧ u.btnCfg = none
      ∧ u.msgBuf = s.msgBuf ∧ u.msgLen = s.msgLen

/-! ## Host programs -/

/-- R94: the assembler gives a word exactly for the operands it admits, and refuses every other; its words are commands
of the opcode it names with the operands as written, with no reserved bit set and no STYLE = 3. -/
def Obligations.AssembledWordsDecode : Prop :=
  (∀ c : AsmCommand, (∃ w, assemble c = some w) ↔
    match c with
    | .init _ => True
    | .wline l _ => 1 ≤ l ∧ l ≤ 4
    | .clear => True
    | .aleft l => 1 ≤ l ∧ l ≤ 4
    | .aright l => 1 ≤ l ∧ l ≤ 4
    | .adown _ _ n => n.getD 4 ≤ 7
    | .shutdown => True
    | .tx b _ => b < 256)
  ∧ ∀ (c : AsmCommand) (w : Word), assemble c = some w →
    ∃ i, decode w = .ok i ∧
      match c, i with
      | .init a, .init f => f.autocfg = a
      | .wline l st, .writeLine f => (Line.ofField f.line).number = l ∧ Style.ofField f.style = st
      | .clear, .clear _ => True
      | .aleft l, .animLeft f => (Line.ofField f.line).number = l
      | .aright l, .animRight f => (Line.ofField f.line).number = l
      | .adown st tr n, .animDown f => Style.ofField f.style = st ∧ f.trail = tr ∧ f.nlines.toNat = n.getD 4
      | .shutdown, .shutdown _ => True
      | .tx b m, .transmit f => f.value.toNat = b ∧ f.mode = m
      | _, _ => False

/-- R27, R95, R96: the host's `msg` line, performed on an idle block, makes its text the current message, leaves every
byte of MSG_BUF past the text, and changes nothing else of the block. -/
def Obligations.MsgLineSetsTheMessage : Prop :=
  ∀ (text : List Byte) (s : State) (ops rest : List HostOp),
    AsmLine.expand (.msg text) = some ops → s.program = ops ++ rest → s.msgBuf.wf = true → s.seq = .idle →
    s.resetPort = false →
    ∃ t, runEvents (List.replicate ops.length .host) s = .next t ∧ t.message = text
      ∧ (∀ a, a < 0x40 ∨ 0x40 + text.length ≤ a → t.msgBuf.readByte a = s.msgBuf.readByte a)
      ∧ t = { s with msgBuf := t.msgBuf, msgLen := t.msgLen, program := rest }

/-- R63, R96: `sync` lets the host go on exactly when BUSY = 0, and each of its reads is an observation. -/
def Obligations.SyncWaitsForBusy : Prop :=
  ∀ (s : State) (rest : List HostOp), s.program = syncOp :: rest → s.resetPort = false →
    ∃ t, handle .host s = .next t ∧ t = { s with program := t.program, observed := s.status :: s.observed }
      ∧ (s.busy = false → t.program = rest) ∧ (s.busy = true → t.program = s.program)
end

