-- ==== Sys2Proof/Laws/Decode.lean ====
section
/-! SUPPORT. The bits of a packed word, its fields, and a word packed again from its fields. -/
namespace Sys2Proof

@[simp] theorem ofBit_toBit (m : Mode) : Mode.ofBit m.toBit = m := by cases m <;> rfl

@[simp] theorem toBit_ofBit (b : Bool) : (Mode.ofBit b).toBit = b := by cases b <;> rfl

theorem getLsbD_place {n : Nat} (k i : Nat) (b : BitVec n) :
    (place k b).getLsbD i = (decide (i < 32) && decide (k ≤ i) && b.getLsbD (i - k)) := by
  rw [place, BitVec.getLsbD_shiftLeft, BitVec.getLsbD_setWidth]
  by_cases h : i < 32
  · simp [h, show i - k < 32 by omega]
    by_cases h' : k ≤ i
    · simp [h', show ¬ i < k by omega]
    · simp [h', show i < k by omega]
  · simp [h]

/-- Which bit of which field a bit of the word is (R81). -/
theorem getLsbD_pack (op : BitVec 4) (f : Fields) (i : Nat) : (pack op f).getLsbD i =
    if i < 4 then op.getLsbD i
    else if i < 6 then f.line.getLsbD (i - 4)
    else if i < 8 then f.style.getLsbD (i - 6)
    else if i = 8 then f.trail
    else if i < 12 then f.nlines.getLsbD (i - 9)
    else if i = 12 then f.mode.toBit
    else if i = 13 then f.autocfg
    else if i < 16 then false
    else f.value.getLsbD (i - 16) := by
  simp only [pack, BitVec.getLsbD_or, getLsbD_place, BitVec.getLsbD_ofBool]
  rcases Nat.lt_or_ge i 24 with h | h
  · interval_cases i <;> simp
  · have h8 : i ≠ 8 := by omega
    have h12 : i ≠ 12 := by omega
    have h13 : i ≠ 13 := by omega
    simp (disch := omega) [h8, h12, h13, show i - 13 ≠ 0 by omega, show i - 12 ≠ 0 by omega, show i - 8 ≠ 0 by omega]


variable (op : BitVec 4) (f : Fields)

theorem opField_pack : opField (pack op f) = op := by
  ext k hk
  simp [opField, getLsbD_pack, hk]

theorem fieldsOf_pack : fieldsOf (pack op f) = f := by
  have hline : (pack op f).extractLsb' 4 2 = f.line := by
    refine BitVec.eq_of_getLsbD_eq fun k hk => ?_
    rw [BitVec.getLsbD_extractLsb', getLsbD_pack]
    interval_cases k <;> simp
  have hstyle : (pack op f).extractLsb' 6 2 = f.style := by
    refine BitVec.eq_of_getLsbD_eq fun k hk => ?_
    rw [BitVec.getLsbD_extractLsb', getLsbD_pack]
    interval_cases k <;> simp
  have hnlines : (pack op f).extractLsb' 9 3 = f.nlines := by
    refine BitVec.eq_of_getLsbD_eq fun k hk => ?_
    rw [BitVec.getLsbD_extractLsb', getLsbD_pack]
    interval_cases k <;> simp
  have hvalue : (pack op f).extractLsb' 16 8 = f.value := by
    refine BitVec.eq_of_getLsbD_eq fun k hk => ?_
    rw [BitVec.getLsbD_extractLsb', getLsbD_pack]
    interval_cases k <;> simp
  rw [fieldsOf, hline, hstyle, hnlines, hvalue, getLsbD_pack, getLsbD_pack, getLsbD_pack]
  simp

theorem reservedClear_pack : reservedClear (pack op f) = true := by
  have h1 : (pack op f).extractLsb' 14 2 = 0#2 := by
    refine BitVec.eq_of_getLsbD_eq fun k hk => ?_
    rw [BitVec.getLsbD_extractLsb', getLsbD_pack]
    interval_cases k <;> simp
  have h2 : (pack op f).extractLsb' 24 8 = 0#8 := by
    refine BitVec.eq_of_getLsbD_eq fun k hk => ?_
    rw [BitVec.getLsbD_extractLsb', getLsbD_pack]
    interval_cases k <;> simp
  simp [reservedClear, h1, h2]

/-- A word with clear reserved bits is its opcode and its fields, packed. -/
theorem pack_fieldsOf (w : Word) (h : reservedClear w = true) : pack (opField w) (fieldsOf w) = w := by
  simp only [reservedClear, Bool.and_eq_true, beq_iff_eq] at h
  have h14 : ∀ k, k < 2 → w.getLsbD (14 + k) = false := fun k hk => by
    have := congrArg (fun b : BitVec 2 => b.getLsbD k) h.1
    rwa [BitVec.getLsbD_extractLsb', BitVec.getLsbD_zero, decide_eq_true hk, Bool.true_and] at this
  have h24 : ∀ k, k < 8 → w.getLsbD (24 + k) = false := fun k hk => by
    have := congrArg (fun b : BitVec 8 => b.getLsbD k) h.2
    rwa [BitVec.getLsbD_extractLsb', BitVec.getLsbD_zero, decide_eq_true hk, Bool.true_and] at this
  have hreserved : ∀ i, i < 32 → (i = 14 ∨ i = 15 ∨ 24 ≤ i) → w.getLsbD i = false := by
    rintro i hi (rfl | rfl | h)
    · exact h14 0 (by omega)
    · exact h14 1 (by omega)
    · have := h24 (i - 24) (by omega)
      rwa [show 24 + (i - 24) = i by omega] at this
  refine BitVec.eq_of_getLsbD_eq fun i hi => ?_
  rw [getLsbD_pack]
  by_cases hr : i = 14 ∨ i = 15 ∨ 24 ≤ i
  · rw [hreserved i hi hr]
    have : 14 ≤ i := by omega
    rcases hr with rfl | rfl | h
    · rfl
    · rfl
    · simp [show ¬ i < 4 by omega, show ¬ i < 6 by omega, show ¬ i < 8 by omega, show i ≠ 8 by omega,
        show ¬ i < 12 by omega, show i ≠ 12 by omega, show i ≠ 13 by omega, show ¬ i < 16 by omega,
        BitVec.getLsbD_of_ge _ (i - 16) (show 8 ≤ i - 16 by omega)]
  · simp only [not_or, Nat.not_le] at hr
    obtain ⟨hr14, hr15, hr24⟩ := hr
    simp only [opField, fieldsOf, BitVec.getLsbD_extractLsb', toBit_ofBit]
    interval_cases i <;> simp_all

/-- An opcode that names a command names it for the same fields. -/
theorem instrOf_eq_some (op : BitVec 4) (f : Fields) (i : Instr) (h : instrOf op f = some i) :
    i.opcode = op ∧ i.fields = f := by
  have hop : op = BitVec.ofNat 4 op.toNat := by simp
  unfold instrOf at h
  split at h <;> simp_all [Instr.opcode, Instr.fields] <;> subst h <;> simp_all

theorem instrOf_opcode (i : Instr) : instrOf i.opcode i.fields = some i := by cases i <;> rfl

/-- What a word that decodes to a command is. -/
theorem decode_eq_ok (w : Word) (i : Instr) (h : decode w = .ok i) :
    instrOf (opField w) (fieldsOf w) = some i ∧ reservedClear w = true ∧ i.wellFormed = true := by
  unfold decode at h
  split at h <;> simp_all
  split at h <;> simp_all
  split at h <;> simp_all

end Sys2Proof
end

