-- ==== Sys2Proof/Laws/Memory.lean ====
section
/-! SUPPORT. MSG_BUF: reading after writing, and the canonical form that every operation keeps. -/

namespace Sys2Proof.Machine

theorem readByte_consCell (a i : Nat) (b : Byte) (m : Memory) (h : i = a → m.readByte a = Memory.unlisted ∨ b ≠ Memory.unlisted) :
    (Memory.consCell a b m).readByte i = if i = a then b else m.readByte i := by
  unfold Memory.consCell
  split
  · by_cases hi : i = a
    · subst hi
      rcases h rfl with h | h <;> simp_all
    · simp [hi]
  · simp only [Memory.readByte, eq_comm]

/-- In a canonical memory from `lo` on, an offset below `lo` is not listed. -/
theorem readByte_below (m : Memory) (lo i : Nat) (hm : m.wfFrom lo = true) (hi : i < lo) :
    m.readByte i = Memory.unlisted := by
  induction m generalizing lo with
  | nil => rfl
  | cons c m ih =>
    obtain ⟨k, b⟩ := c
    simp only [Memory.wfFrom, Bool.and_eq_true, decide_eq_true_eq] at hm
    have hk : k ≠ i := by omega
    simp [Memory.readByte, hk, ih (k + 1) hm.2 (by omega)]

theorem wfFrom_mono (m : Memory) (lo lo' : Nat) (h : lo' ≤ lo) (hm : m.wfFrom lo = true) : m.wfFrom lo' = true := by
  cases m with
  | nil => rfl
  | cons c m =>
    obtain ⟨k, b⟩ := c
    simp only [Memory.wfFrom, Bool.and_eq_true, decide_eq_true_eq] at hm ⊢
    exact ⟨⟨⟨by omega, hm.1.1.2⟩, hm.1.2⟩, hm.2⟩

theorem readByte_writeByte (m : Memory) (lo a i : Nat) (b : Byte) (hm : m.wfFrom lo = true) :
    (m.writeByte a b).readByte i = if i = a then b else m.readByte i := by
  induction m generalizing lo with
  | nil => exact readByte_consCell a i b [] (fun _ => .inl rfl)
  | cons c m ih =>
    obtain ⟨k, v⟩ := c
    have hm' := hm
    simp only [Memory.wfFrom, Bool.and_eq_true, decide_eq_true_eq] at hm'
    have hlow : ∀ j, j < k + 1 → Memory.readByte j m = Memory.unlisted := fun j hj => readByte_below m (k + 1) j hm'.2 hj
    unfold Memory.writeByte
    split
    · exact readByte_consCell a i b _ (fun _ => .inl (by
        have hka : ¬ k = a := by omega
        simp [Memory.readByte, hka, hlow a (by omega)]))
    · split
      · subst_vars
        rw [readByte_consCell _ i b m (fun _ => .inl (hlow _ (by omega)))]
        split
        · rfl
        · simp only [Memory.readByte]
          split
          · omega
          · rfl
      · simp only [Memory.readByte, ih (k + 1) hm'.2]
        by_cases hki : k = i
        · have : ¬ i = a := by omega
          simp [hki, this]
        · simp [hki]

theorem wfFrom_consCell (m : Memory) (lo a : Nat) (b : Byte) (hlo : lo ≤ a) (ha : a < windowEnd)
    (hm : m.wfFrom (a + 1) = true) : (Memory.consCell a b m).wfFrom lo = true := by
  unfold Memory.consCell
  split
  · exact wfFrom_mono m (a + 1) lo (by omega) hm
  · simp_all [Memory.wfFrom]

theorem wfFrom_writeByte (m : Memory) (lo a : Nat) (b : Byte) (hlo : lo ≤ a) (ha : a < windowEnd)
    (hm : m.wfFrom lo = true) : (m.writeByte a b).wfFrom lo = true := by
  induction m generalizing lo with
  | nil => exact wfFrom_consCell [] lo a b hlo ha rfl
  | cons c m ih =>
    obtain ⟨k, v⟩ := c
    have hm' := hm
    simp only [Memory.wfFrom, Bool.and_eq_true, decide_eq_true_eq] at hm'
    unfold Memory.writeByte
    split
    · refine wfFrom_consCell _ lo a b hlo ha ?_
      simp only [Memory.wfFrom, Bool.and_eq_true, decide_eq_true_eq]
      exact ⟨⟨⟨by omega, hm'.1.1.2⟩, hm'.1.2⟩, hm'.2⟩
    · split
      · subst_vars
        exact wfFrom_consCell m lo _ b hlo ha hm'.2
      · simp only [Memory.wfFrom, Bool.and_eq_true, decide_eq_true_eq]
        exact ⟨hm'.1, ih (k + 1) (by omega) hm'.2⟩

/-- A byte write inside MSG_BUF keeps the canonical form. -/
theorem wf_writeByte (m : Memory) (a : Nat) (b : Byte) (hlo : msgBase ≤ a) (ha : a < windowEnd) (hm : m.wf = true) :
    (m.writeByte a b).wf = true := wfFrom_writeByte m msgBase a b hlo ha hm

/-- A wide write inside MSG_BUF keeps the canonical form. -/
theorem wf_writeLE (n : Nat) (m : Memory) (a : Nat) (v : Word) (hlo : msgBase ≤ a) (ha : a + n ≤ windowEnd)
    (hm : m.wf = true) : (m.writeLE a v n).wf = true := by
  induction n generalizing m a v with
  | zero => exact hm
  | succ n ih =>
    exact ih (m.writeByte a (v.setWidth 8)) (a + 1) (v >>> 8) (by omega) (by omega)
      (wf_writeByte m a _ hlo (by omega) hm)

/-- A wide write leaves every byte outside it. -/
theorem readByte_writeLE_outside (n : Nat) (m : Memory) (a i : Nat) (v : Word) (hlo : msgBase ≤ a)
    (ha : a + n ≤ windowEnd) (hm : m.wf = true) (hi : i < a ∨ a + n ≤ i) :
    (m.writeLE a v n).readByte i = m.readByte i := by
  induction n generalizing m a v with
  | zero => rfl
  | succ n ih =>
    unfold Memory.writeLE
    rw [ih (m.writeByte a (v.setWidth 8)) (a + 1) (v >>> 8) (by omega) (by omega)
      (wf_writeByte m a _ hlo (by omega) hm) (by omega)]
    rw [readByte_writeByte m msgBase a i _ hm]
    have : ¬ i = a := by omega
    simp [this]

/-- A wide write puts bits 8j+7:8j at offset a + j. -/
theorem readByte_writeLE_inside (n : Nat) (m : Memory) (a j : Nat) (v : Word) (hlo : msgBase ≤ a)
    (ha : a + n ≤ windowEnd) (hm : m.wf = true) (hj : j < n) :
    (m.writeLE a v n).readByte (a + j) = v.extractLsb' (8 * j) 8 := by
  induction n generalizing m a v j with
  | zero => omega
  | succ n ih =>
    unfold Memory.writeLE
    have hm' := wf_writeByte m a (v.setWidth 8) hlo (by omega) hm
    cases j with
    | zero =>
      rw [Nat.add_zero, readByte_writeLE_outside n _ (a + 1) a _ (by omega) (by omega) hm' (by omega),
        readByte_writeByte m msgBase a a _ hm]
      ext k hk
      simp
    | succ j =>
      have h := ih (m.writeByte a (v.setWidth 8)) (a + 1) j (v >>> 8) (by omega) (by omega) hm' (by omega)
      rw [show a + (j + 1) = a + 1 + j by omega, h]
      ext k hk
      simp only [BitVec.getElem_extractLsb', BitVec.getLsbD_ushiftRight]
      congr 1
      omega

@[simp] theorem reset_msgBuf_wf : State.reset.msgBuf.wf = true := rfl

end Sys2Proof.Machine
end

