-- ==== Sys2Proof/Laws/State.lean ====
section
/-! SUPPORT. The named updates of State, field by field: what each gives a field, and every field it leaves. -/

namespace Sys2Proof.Machine

variable (s : State)

@[simp] theorem drive_seq (u : PinUpdate) : (s.drive u).seq = s.seq := rfl
@[simp] theorem drive_inited (u : PinUpdate) : (s.drive u).inited = s.inited := rfl
@[simp] theorem drive_fault (u : PinUpdate) : (s.drive u).fault = s.fault := rfl
@[simp] theorem drive_errcode (u : PinUpdate) : (s.drive u).errcode = s.errcode := rfl
@[simp] theorem drive_msgLen (u : PinUpdate) : (s.drive u).msgLen = s.msgLen := rfl
@[simp] theorem drive_msgBuf (u : PinUpdate) : (s.drive u).msgBuf = s.msgBuf := rfl
@[simp] theorem drive_now (u : PinUpdate) : (s.drive u).now = s.now := rfl
@[simp] theorem drive_dly (u : PinUpdate) : (s.drive u).dly = s.dly := rfl
@[simp] theorem drive_blState (u : PinUpdate) : (s.drive u).blState = s.blState := rfl
@[simp] theorem drive_blLast (u : PinUpdate) : (s.drive u).blLast = s.blLast := rfl
@[simp] theorem drive_togEn (u : PinUpdate) : (s.drive u).togEn = s.togEn := rfl
@[simp] theorem drive_pins (u : PinUpdate) : (s.drive u).pins = s.pins.update u := rfl
@[simp] theorem drive_pincfg (u : PinUpdate) : (s.drive u).pincfg = s.pincfg := rfl
@[simp] theorem drive_animI (u : PinUpdate) : (s.drive u).animI = s.animI := rfl
@[simp] theorem drive_animK (u : PinUpdate) : (s.drive u).animK = s.animK := rfl
@[simp] theorem drive_animAcc (u : PinUpdate) : (s.drive u).animAcc = s.animAcc := rfl
@[simp] theorem drive_resetPort (u : PinUpdate) : (s.drive u).resetPort = s.resetPort := rfl
@[simp] theorem drive_btnCfg (u : PinUpdate) : (s.drive u).btnCfg = s.btnCfg := rfl
@[simp] theorem drive_trace (u : PinUpdate) : (s.drive u).trace = { time := s.now, update := u } :: s.trace := rfl
@[simp] theorem drive_observed (u : PinUpdate) : (s.drive u).observed = s.observed := rfl
@[simp] theorem drive_program (u : PinUpdate) : (s.drive u).program = s.program := rfl
@[simp] theorem drive_schedule (u : PinUpdate) : (s.drive u).schedule = s.schedule := rfl
@[simp] theorem drive_drawn (u : PinUpdate) : (s.drive u).drawn = s.drawn := rfl
@[simp] theorem drive_params (u : PinUpdate) : (s.drive u).params = s.params := rfl

@[simp] theorem raiseError_seq (c : ErrCode) : (s.raiseError c).seq = s.seq := rfl
@[simp] theorem raiseError_inited (c : ErrCode) : (s.raiseError c).inited = s.inited := rfl
@[simp] theorem raiseError_fault (c : ErrCode) : (s.raiseError c).fault = s.fault := rfl
@[simp] theorem raiseError_errcode (c : ErrCode) : (s.raiseError c).errcode = if s.errcode = .noError then c else s.errcode := rfl
@[simp] theorem raiseError_msgLen (c : ErrCode) : (s.raiseError c).msgLen = s.msgLen := rfl
@[simp] theorem raiseError_msgBuf (c : ErrCode) : (s.raiseError c).msgBuf = s.msgBuf := rfl
@[simp] theorem raiseError_now (c : ErrCode) : (s.raiseError c).now = s.now := rfl
@[simp] theorem raiseError_dly (c : ErrCode) : (s.raiseError c).dly = s.dly := rfl
@[simp] theorem raiseError_blState (c : ErrCode) : (s.raiseError c).blState = s.blState := rfl
@[simp] theorem raiseError_blLast (c : ErrCode) : (s.raiseError c).blLast = s.blLast := rfl
@[simp] theorem raiseError_togEn (c : ErrCode) : (s.raiseError c).togEn = s.togEn := rfl
@[simp] theorem raiseError_pins (c : ErrCode) : (s.raiseError c).pins = s.pins := rfl
@[simp] theorem raiseError_pincfg (c : ErrCode) : (s.raiseError c).pincfg = s.pincfg := rfl
@[simp] theorem raiseError_animI (c : ErrCode) : (s.raiseError c).animI = s.animI := rfl
@[simp] theorem raiseError_animK (c : ErrCode) : (s.raiseError c).animK = s.animK := rfl
@[simp] theorem raiseError_animAcc (c : ErrCode) : (s.raiseError c).animAcc = s.animAcc := rfl
@[simp] theorem raiseError_resetPort (c : ErrCode) : (s.raiseError c).resetPort = s.resetPort := rfl
@[simp] theorem raiseError_btnCfg (c : ErrCode) : (s.raiseError c).btnCfg = s.btnCfg := rfl
@[simp] theorem raiseError_trace (c : ErrCode) : (s.raiseError c).trace = s.trace := rfl
@[simp] theorem raiseError_observed (c : ErrCode) : (s.raiseError c).observed = s.observed := rfl
@[simp] theorem raiseError_program (c : ErrCode) : (s.raiseError c).program = s.program := rfl
@[simp] theorem raiseError_schedule (c : ErrCode) : (s.raiseError c).schedule = s.schedule := rfl
@[simp] theorem raiseError_drawn (c : ErrCode) : (s.raiseError c).drawn = s.drawn := rfl
@[simp] theorem raiseError_params (c : ErrCode) : (s.raiseError c).params = s.params := rfl

@[simp] theorem clearError_seq : (s.clearError).seq = s.seq := rfl
@[simp] theorem clearError_inited : (s.clearError).inited = s.inited := rfl
@[simp] theorem clearError_fault : (s.clearError).fault = s.fault := rfl
@[simp] theorem clearError_errcode : (s.clearError).errcode = .noError := rfl
@[simp] theorem clearError_msgLen : (s.clearError).msgLen = s.msgLen := rfl
@[simp] theorem clearError_msgBuf : (s.clearError).msgBuf = s.msgBuf := rfl
@[simp] theorem clearError_now : (s.clearError).now = s.now := rfl
@[simp] theorem clearError_dly : (s.clearError).dly = s.dly := rfl
@[simp] theorem clearError_blState : (s.clearError).blState = s.blState := rfl
@[simp] theorem clearError_blLast : (s.clearError).blLast = s.blLast := rfl
@[simp] theorem clearError_togEn : (s.clearError).togEn = s.togEn := rfl
@[simp] theorem clearError_pins : (s.clearError).pins = s.pins := rfl
@[simp] theorem clearError_pincfg : (s.clearError).pincfg = s.pincfg := rfl
@[simp] theorem clearError_animI : (s.clearError).animI = s.animI := rfl
@[simp] theorem clearError_animK : (s.clearError).animK = s.animK := rfl
@[simp] theorem clearError_animAcc : (s.clearError).animAcc = s.animAcc := rfl
@[simp] theorem clearError_resetPort : (s.clearError).resetPort = s.resetPort := rfl
@[simp] theorem clearError_btnCfg : (s.clearError).btnCfg = s.btnCfg := rfl
@[simp] theorem clearError_trace : (s.clearError).trace = s.trace := rfl
@[simp] theorem clearError_observed : (s.clearError).observed = s.observed := rfl
@[simp] theorem clearError_program : (s.clearError).program = s.program := rfl
@[simp] theorem clearError_schedule : (s.clearError).schedule = s.schedule := rfl
@[simp] theorem clearError_drawn : (s.clearError).drawn = s.drawn := rfl
@[simp] theorem clearError_params : (s.clearError).params = s.params := rfl

@[simp] theorem endCommand_seq : (s.endCommand).seq = .idle := rfl
@[simp] theorem endCommand_inited : (s.endCommand).inited = s.inited := rfl
@[simp] theorem endCommand_fault : (s.endCommand).fault = s.fault := rfl
@[simp] theorem endCommand_errcode : (s.endCommand).errcode = s.errcode := rfl
@[simp] theorem endCommand_msgLen : (s.endCommand).msgLen = s.msgLen := rfl
@[simp] theorem endCommand_msgBuf : (s.endCommand).msgBuf = s.msgBuf := rfl
@[simp] theorem endCommand_now : (s.endCommand).now = s.now := rfl
@[simp] theorem endCommand_dly : (s.endCommand).dly = s.dly := rfl
@[simp] theorem endCommand_blState : (s.endCommand).blState = s.blState := rfl
@[simp] theorem endCommand_blLast : (s.endCommand).blLast = s.blLast := rfl
@[simp] theorem endCommand_togEn : (s.endCommand).togEn = s.togEn := rfl
@[simp] theorem endCommand_pins : (s.endCommand).pins = s.pins := rfl
@[simp] theorem endCommand_pincfg : (s.endCommand).pincfg = s.pincfg := rfl
@[simp] theorem endCommand_animI : (s.endCommand).animI = Config.freeAnimI s.drawn := rfl
@[simp] theorem endCommand_animK : (s.endCommand).animK = Config.freeAnimK s.drawn := rfl
@[simp] theorem endCommand_animAcc : (s.endCommand).animAcc = (Config.freeAnimAcc s.drawn).take Config.msgCap := rfl
@[simp] theorem endCommand_resetPort : (s.endCommand).resetPort = s.resetPort := rfl
@[simp] theorem endCommand_btnCfg : (s.endCommand).btnCfg = s.btnCfg := rfl
@[simp] theorem endCommand_trace : (s.endCommand).trace = s.trace := rfl
@[simp] theorem endCommand_observed : (s.endCommand).observed = s.observed := rfl
@[simp] theorem endCommand_program : (s.endCommand).program = s.program := rfl
@[simp] theorem endCommand_schedule : (s.endCommand).schedule = s.schedule := rfl
@[simp] theorem endCommand_drawn : (s.endCommand).drawn = s.drawn + 1 := rfl
@[simp] theorem endCommand_params : (s.endCommand).params = s.params := rfl

@[simp] theorem gpioFailure_seq : (s.gpioFailure).seq = .idle := rfl
@[simp] theorem gpioFailure_inited : (s.gpioFailure).inited = s.inited := rfl
@[simp] theorem gpioFailure_fault : (s.gpioFailure).fault = true := rfl
@[simp] theorem gpioFailure_errcode : (s.gpioFailure).errcode = if s.errcode = .noError then .gpioFail else s.errcode := rfl
@[simp] theorem gpioFailure_msgLen : (s.gpioFailure).msgLen = s.msgLen := rfl
@[simp] theorem gpioFailure_msgBuf : (s.gpioFailure).msgBuf = s.msgBuf := rfl
@[simp] theorem gpioFailure_now : (s.gpioFailure).now = s.now := rfl
@[simp] theorem gpioFailure_dly : (s.gpioFailure).dly = s.dly := rfl
@[simp] theorem gpioFailure_blState : (s.gpioFailure).blState = s.blState := rfl
@[simp] theorem gpioFailure_blLast : (s.gpioFailure).blLast = s.blLast := rfl
@[simp] theorem gpioFailure_togEn : (s.gpioFailure).togEn = false := rfl
@[simp] theorem gpioFailure_pins : (s.gpioFailure).pins = Pins.free s.drawn := rfl
@[simp] theorem gpioFailure_pincfg : (s.gpioFailure).pincfg = s.pincfg := rfl
@[simp] theorem gpioFailure_animI : (s.gpioFailure).animI = Config.freeAnimI s.drawn := rfl
@[simp] theorem gpioFailure_animK : (s.gpioFailure).animK = Config.freeAnimK s.drawn := rfl
@[simp] theorem gpioFailure_animAcc : (s.gpioFailure).animAcc = (Config.freeAnimAcc s.drawn).take Config.msgCap := rfl
@[simp] theorem gpioFailure_resetPort : (s.gpioFailure).resetPort = s.resetPort := rfl
@[simp] theorem gpioFailure_btnCfg : (s.gpioFailure).btnCfg = s.btnCfg := rfl
@[simp] theorem gpioFailure_trace : (s.gpioFailure).trace = s.trace := rfl
@[simp] theorem gpioFailure_observed : (s.gpioFailure).observed = s.observed := rfl
@[simp] theorem gpioFailure_program : (s.gpioFailure).program = s.program := rfl
@[simp] theorem gpioFailure_schedule : (s.gpioFailure).schedule = s.schedule := rfl
@[simp] theorem gpioFailure_drawn : (s.gpioFailure).drawn = s.drawn + 1 := rfl
@[simp] theorem gpioFailure_params : (s.gpioFailure).params = s.params := rfl

@[simp] theorem configurePins_seq : (s.configurePins).seq = s.seq := rfl
@[simp] theorem configurePins_inited : (s.configurePins).inited = s.inited := rfl
@[simp] theorem configurePins_fault : (s.configurePins).fault = s.fault := rfl
@[simp] theorem configurePins_errcode : (s.configurePins).errcode = s.errcode := rfl
@[simp] theorem configurePins_msgLen : (s.configurePins).msgLen = s.msgLen := rfl
@[simp] theorem configurePins_msgBuf : (s.configurePins).msgBuf = s.msgBuf := rfl
@[simp] theorem configurePins_now : (s.configurePins).now = s.now := rfl
@[simp] theorem configurePins_dly : (s.configurePins).dly = s.dly := rfl
@[simp] theorem configurePins_blState : (s.configurePins).blState = s.blState := rfl
@[simp] theorem configurePins_blLast : (s.configurePins).blLast = s.blLast := rfl
@[simp] theorem configurePins_togEn : (s.configurePins).togEn = s.togEn := rfl
@[simp] theorem configurePins_pins : (s.configurePins).pins = Pins.allLow := rfl
@[simp] theorem configurePins_pincfg : (s.configurePins).pincfg = .configured := rfl
@[simp] theorem configurePins_animI : (s.configurePins).animI = s.animI := rfl
@[simp] theorem configurePins_animK : (s.configurePins).animK = s.animK := rfl
@[simp] theorem configurePins_animAcc : (s.configurePins).animAcc = s.animAcc := rfl
@[simp] theorem configurePins_resetPort : (s.configurePins).resetPort = s.resetPort := rfl
@[simp] theorem configurePins_btnCfg : (s.configurePins).btnCfg = some { pull := s.params.btnPull, debounceMs := Config.collabDebounceMs } := rfl
@[simp] theorem configurePins_trace : (s.configurePins).trace = { time := s.now, update := .configure } :: s.trace := rfl
@[simp] theorem configurePins_observed : (s.configurePins).observed = s.observed := rfl
@[simp] theorem configurePins_program : (s.configurePins).program = s.program := rfl
@[simp] theorem configurePins_schedule : (s.configurePins).schedule = s.schedule := rfl
@[simp] theorem configurePins_drawn : (s.configurePins).drawn = s.drawn := rfl
@[simp] theorem configurePins_params : (s.configurePins).params = s.params := rfl

@[simp] theorem backlightReady_seq : (s.backlightReady).seq = s.seq := rfl
@[simp] theorem backlightReady_inited : (s.backlightReady).inited = s.inited := rfl
@[simp] theorem backlightReady_fault : (s.backlightReady).fault = s.fault := rfl
@[simp] theorem backlightReady_errcode : (s.backlightReady).errcode = s.errcode := rfl
@[simp] theorem backlightReady_msgLen : (s.backlightReady).msgLen = s.msgLen := rfl
@[simp] theorem backlightReady_msgBuf : (s.backlightReady).msgBuf = s.msgBuf := rfl
@[simp] theorem backlightReady_now : (s.backlightReady).now = s.now := rfl
@[simp] theorem backlightReady_dly : (s.backlightReady).dly = s.dly := rfl
@[simp] theorem backlightReady_blState : (s.backlightReady).blState = true := rfl
@[simp] theorem backlightReady_blLast : (s.backlightReady).blLast = s.now := rfl
@[simp] theorem backlightReady_togEn : (s.backlightReady).togEn = true := rfl
@[simp] theorem backlightReady_pins : (s.backlightReady).pins = s.pins.write (.bl true) := rfl
@[simp] theorem backlightReady_pincfg : (s.backlightReady).pincfg = s.pincfg := rfl
@[simp] theorem backlightReady_animI : (s.backlightReady).animI = s.animI := rfl
@[simp] theorem backlightReady_animK : (s.backlightReady).animK = s.animK := rfl
@[simp] theorem backlightReady_animAcc : (s.backlightReady).animAcc = s.animAcc := rfl
@[simp] theorem backlightReady_resetPort : (s.backlightReady).resetPort = s.resetPort := rfl
@[simp] theorem backlightReady_btnCfg : (s.backlightReady).btnCfg = s.btnCfg := rfl
@[simp] theorem backlightReady_trace : (s.backlightReady).trace = { time := s.now, update := .write (.bl true) } :: s.trace := rfl
@[simp] theorem backlightReady_observed : (s.backlightReady).observed = s.observed := rfl
@[simp] theorem backlightReady_program : (s.backlightReady).program = s.program := rfl
@[simp] theorem backlightReady_schedule : (s.backlightReady).schedule = s.schedule := rfl
@[simp] theorem backlightReady_drawn : (s.backlightReady).drawn = s.drawn := rfl
@[simp] theorem backlightReady_params : (s.backlightReady).params = s.params := rfl

@[simp] theorem backlightOff_seq : (s.backlightOff).seq = s.seq := rfl
@[simp] theorem backlightOff_inited : (s.backlightOff).inited = s.inited := rfl
@[simp] theorem backlightOff_fault : (s.backlightOff).fault = s.fault := rfl
@[simp] theorem backlightOff_errcode : (s.backlightOff).errcode = s.errcode := rfl
@[simp] theorem backlightOff_msgLen : (s.backlightOff).msgLen = s.msgLen := rfl
@[simp] theorem backlightOff_msgBuf : (s.backlightOff).msgBuf = s.msgBuf := rfl
@[simp] theorem backlightOff_now : (s.backlightOff).now = s.now := rfl
@[simp] theorem backlightOff_dly : (s.backlightOff).dly = s.dly := rfl
@[simp] theorem backlightOff_blState : (s.backlightOff).blState = false := rfl
@[simp] theorem backlightOff_blLast : (s.backlightOff).blLast = s.blLast := rfl
@[simp] theorem backlightOff_togEn : (s.backlightOff).togEn = false := rfl
@[simp] theorem backlightOff_pins : (s.backlightOff).pins = s.pins.write (.bl false) := rfl
@[simp] theorem backlightOff_pincfg : (s.backlightOff).pincfg = s.pincfg := rfl
@[simp] theorem backlightOff_animI : (s.backlightOff).animI = s.animI := rfl
@[simp] theorem backlightOff_animK : (s.backlightOff).animK = s.animK := rfl
@[simp] theorem backlightOff_animAcc : (s.backlightOff).animAcc = s.animAcc := rfl
@[simp] theorem backlightOff_resetPort : (s.backlightOff).resetPort = s.resetPort := rfl
@[simp] theorem backlightOff_btnCfg : (s.backlightOff).btnCfg = s.btnCfg := rfl
@[simp] theorem backlightOff_trace : (s.backlightOff).trace = { time := s.now, update := .write (.bl false) } :: s.trace := rfl
@[simp] theorem backlightOff_observed : (s.backlightOff).observed = s.observed := rfl
@[simp] theorem backlightOff_program : (s.backlightOff).program = s.program := rfl
@[simp] theorem backlightOff_schedule : (s.backlightOff).schedule = s.schedule := rfl
@[simp] theorem backlightOff_drawn : (s.backlightOff).drawn = s.drawn := rfl
@[simp] theorem backlightOff_params : (s.backlightOff).params = s.params := rfl

@[simp] theorem releasePins_seq : (s.releasePins).seq = s.seq := rfl
@[simp] theorem releasePins_inited : (s.releasePins).inited = s.inited := rfl
@[simp] theorem releasePins_fault : (s.releasePins).fault = s.fault := rfl
@[simp] theorem releasePins_errcode : (s.releasePins).errcode = s.errcode := rfl
@[simp] theorem releasePins_msgLen : (s.releasePins).msgLen = s.msgLen := rfl
@[simp] theorem releasePins_msgBuf : (s.releasePins).msgBuf = s.msgBuf := rfl
@[simp] theorem releasePins_now : (s.releasePins).now = s.now := rfl
@[simp] theorem releasePins_dly : (s.releasePins).dly = s.dly := rfl
@[simp] theorem releasePins_blState : (s.releasePins).blState = s.blState := rfl
@[simp] theorem releasePins_blLast : (s.releasePins).blLast = s.blLast := rfl
@[simp] theorem releasePins_togEn : (s.releasePins).togEn = s.togEn := rfl
@[simp] theorem releasePins_pins : (s.releasePins).pins = Pins.released := rfl
@[simp] theorem releasePins_pincfg : (s.releasePins).pincfg = .released := rfl
@[simp] theorem releasePins_animI : (s.releasePins).animI = s.animI := rfl
@[simp] theorem releasePins_animK : (s.releasePins).animK = s.animK := rfl
@[simp] theorem releasePins_animAcc : (s.releasePins).animAcc = s.animAcc := rfl
@[simp] theorem releasePins_resetPort : (s.releasePins).resetPort = s.resetPort := rfl
@[simp] theorem releasePins_btnCfg : (s.releasePins).btnCfg = none := rfl
@[simp] theorem releasePins_trace : (s.releasePins).trace = { time := s.now, update := .release } :: s.trace := rfl
@[simp] theorem releasePins_observed : (s.releasePins).observed = s.observed := rfl
@[simp] theorem releasePins_program : (s.releasePins).program = s.program := rfl
@[simp] theorem releasePins_schedule : (s.releasePins).schedule = s.schedule := rfl
@[simp] theorem releasePins_drawn : (s.releasePins).drawn = s.drawn := rfl
@[simp] theorem releasePins_params : (s.releasePins).params = s.params := rfl

@[simp] theorem tick_seq : (s.tick).seq = s.seq := rfl
@[simp] theorem tick_inited : (s.tick).inited = s.inited := rfl
@[simp] theorem tick_fault : (s.tick).fault = s.fault := rfl
@[simp] theorem tick_errcode : (s.tick).errcode = s.errcode := rfl
@[simp] theorem tick_msgLen : (s.tick).msgLen = s.msgLen := rfl
@[simp] theorem tick_msgBuf : (s.tick).msgBuf = s.msgBuf := rfl
@[simp] theorem tick_now : (s.tick).now = s.now + 1#64 := rfl
@[simp] theorem tick_dly : (s.tick).dly = if s.dly = 0#32 then 0#32 else s.dly - 1#32 := rfl
@[simp] theorem tick_blState : (s.tick).blState = s.blState := rfl
@[simp] theorem tick_blLast : (s.tick).blLast = s.blLast := rfl
@[simp] theorem tick_togEn : (s.tick).togEn = s.togEn := rfl
@[simp] theorem tick_pins : (s.tick).pins = s.pins := rfl
@[simp] theorem tick_pincfg : (s.tick).pincfg = s.pincfg := rfl
@[simp] theorem tick_animI : (s.tick).animI = s.animI := rfl
@[simp] theorem tick_animK : (s.tick).animK = s.animK := rfl
@[simp] theorem tick_animAcc : (s.tick).animAcc = s.animAcc := rfl
@[simp] theorem tick_resetPort : (s.tick).resetPort = s.resetPort := rfl
@[simp] theorem tick_btnCfg : (s.tick).btnCfg = s.btnCfg := rfl
@[simp] theorem tick_trace : (s.tick).trace = s.trace := rfl
@[simp] theorem tick_observed : (s.tick).observed = s.observed := rfl
@[simp] theorem tick_program : (s.tick).program = s.program := rfl
@[simp] theorem tick_schedule : (s.tick).schedule = s.schedule := rfl
@[simp] theorem tick_drawn : (s.tick).drawn = s.drawn := rfl
@[simp] theorem tick_params : (s.tick).params = s.params := rfl

@[simp] theorem toggle_seq : (s.toggle).seq = s.seq := rfl
@[simp] theorem toggle_inited : (s.toggle).inited = s.inited := rfl
@[simp] theorem toggle_fault : (s.toggle).fault = s.fault := rfl
@[simp] theorem toggle_errcode : (s.toggle).errcode = s.errcode := rfl
@[simp] theorem toggle_msgLen : (s.toggle).msgLen = s.msgLen := rfl
@[simp] theorem toggle_msgBuf : (s.toggle).msgBuf = s.msgBuf := rfl
@[simp] theorem toggle_now : (s.toggle).now = s.now := rfl
@[simp] theorem toggle_dly : (s.toggle).dly = s.dly := rfl
@[simp] theorem toggle_blState : (s.toggle).blState = !s.blState := rfl
@[simp] theorem toggle_blLast : (s.toggle).blLast = s.now := rfl
@[simp] theorem toggle_togEn : (s.toggle).togEn = s.togEn := rfl
@[simp] theorem toggle_pins : (s.toggle).pins = s.pins.write (.bl (!s.blState)) := rfl
@[simp] theorem toggle_pincfg : (s.toggle).pincfg = s.pincfg := rfl
@[simp] theorem toggle_animI : (s.toggle).animI = s.animI := rfl
@[simp] theorem toggle_animK : (s.toggle).animK = s.animK := rfl
@[simp] theorem toggle_animAcc : (s.toggle).animAcc = s.animAcc := rfl
@[simp] theorem toggle_resetPort : (s.toggle).resetPort = s.resetPort := rfl
@[simp] theorem toggle_btnCfg : (s.toggle).btnCfg = s.btnCfg := rfl
@[simp] theorem toggle_trace : (s.toggle).trace = { time := s.now, update := .write (.bl (!s.blState)) } :: s.trace := rfl
@[simp] theorem toggle_observed : (s.toggle).observed = s.observed := rfl
@[simp] theorem toggle_program : (s.toggle).program = s.program := rfl
@[simp] theorem toggle_schedule : (s.toggle).schedule = s.schedule := rfl
@[simp] theorem toggle_drawn : (s.toggle).drawn = s.drawn := rfl
@[simp] theorem toggle_params : (s.toggle).params = s.params := rfl

@[simp] theorem toggleFailure_seq : (s.toggleFailure).seq = .idle := rfl
@[simp] theorem toggleFailure_inited : (s.toggleFailure).inited = s.inited := rfl
@[simp] theorem toggleFailure_fault : (s.toggleFailure).fault = true := rfl
@[simp] theorem toggleFailure_errcode : (s.toggleFailure).errcode = if s.errcode = .noError then .gpioFail else s.errcode := rfl
@[simp] theorem toggleFailure_msgLen : (s.toggleFailure).msgLen = s.msgLen := rfl
@[simp] theorem toggleFailure_msgBuf : (s.toggleFailure).msgBuf = s.msgBuf := rfl
@[simp] theorem toggleFailure_now : (s.toggleFailure).now = s.now := rfl
@[simp] theorem toggleFailure_dly : (s.toggleFailure).dly = s.dly := rfl
@[simp] theorem toggleFailure_blState : (s.toggleFailure).blState = Config.freeBlState s.drawn := rfl
@[simp] theorem toggleFailure_blLast : (s.toggleFailure).blLast = Config.freeBlLast s.drawn := rfl
@[simp] theorem toggleFailure_togEn : (s.toggleFailure).togEn = false := rfl
@[simp] theorem toggleFailure_pins : (s.toggleFailure).pins = Pins.free s.drawn := rfl
@[simp] theorem toggleFailure_pincfg : (s.toggleFailure).pincfg = s.pincfg := rfl
@[simp] theorem toggleFailure_animI : (s.toggleFailure).animI = Config.freeAnimI s.drawn := rfl
@[simp] theorem toggleFailure_animK : (s.toggleFailure).animK = Config.freeAnimK s.drawn := rfl
@[simp] theorem toggleFailure_animAcc : (s.toggleFailure).animAcc = (Config.freeAnimAcc s.drawn).take Config.msgCap := rfl
@[simp] theorem toggleFailure_resetPort : (s.toggleFailure).resetPort = s.resetPort := rfl
@[simp] theorem toggleFailure_btnCfg : (s.toggleFailure).btnCfg = s.btnCfg := rfl
@[simp] theorem toggleFailure_trace : (s.toggleFailure).trace = s.trace := rfl
@[simp] theorem toggleFailure_observed : (s.toggleFailure).observed = s.observed := rfl
@[simp] theorem toggleFailure_program : (s.toggleFailure).program = s.program := rfl
@[simp] theorem toggleFailure_schedule : (s.toggleFailure).schedule = s.schedule := rfl
@[simp] theorem toggleFailure_drawn : (s.toggleFailure).drawn = s.drawn + 1 := rfl
@[simp] theorem toggleFailure_params : (s.toggleFailure).params = s.params := rfl

@[simp] theorem observe_seq (v : Word) : (s.observe v).seq = s.seq := rfl
@[simp] theorem observe_inited (v : Word) : (s.observe v).inited = s.inited := rfl
@[simp] theorem observe_fault (v : Word) : (s.observe v).fault = s.fault := rfl
@[simp] theorem observe_errcode (v : Word) : (s.observe v).errcode = s.errcode := rfl
@[simp] theorem observe_msgLen (v : Word) : (s.observe v).msgLen = s.msgLen := rfl
@[simp] theorem observe_msgBuf (v : Word) : (s.observe v).msgBuf = s.msgBuf := rfl
@[simp] theorem observe_now (v : Word) : (s.observe v).now = s.now := rfl
@[simp] theorem observe_dly (v : Word) : (s.observe v).dly = s.dly := rfl
@[simp] theorem observe_blState (v : Word) : (s.observe v).blState = s.blState := rfl
@[simp] theorem observe_blLast (v : Word) : (s.observe v).blLast = s.blLast := rfl
@[simp] theorem observe_togEn (v : Word) : (s.observe v).togEn = s.togEn := rfl
@[simp] theorem observe_pins (v : Word) : (s.observe v).pins = s.pins := rfl
@[simp] theorem observe_pincfg (v : Word) : (s.observe v).pincfg = s.pincfg := rfl
@[simp] theorem observe_animI (v : Word) : (s.observe v).animI = s.animI := rfl
@[simp] theorem observe_animK (v : Word) : (s.observe v).animK = s.animK := rfl
@[simp] theorem observe_animAcc (v : Word) : (s.observe v).animAcc = s.animAcc := rfl
@[simp] theorem observe_resetPort (v : Word) : (s.observe v).resetPort = s.resetPort := rfl
@[simp] theorem observe_btnCfg (v : Word) : (s.observe v).btnCfg = s.btnCfg := rfl
@[simp] theorem observe_trace (v : Word) : (s.observe v).trace = s.trace := rfl
@[simp] theorem observe_observed (v : Word) : (s.observe v).observed = v :: s.observed := rfl
@[simp] theorem observe_program (v : Word) : (s.observe v).program = s.program := rfl
@[simp] theorem observe_schedule (v : Word) : (s.observe v).schedule = s.schedule := rfl
@[simp] theorem observe_drawn (v : Word) : (s.observe v).drawn = s.drawn := rfl
@[simp] theorem observe_params (v : Word) : (s.observe v).params = s.params := rfl

@[simp] theorem enterReset_seq : (s.enterReset).seq = State.reset.seq := rfl
@[simp] theorem enterReset_inited : (s.enterReset).inited = State.reset.inited := rfl
@[simp] theorem enterReset_fault : (s.enterReset).fault = State.reset.fault := rfl
@[simp] theorem enterReset_errcode : (s.enterReset).errcode = State.reset.errcode := rfl
@[simp] theorem enterReset_msgLen : (s.enterReset).msgLen = State.reset.msgLen := rfl
@[simp] theorem enterReset_msgBuf : (s.enterReset).msgBuf = State.reset.msgBuf := rfl
@[simp] theorem enterReset_now : (s.enterReset).now = State.reset.now := rfl
@[simp] theorem enterReset_dly : (s.enterReset).dly = State.reset.dly := rfl
@[simp] theorem enterReset_blState : (s.enterReset).blState = State.reset.blState := rfl
@[simp] theorem enterReset_blLast : (s.enterReset).blLast = State.reset.blLast := rfl
@[simp] theorem enterReset_togEn : (s.enterReset).togEn = State.reset.togEn := rfl
@[simp] theorem enterReset_pins : (s.enterReset).pins = State.reset.pins := rfl
@[simp] theorem enterReset_pincfg : (s.enterReset).pincfg = State.reset.pincfg := rfl
@[simp] theorem enterReset_animI : (s.enterReset).animI = State.reset.animI := rfl
@[simp] theorem enterReset_animK : (s.enterReset).animK = State.reset.animK := rfl
@[simp] theorem enterReset_animAcc : (s.enterReset).animAcc = State.reset.animAcc := rfl
@[simp] theorem enterReset_resetPort : (s.enterReset).resetPort = true := rfl
@[simp] theorem enterReset_btnCfg : (s.enterReset).btnCfg = State.reset.btnCfg := rfl
@[simp] theorem enterReset_trace : (s.enterReset).trace = s.trace := rfl
@[simp] theorem enterReset_observed : (s.enterReset).observed = s.observed := rfl
@[simp] theorem enterReset_program : (s.enterReset).program = s.program := rfl
@[simp] theorem enterReset_schedule : (s.enterReset).schedule = s.schedule := rfl
@[simp] theorem enterReset_drawn : (s.enterReset).drawn = s.drawn := rfl
@[simp] theorem enterReset_params : (s.enterReset).params = s.params := rfl

end Sys2Proof.Machine
end

