-- ==== Sys2Proof/Laws/Ops.lean ====
section
/-! SUPPORT. What the shared operations can do: taking a command, the sequencer's step, an event. -/

namespace Sys2Proof.Machine

theorem busy_eq_false_iff (s : State) : s.busy = false ↔ s.seq = .idle := by
  unfold State.busy; split <;> simp_all

theorem busy_eq_true_iff (s : State) : s.busy = true ↔ ∃ op w steps, s.seq = .running op w steps := by
  unfold State.busy; split <;> simp_all

/-- Which flag a bit of STATUS is (R22). -/
theorem getLsbD_status (s : State) (i : Nat) : s.status.getLsbD i =
    if i = 0 then s.busy
    else if i = 1 then s.inited
    else if i = 2 then s.fault
    else if i = 3 then s.blState
    else if i < 8 then s.errcode.code.getLsbD (i - 4)
    else if i = 9 then s.togEn
    else if 12 ≤ i ∧ i < 16 then s.activeOp.getLsbD (i - 12)
    else false := by
  simp only [State.status, BitVec.getLsbD_or, getLsbD_place, BitVec.getLsbD_ofBool]
  rcases Nat.lt_or_ge i 16 with h | h
  · interval_cases i <;> simp
  · have h0 : i ≠ 0 := by omega
    have h1 : i - 1 ≠ 0 := by omega
    have h2 : i - 2 ≠ 0 := by omega
    have h3 : i - 3 ≠ 0 := by omega
    have h9 : i - 9 ≠ 0 := by omega
    simp (disch := omega) [h0, h1, h2, h3, h9, show i ≠ 1 by omega, show i ≠ 2 by omega, show i ≠ 3 by omega,
      show i ≠ 9 by omega, show ¬ i < 8 by omega, show ¬ i < 16 by omega]

@[simp] theorem length_message (s : State) : s.message.length = s.msgLen.toNat := by simp [State.message]

/-- A command passes its checks exactly when the block is neither faulted nor busy, its fields are legal and INITED is
what it needs (R203). -/
theorem commandCheck_eq_none_iff (fieldOk wants : Bool) (s : State) :
    s.commandCheck fieldOk wants = none ↔ s.fault = false ∧ s.seq = .idle ∧ fieldOk = true ∧ s.inited = wants := by
  rw [← busy_eq_false_iff]
  unfold State.commandCheck
  cases s.fault <;> cases s.busy <;> cases fieldOk <;> cases wants <;> cases s.inited <;> simp

/-- Everything taking a command can do: refuse with the check's code, or start. -/
theorem takeCommand_cases {i : Instr} {check : Option ErrCode} {steps : List MicroStep} {s t : State}
    (h : s.takeCommand i check steps = .next t) :
    (∃ c, check = some c ∧ t = s.raiseError c)
      ∨ (check = none ∧ t = { s with seq := .running i.opcode (encode i) steps }) := by
  unfold State.takeCommand at h
  split at h <;> simp_all [eq_comm]

/-- Every command is taken in one way: the checks of R203, then `expand` (R33). -/
theorem exec_eq_takeCommand (i : Instr) (s : State) :
    exec i s = s.takeCommand i (s.commandCheck i.wellFormed (wantsInited i)) (expand s.params s.message i) := by
  cases i <;> rfl

/-- A command never stops the machine. -/
theorem exec_answers_next (i : Instr) (s : State) : ∃ t, exec i s = .next t := by
  rw [exec_eq_takeCommand]
  unfold State.takeCommand
  split <;> exact ⟨_, rfl⟩

/-- A command whose checks pass starts. -/
theorem exec_starts {i : Instr} {s : State} (hfault : s.fault = false) (hidle : s.seq = .idle)
    (hwf : i.wellFormed = true) (hinit : s.inited = wantsInited i) :
    exec i s = .next { s with seq := .running i.opcode (encode i) (expand s.params s.message i) } := by
  rw [exec_eq_takeCommand, (commandCheck_eq_none_iff _ _ s).2 ⟨hfault, hidle, hwf, hinit⟩]
  rfl

/-- Everything a command can do. -/
theorem exec_cases {i : Instr} {s t : State} (h : exec i s = .next t) :
    (∃ c, s.commandCheck i.wellFormed (wantsInited i) = some c ∧ t = s.raiseError c)
      ∨ (s.fault = false ∧ s.seq = .idle ∧ i.wellFormed = true ∧ s.inited = wantsInited i
        ∧ t = { s with seq := .running i.opcode (encode i) (expand s.params s.message i) }) := by
  rw [exec_eq_takeCommand] at h
  rcases takeCommand_cases h with h | ⟨hc, ht⟩
  · exact .inl h
  · obtain ⟨hf, hi, hw, hn⟩ := (commandCheck_eq_none_iff _ _ s).1 hc
    exact .inr ⟨hf, hi, hw, hn, ht⟩

/-- Everything a CMD write can do: one error code, or a command started whose word is the one written (R203). -/
theorem acceptCommand_cases {w : Word} {s t : State} (h : acceptCommand w s = .next t) :
    (∃ c, t = s.raiseError c)
      ∨ (∃ i, decode w = .ok i ∧ s.fault = false ∧ s.seq = .idle ∧ i.wellFormed = true ∧ s.inited = wantsInited i
        ∧ t = { s with seq := .running i.opcode (encode i) (expand s.params s.message i) }) := by
  unfold acceptCommand at h
  split at h
  · exact .inl ⟨_, by simpa [eq_comm] using h⟩
  · split at h
    · exact .inl ⟨_, by simpa [eq_comm] using h⟩
    · split at h
      · exact .inl ⟨_, by simpa [eq_comm] using h⟩
      · rcases exec_cases h with ⟨c, -, ht⟩ | h'
        · exact .inl ⟨c, ht⟩
        · exact .inr ⟨_, ‹_›, h'⟩

/-- Everything the sequencer's step can do. -/
theorem sequencerStep_cases {b : Bool} {s t : State} (h : sequencerStep b s = .next t) :
    (s.seq = .idle ∧ t = s)
      ∨ (∃ op w steps, s.seq = .running op w steps ∧ s.dly ≠ 0#32 ∧ t = s)
      ∨ (∃ op w m rest, s.seq = .running op w (m :: rest) ∧ s.dly = 0#32 ∧ b = true ∧ m.usesGpio = true
          ∧ t = s.gpioFailure)
      ∨ (∃ op w m rest, s.seq = .running op w (m :: rest) ∧ s.dly = 0#32 ∧ (b = false ∨ m.usesGpio = false)
          ∧ t = { s with seq := .running op w rest }.perform m) := by
  unfold sequencerStep at h
  split at h
  · exact .inl ⟨‹_›, by simpa [eq_comm] using h⟩
  · split at h
    · exact .inr (.inl ⟨_, _, _, ‹_›, ‹_›, by simpa [eq_comm] using h⟩)
    · rename_i hdly
      split at h
      · simp at h
      · split at h
        · rename_i hb
          simp only [Bool.and_eq_true] at hb
          exact .inr (.inr (.inl ⟨_, _, _, _, ‹_›, by simpa using hdly, hb.1, hb.2, by simpa [eq_comm] using h⟩))
        · rename_i hb
          refine .inr (.inr (.inr ⟨_, _, _, _, ‹_›, by simpa using hdly, ?_, by simpa [eq_comm] using h⟩))
          cases b <;> simp_all

/-- An enabled micro-step that does not fail is performed. -/
theorem sequencerStep_performs {s : State} {op : BitVec 4} {w : Word} {m : MicroStep} {rest : List MicroStep}
    (hseq : s.seq = .running op w (m :: rest)) (hdly : s.dly = 0#32) :
    sequencerStep false s = .next ({ s with seq := .running op w rest }.perform m) := by
  simp [sequencerStep, hseq, hdly]

/-- Everything the toggler's step can do. -/
theorem edgeStep_cases (b : Bool) (s : State) :
    (s.edgeAccepted = false ∧ edgeStep b s = s)
      ∨ (s.edgeAccepted = true ∧ b = true ∧ edgeStep b s = s.toggleFailure)
      ∨ (s.edgeAccepted = true ∧ b = false ∧ edgeStep b s = s.toggle) := by
  unfold edgeStep
  cases s.edgeAccepted <;> cases b <;> simp

/-- Everything a host write can do: an error, a command started, ERRCODE cleared, MSG_LEN or MSG_BUF written while not
busy, or nothing (R56). -/
theorem memWrite_cases {wd : Width} {off : Offset} {v : Word} {s t : State} (h : memWrite wd off v s = .next t) :
    (∃ c, t = s.raiseError c)
      ∨ (∃ i, decode v = .ok i ∧ s.fault = false ∧ s.seq = .idle ∧ i.wellFormed = true ∧ s.inited = wantsInited i
        ∧ t = { s with seq := .running i.opcode (encode i) (expand s.params s.message i) })
      ∨ t = s.clearError
      ∨ (s.seq = .idle ∧ v.toNat ≤ Config.msgCap ∧ t = { s with msgLen := v.setWidth 7 })
      ∨ (s.seq = .idle ∧ admitted wd off = true ∧ msgBase ≤ off.toNat
        ∧ t = { s with msgBuf := s.msgBuf.writeLE off.toNat v wd.bytes })
      ∨ t = s := by
  unfold memWrite at h
  split at h
  · split at h
    · rcases acceptCommand_cases h with h | h
      · exact .inl h
      · exact .inr (.inl h)
    · split at h
      · split at h
        · exact .inr (.inr (.inl (by simpa [eq_comm] using h)))
        · exact .inr (.inr (.inr (.inr (.inr (by simpa [eq_comm] using h)))))
      · split at h
        · unfold State.writeMsgLen at h
          split at h
          · exact .inl ⟨_, by simpa [eq_comm] using h⟩
          · split at h
            · exact .inl ⟨_, by simpa [eq_comm] using h⟩
            · refine .inr (.inr (.inr (.inl ⟨?_, by omega, by simpa [eq_comm] using h⟩)))
              rw [← busy_eq_false_iff]; simp_all
        · split at h
          · exact .inr (.inr (.inr (.inr (.inr (by simpa [eq_comm] using h)))))
          · unfold State.writeMsgBuf at h
            split at h
            · exact .inl ⟨_, by simpa [eq_comm] using h⟩
            · refine .inr (.inr (.inr (.inr (.inl ⟨?_, ‹_›, by omega, by simpa [eq_comm] using h⟩))))
              rw [← busy_eq_false_iff]; simp_all
  · exact .inl ⟨_, by simpa [eq_comm] using h⟩

/-- Everything the host's step can do: nothing, one write, or a read, whose only effect on the block is the error of a
refused one. -/
theorem hostStep_cases {s t : State} (h : hostStep s = .next t) :
    (s.program = [] ∧ t = s)
      ∨ (∃ wd off v rest, s.program = .write wd off v :: rest ∧ memWrite wd off v { s with program := rest } = .next t)
      ∨ (∃ prog v, t = { s with program := prog, observed := v :: s.observed }
          ∨ t = { s with program := prog, observed := v :: s.observed }.raiseError .badAccess) := by
  unfold hostStep at h
  split at h
  · exact .inl ⟨‹_›, by simpa [eq_comm] using h⟩
  · exact .inr (.inl ⟨_, _, _, _, ‹_›, h⟩)
  · simp only [State.afterRead, State.observe, Host.Outcome.next.injEq] at h
    split at h
    · exact .inr (.inr ⟨_, _, .inl h.symm⟩)
    · exact .inr (.inr ⟨_, _, .inr h.symm⟩)
  · simp only [State.afterRead, State.observe, Host.Outcome.next.injEq] at h
    split at h
    · exact .inr (.inr ⟨_, _, .inl h.symm⟩)
    · exact .inr (.inr ⟨_, _, .inr h.symm⟩)

/-- While RESET is asserted an event changes at most the RESET input (R230). -/
theorem handle_in_reset {ev : Event} {s : State} (h : s.resetPort = true) :
    ∃ b, handle ev s = .next { s with resetPort := b } := by
  have hs : { s with resetPort := true } = s := by rw [← h]
  cases ev with
  | setReset b => exact ⟨b, by simp [handle, h]⟩
  | _ => exact ⟨true, by rw [hs]; simp [handle, h]⟩

/-- With RESET released an event is its agent's step. -/
theorem handle_released {ev : Event} {s : State} (h : s.resetPort = false) : handle ev s = agentStep ev s := by
  simp [handle, h]

theorem runEvents_append (as bs : List Event) (s : State) :
    runEvents (as ++ bs) s = match runEvents as s with
      | .next t => runEvents bs t
      | .fault r => .fault r
      | .refused r => .refused r := by
  induction as generalizing s with
  | nil => rfl
  | cons a as ih =>
    simp only [List.cons_append, runEvents]
    cases handle a s <;> simp [ih]

end Sys2Proof.Machine
end

