-- ==== Sys2Proof/Laws/PerInstr.lean ====
section
/-! SUPPORT. Statements about every command as syntax, one lemma per constructor. -/

namespace Sys2Proof.Laws

/-- The (match, mask) pair of a command: its word has its opcode in bits 3:0 and no reserved bit (R81, R88, R90). -/
def EncodeShape.Statement (i : Instr) : Prop := encode i &&& 0xFF00C00F#32 = i.opcode.setWidth 32

/-- R88's mask on a packed word leaves the opcode. -/
theorem pack_and_mask (op : BitVec 4) (f : Fields) : pack op f &&& 0xFF00C00F#32 = op.setWidth 32 := by
  refine BitVec.eq_of_getLsbD_eq fun i hi => ?_
  rw [BitVec.getLsbD_and, getLsbD_pack, BitVec.getLsbD_setWidth]
  interval_cases i <;> simp

theorem EncodeShape.init (f : Fields) : EncodeShape.Statement (.init f) := pack_and_mask _ f

theorem EncodeShape.writeLine (f : Fields) : EncodeShape.Statement (.writeLine f) := pack_and_mask _ f

theorem EncodeShape.clear (f : Fields) : EncodeShape.Statement (.clear f) := pack_and_mask _ f

theorem EncodeShape.animLeft (f : Fields) : EncodeShape.Statement (.animLeft f) := pack_and_mask _ f

theorem EncodeShape.animRight (f : Fields) : EncodeShape.Statement (.animRight f) := pack_and_mask _ f

theorem EncodeShape.animDown (f : Fields) : EncodeShape.Statement (.animDown f) := pack_and_mask _ f

theorem EncodeShape.shutdown (f : Fields) : EncodeShape.Statement (.shutdown f) := pack_and_mask _ f

theorem EncodeShape.transmit (f : Fields) : EncodeShape.Statement (.transmit f) := pack_and_mask _ f

end Sys2Proof.Laws
end

