-- ==== Sys2Proof/Laws/Steps.lean ====
section
/-! SUPPORT. Step lists taken apart: what they send, how long they wait, that they are legal, transmission by
transmission. -/

namespace Sys2Proof.Machine

@[simp] theorem updatesOf_nil : updatesOf [] = [] := rfl

@[simp] theorem updatesOf_cons (m : MicroStep) (l : List MicroStep) : updatesOf (m :: l) = m.updates ++ updatesOf l := by
  simp [updatesOf]

@[simp] theorem updatesOf_append (a b : List MicroStep) : updatesOf (a ++ b) = updatesOf a ++ updatesOf b := by
  simp [updatesOf]

theorem updatesOf_flatMap {α : Type} (l : List α) (g : α → List MicroStep) :
    updatesOf (l.flatMap g) = l.flatMap fun x => updatesOf (g x) := by
  simp [updatesOf, List.flatMap_assoc]

@[simp] theorem waitTicks_nil : waitTicks [] = 0 := rfl

@[simp] theorem waitTicks_cons (m : MicroStep) (l : List MicroStep) : waitTicks (m :: l) = m.ticks + waitTicks l := by
  simp [waitTicks]

@[simp] theorem waitTicks_append (a b : List MicroStep) : waitTicks (a ++ b) = waitTicks a + waitTicks b := by
  simp [waitTicks]

theorem waitTicks_flatMap {α : Type} (l : List α) (g : α → List MicroStep) (k : Nat)
    (h : ∀ x ∈ l, waitTicks (g x) = k) : waitTicks (l.flatMap g) = l.length * k := by
  induction l with
  | nil => simp
  | cons x l ih =>
    simp [h x (by simp), ih fun y hy => h y (by simp [hy]), Nat.succ_mul, Nat.add_comm]

@[simp] theorem ePulses_append (a b : List MicroStep) : ePulses (a ++ b) = ePulses a + ePulses b := by
  simp [ePulses]

theorem ePulses_flatMap {α : Type} (l : List α) (g : α → List MicroStep) (k : Nat)
    (h : ∀ x ∈ l, ePulses (g x) = k) : ePulses (l.flatMap g) = l.length * k := by
  induction l with
  | nil => simp [ePulses]
  | cons x l ih =>
    simp [h x (by simp), ih fun y hy => h y (by simp [hy]), Nat.succ_mul, Nat.add_comm]

/-! One transmission (R103, R110). -/

theorem waitTicks_tx (p : Params) (v : Byte) (m : Mode) :
    waitTicks (tx p v m) = 4 * p.tSettle.toNat + 2 * p.tPulse.toNat := by
  simp [tx, txPhase, MicroStep.ticks]; omega

theorem ePulses_tx (p : Params) (v : Byte) (m : Mode) : ePulses (tx p v m) = 2 := by
  simp [tx, txPhase, ePulses]

theorem updatesOf_tx (p : Params) (v : Byte) (m : Mode) :
    updatesOf (tx p v m) = [.write (.rs m.rsLevel), .write (.d 0#4), .write (.d (hiNibble v)), .write (.e true),
      .write (.e false), .write (.d 0#4), .write (.d (loNibble v)), .write (.e true), .write (.e false)] := rfl

theorem staged_tx (t i h : Bool) (p : Params) (v : Byte) (m : Mode) (rest : List MicroStep) :
    staged true t i h (tx p v m ++ rest) = staged true t i false rest := by
  simp [tx, txPhase, staged]

theorem staged_tx_flatMap {α : Type} (t i : Bool) (p : Params) (l : List α) (b : α → Byte) (m : Mode)
    (rest : List MicroStep) :
    staged true t i false ((l.flatMap fun x => tx p (b x) m) ++ rest) = staged true t i false rest := by
  induction l with
  | nil => rfl
  | cons x l ih => rw [List.flatMap_cons, List.append_assoc, staged_tx, ih]

/-- Between transmissions: E is low and fell at least T_SETTLE ago. -/
def StrobeClock.ready (p : Params) (c : StrobeClock) : Prop := c.eHigh = false ∧ p.tSettle.toNat ≤ c.sinceFall

theorem strobesTimed_tx (p : Params) (c : StrobeClock) (v : Byte) (m : Mode) (rest : List MicroStep)
    (hc : c.ready p) (hrest : ∀ c', StrobeClock.ready p c' → strobesTimed p c' rest = true) :
    strobesTimed p c (tx p v m ++ rest) = true := by
  obtain ⟨he, hf⟩ := hc
  simp [tx, txPhase, strobesTimed, StrobeClock.dataMayChange, StrobeClock.pass, he, hf]
  refine ⟨by omega, by omega, hrest _ ⟨rfl, ?_⟩⟩
  simp

theorem strobesTimed_tx_flatMap {α : Type} (p : Params) (l : List α) (b : α → Byte) (m : Mode) (rest : List MicroStep)
    (hrest : ∀ c', StrobeClock.ready p c' → strobesTimed p c' rest = true) (c : StrobeClock) (hc : c.ready p) :
    strobesTimed p c ((l.flatMap fun x => tx p (b x) m) ++ rest) = true := by
  induction l generalizing c with
  | nil => exact hrest c hc
  | cons x l ih =>
    rw [List.flatMap_cons, List.append_assoc]
    exact strobesTimed_tx p c (b x) m _ hc fun c' hc' => ih c' hc'

/-! One line (R121, R123). -/

theorem length_justify (s : List Byte) (style : Style) : (justify s style).length = 20 := by
  unfold justify Config.width
  split
  · simp; omega
  · cases style <;> simp [spaces] <;> omega

theorem waitTicks_writeLine (p : Params) (s : List Byte) (line : Line) (style : Style) :
    waitTicks (writeLine p s line style) = 21 * (4 * p.tSettle.toNat + 2 * p.tPulse.toNat) := by
  rw [writeLine, waitTicks_append, waitTicks_tx, waitTicks_flatMap _ _ _ fun c _ => waitTicks_tx p c .character,
    length_justify]
  omega

theorem ePulses_writeLine (p : Params) (s : List Byte) (line : Line) (style : Style) :
    ePulses (writeLine p s line style) = 42 := by
  rw [writeLine, ePulses_append, ePulses_tx, ePulses_flatMap _ _ _ fun c _ => ePulses_tx p c .character, length_justify]

theorem staged_writeLine (t i h : Bool) (p : Params) (s : List Byte) (line : Line) (style : Style)
    (rest : List MicroStep) :
    staged true t i h (writeLine p s line style ++ rest) = staged true t i false rest := by
  rw [writeLine, List.append_assoc, staged_tx]
  exact staged_tx_flatMap t i p (justify s style) id .character rest

theorem strobesTimed_writeLine (p : Params) (s : List Byte) (line : Line) (style : Style) (rest : List MicroStep)
    (hrest : ∀ c', StrobeClock.ready p c' → strobesTimed p c' rest = true) (c : StrobeClock) (hc : c.ready p) :
    strobesTimed p c (writeLine p s line style ++ rest) = true := by
  rw [writeLine, List.append_assoc]
  exact strobesTimed_tx p c _ _ _ hc fun c' hc' => strobesTimed_tx_flatMap p _ id .character rest hrest c' hc'

theorem staged_clearLines (t i : Bool) (p : Params) (rest : List MicroStep) :
    staged true t i false (clearLines p ++ rest) = staged true t i false rest := by
  simp [clearLines, staged_writeLine]

/-! The accumulators (R151, R153) and every command's list. -/

theorem length_accLeft (msg : List Byte) (k : Nat) : (accLeft msg k).length ≤ k := by
  induction k with
  | zero => simp [accLeft]
  | succ k ih => unfold accLeft; split <;> simp [spaces] <;> omega

theorem length_accRight_le (msg : List Byte) (k : Nat) : (accRight msg k).length ≤ msg.length + k + 1 := by
  induction k with
  | zero => unfold accRight accRightStep; split <;> (simp [spaces]; try omega)
  | succ k ih => unfold accRight accRightStep; split <;> (simp [spaces]; try omega)

/-- ACC holds at most MSG_CAP bytes (R37). -/
theorem length_accRight (msg : List Byte) (h : msg.length ≤ Config.msgCap) (k : Nat) (hk : k ≤ 20) :
    (accRight msg k).length ≤ Config.msgCap := by
  unfold Config.msgCap at *
  by_cases h2 : msg.length ≤ 20
  · have := length_accRight_le msg k; omega
  · have : (accRight msg k).length ≤ msg.length := by
      cases k <;> unfold accRight accRightStep <;>
        rw [if_neg (by simp only [marginRight, Config.width]; omega)] <;> simp
    omega

theorem staged_flatMap {α : Type} (t i : Bool) (l : List α) (g : α → List MicroStep) (rest : List MicroStep)
    (h : ∀ x ∈ l, ∀ r, staged true t i false (g x ++ r) = staged true t i false r) :
    staged true t i false (l.flatMap g ++ rest) = staged true t i false rest := by
  induction l with
  | nil => rfl
  | cons x l ih => rw [List.flatMap_cons, List.append_assoc, h x (by simp), ih fun y hy => h y (by simp [hy])]

/-- Every command's list is legal where the command is accepted. -/
theorem staged_expand (p : Params) (msg : List Byte) (hm : msg.length ≤ Config.msgCap) (i : Instr) :
    staged (wantsInited i) (wantsInited i) (wantsInited i) false (expand p msg i) = true := by
  cases i with
  | init f =>
    simp only [expand, initSteps, wantsInited, List.cons_append, List.nil_append, staged]
    have := staged_tx_flatMap true false p p.initSeq.toList id .command [.wait p.tPostInit, .setInited true, .done]
    simp only [id] at this
    simp [this, staged]
  | writeLine f => simp only [expand, writeLineSteps, wantsInited, staged_writeLine]; rfl
  | clear f => simp only [expand, clearSteps, wantsInited, staged_clearLines]; rfl
  | animLeft f =>
    simp only [expand, animLeftSteps, wantsInited, List.cons_append, staged]
    rw [staged_flatMap _ _ _ _ _ fun k hk r => ?_]
    · simp [staged]
    · rw [List.mem_range] at hk
      have h64 : (accLeft msg (k + 1)).length ≤ Config.msgCap := by
        have := length_accLeft msg (k + 1)
        simp only [Config.msgCap]; omega
      simp [frameLeft, staged, staged_writeLine, h64]
  | animRight f =>
    simp only [expand, animRightSteps, wantsInited, List.cons_append, staged]
    rw [staged_flatMap _ _ _ _ _ fun k hk r => ?_]
    · simp [staged]
    · rw [List.mem_range] at hk
      simp [frameRight, staged, staged_writeLine, length_accRight msg hm k (by omega)]
  | animDown f =>
    simp only [expand, animDownSteps, wantsInited]
    rw [staged_flatMap _ _ _ _ _ fun k hk r => ?_]
    · simp [staged]
    · simp only [frameDown, List.cons_append, List.append_assoc, staged]
      split <;> split <;> simp [staged, staged_writeLine]
  | shutdown f => simp only [expand, shutdownSteps, wantsInited, staged_clearLines]; rfl
  | transmit f => simp only [expand, transmitSteps, wantsInited, staged_tx]; rfl

end Sys2Proof.Machine
end

