-- ==== Sys2Proof/Laws/Receiver.lean ====
section
/-! SUPPORT. What one transmission, and a row of characters, does to the receiver. -/

namespace Sys2Proof.Machine

theorem feedAll_append (r : Receiver) (a b : List PinUpdate) : r.feedAll (a ++ b) = (r.feedAll a).feedAll b := by
  simp [Receiver.feedAll]

/-- A byte is its two nibbles (R7, R71). -/
theorem hiNibble_append_loNibble (v : Byte) : hiNibble v ++ loNibble v = v := by
  unfold hiNibble loNibble
  refine BitVec.eq_of_getLsbD_eq fun k hk => ?_
  rw [BitVec.getLsbD_append]
  simp only [BitVec.getLsbD_extractLsb']
  interval_cases k <;> simp

/-- One transmission, given to a receiver between two bytes, is one byte in its mode (R70, R71). -/
theorem feedAll_tx (p : Params) (v : Byte) (m : Mode) (r : Receiver) (hc : r.configured = true) (he : r.e = false)
    (hh : r.half = none) :
    r.feedAll (updatesOf (tx p v m)) = match m with
      | .command => { r with rs := false, d := loNibble v }.takeCommandByte v
      | .character => { r with rs := true, d := loNibble v }.takeCharacter v := by
  rw [updatesOf_tx]
  cases m
  · simp only [Receiver.feedAll, List.foldl, Receiver.feed, Mode.rsLevel, hc, he, hh, Receiver.sample, Bool.true_and,
      Bool.not_false, if_true, Bool.false_eq_true, if_false, Bool.and_false, Bool.not_true, hiNibble_append_loNibble]
    unfold Receiver.takeCommandByte
    split
    · simp
    · split <;> simp
  · simp only [Receiver.feedAll, List.foldl, Receiver.feed, Mode.rsLevel, hc, he, hh, Receiver.sample, Bool.true_and,
      Bool.not_false, if_true, Bool.false_eq_true, if_false, Bool.and_false, Bool.not_true, hiNibble_append_loNibble]
    simp [Receiver.takeCharacter]

/-- Characters one after the other fill DDRAM from AC on, and nothing else (R74). -/
theorem feedAll_characters (p : Params) (l : List Byte) (r : Receiver) (hl : l.length ≤ 128) (h1 : r.configured = true)
    (h2 : r.e = false) (h3 : r.half = none) :
    let r' := r.feedAll (updatesOf (l.flatMap fun c => tx p c .character))
    r'.configured = true ∧ r'.e = false ∧ r'.half = none ∧ r'.ac = r.ac + BitVec.ofNat 7 l.length
      ∧ ∀ a, r'.ddram a = if h : (a - r.ac).toNat < l.length then l[(a - r.ac).toNat] else r.ddram a := by
  induction l generalizing r with
  | nil => simp [Receiver.feedAll, h1, h2, h3]
  | cons c l ih =>
    simp only [List.flatMap_cons, updatesOf_append, feedAll_append, feedAll_tx p c .character r h1 h2 h3]
    obtain ⟨a1, a2, a3, a4, a5⟩ :=
      ih ({ r with rs := true, d := loNibble c }.takeCharacter c) (by simp at hl; omega) h1 h2 h3
    refine ⟨a1, a2, a3, ?_, fun a => ?_⟩
    · rw [a4]; simp only [Receiver.takeCharacter, List.length_cons]; bv_omega
    · rw [a5]
      simp only [Receiver.takeCharacter, List.length_cons]
      simp only [List.length_cons] at hl
      by_cases ha : a = r.ac
      · subst ha
        have : ¬ ((r.ac - (r.ac + 1#7)).toNat < l.length) := by bv_omega
        rw [dif_neg this]; simp
      · have e : (a - r.ac).toNat = (a - (r.ac + 1#7)).toNat + 1 := by bv_omega
        by_cases hlt : (a - (r.ac + 1#7)).toNat < l.length
        · rw [dif_pos hlt, dif_pos (by omega)]
          simp [e]
        · rw [dif_neg hlt, dif_neg (by omega)]; simp [ha]

end Sys2Proof.Machine
end

