-- ==== Sys2Proof/Laws/Runs.lean ====
section
/-! SUPPORT. Runs: ticks in a row, step lists performed without slack, and what no agent's step changes. -/

namespace Sys2Proof.Machine

/-- Ticks in a row, as many as DLY holds: NOW moves on and DLY ends at 0 (R100). -/
theorem runEvents_ticks (n : Nat) (s : State) (h : s.resetPort = false) (hd : s.dly.toNat = n) :
    runEvents (List.replicate n .tick) s = .next { s with now := s.now + BitVec.ofNat 64 n, dly := 0#32 } := by
  induction n generalizing s with
  | zero =>
    have h0 : s.dly = 0#32 := BitVec.eq_of_toNat_eq (by simpa using hd)
    simp only [List.replicate_zero, runEvents, Host.Outcome.next.injEq]
    rw [← h0]
    simp
  | succ n ih =>
    have hne : s.dly ≠ 0#32 := fun hc => by simp [hc] at hd
    have hlt := s.dly.isLt
    simp only [List.replicate_succ, runEvents, handle_released h, agentStep]
    rw [ih s.tick (by simpa [State.tick] using h) (by
      simp only [State.tick, hne, if_false, BitVec.toNat_sub, BitVec.toNat_ofNat]; omega)]
    simp only [State.tick, Host.Outcome.next.injEq]
    congr 1
    rw [BitVec.add_assoc]
    congr 1
    apply BitVec.eq_of_toNat_eq
    simp
    omega

/-- One micro-step and exactly the ticks it waits. -/
def State.settle (s : State) (m : MicroStep) : State :=
  { s.perform m with now := s.now + BitVec.ofNat 64 m.ticks, dly := 0#32 }

/-- A step list, each micro-step at once and each wait exactly as long as it must be. -/
def State.settleAll (l : List MicroStep) (s : State) : State := l.foldl State.settle s

@[simp] theorem settleAll_nil (s : State) : State.settleAll [] s = s := rfl

@[simp] theorem settleAll_cons (m : MicroStep) (l : List MicroStep) (s : State) :
    State.settleAll (m :: l) s = State.settleAll l (s.settle m) := rfl

@[simp] theorem settleAll_append (a b : List MicroStep) (s : State) :
    State.settleAll (a ++ b) s = State.settleAll b (State.settleAll a s) := by simp [State.settleAll]

theorem perform_now (m : MicroStep) (s : State) : (s.perform m).now = s.now := by cases m <;> rfl

theorem perform_resetPort (m : MicroStep) (s : State) : (s.perform m).resetPort = s.resetPort := by cases m <;> rfl

theorem perform_params (m : MicroStep) (s : State) : (s.perform m).params = s.params := by cases m <;> rfl

theorem perform_dly (m : MicroStep) (s : State) :
    (s.perform m).dly = match m with | .wait n => n | _ => s.dly := by cases m <;> rfl

/-- A micro-step other than `Done` neither reads nor writes SEQ. -/
theorem perform_seq (m : MicroStep) (s : State) (x : Seq) (hm : m ≠ .done) :
    { s with seq := x }.perform m = { s.perform m with seq := x } := by cases m <;> first | rfl | exact absurd rfl hm

theorem settle_resetPort (m : MicroStep) (s : State) : (s.settle m).resetPort = s.resetPort := perform_resetPort m s

theorem settle_dly (m : MicroStep) (s : State) : (s.settle m).dly = 0#32 := rfl

theorem settle_seq (m : MicroStep) (s : State) (x : Seq) (hm : m ≠ .done) :
    { s with seq := x }.settle m = { s.settle m with seq := x } := by
  unfold State.settle
  rw [perform_seq m s x hm]

/-- Without slack, one micro-step and its ticks. -/
theorem runEvents_micro (m : MicroStep) (s : State) (op : BitVec 4) (w : Word) (rest : List MicroStep)
    (evs : List Event) (hr : s.resetPort = false) (hd : s.dly = 0#32) (hseq : s.seq = .running op w (m :: rest)) :
    runEvents (.sequencer false :: (List.replicate m.ticks .tick ++ evs)) s
      = runEvents evs ({ s with seq := .running op w rest }.settle m) := by
  simp only [runEvents, handle_released hr, agentStep, sequencerStep_performs hseq hd]
  rw [runEvents_append, runEvents_ticks m.ticks _ (by rw [perform_resetPort]; exact hr) (by
    rw [perform_dly]; cases m <;> simp [MicroStep.ticks, hd])]
  simp only [perform_now]
  rfl

/-- Without slack, a step list with no `Done` in it, from anywhere (R101, R103). -/
theorem runEvents_zeroSlack (l : List MicroStep) (s : State) (op : BitVec 4) (w : Word) (rest : List MicroStep)
    (evs : List Event) (hr : s.resetPort = false) (hd : s.dly = 0#32) (hseq : s.seq = .running op w (l ++ rest))
    (hl : .done ∉ l) :
    runEvents (zeroSlack l ++ evs) s = runEvents evs { State.settleAll l s with seq := .running op w rest } := by
  induction l generalizing s with
  | nil => simp only [zeroSlack, List.nil_append, settleAll_nil] at *; rw [← hseq]
  | cons m l ih =>
    simp only [List.mem_cons, not_or] at hl
    simp only [zeroSlack, List.cons_append, List.append_assoc]
    rw [runEvents_micro m s op w (l ++ rest) _ hr hd (by rw [hseq]; rfl),
      settle_seq m s _ (fun h => hl.1 h.symm), ih _ (by simpa [settle_resetPort] using hr) (by simp [settle_dly]) rfl hl.2]
    have key : ∀ (l : List MicroStep) (u : State) (x : Seq), .done ∉ l →
        State.settleAll l { u with seq := x } = { State.settleAll l u with seq := x } := by
      intro l
      induction l with
      | nil => intro u x _; rfl
      | cons m l ih =>
        intro u x hl
        simp only [List.mem_cons, not_or] at hl
        rw [settleAll_cons, settle_seq m u x (fun h => hl.1 h.symm), ih _ _ hl.2, settleAll_cons]
    rw [key l _ _ hl.2]
    rfl

/-- What a step list does, field by field, when it is performed without slack. -/
theorem settle_sent (m : MicroStep) (s : State) : (s.settle m).sent = s.sent ++ m.updates := by
  cases m <;> simp [State.settle, State.perform, State.sent, MicroStep.updates, State.configurePins,
    State.backlightReady, State.backlightOff, State.releasePins, State.endCommand]

theorem settleAll_sent (l : List MicroStep) (s : State) : (State.settleAll l s).sent = s.sent ++ updatesOf l := by
  induction l generalizing s with
  | nil => simp
  | cons m l ih => simp [ih, settle_sent]

theorem settleAll_now (l : List MicroStep) (s : State) :
    (State.settleAll l s).now = s.now + BitVec.ofNat 64 (waitTicks l) := by
  induction l generalizing s with
  | nil => simp
  | cons m l ih =>
    rw [settleAll_cons, ih, waitTicks_cons, BitVec.ofNat_add, ← BitVec.add_assoc]
    rfl

theorem settleAll_errcode (l : List MicroStep) (s : State) : (State.settleAll l s).errcode = s.errcode := by
  induction l generalizing s with
  | nil => rfl
  | cons m l ih => rw [settleAll_cons, ih]; cases m <;> rfl

theorem settleAll_fault (l : List MicroStep) (s : State) : (State.settleAll l s).fault = s.fault := by
  induction l generalizing s with
  | nil => rfl
  | cons m l ih => rw [settleAll_cons, ih]; cases m <;> rfl

theorem settleAll_msgBuf (l : List MicroStep) (s : State) : (State.settleAll l s).msgBuf = s.msgBuf := by
  induction l generalizing s with
  | nil => rfl
  | cons m l ih => rw [settleAll_cons, ih]; cases m <;> rfl

theorem settleAll_msgLen (l : List MicroStep) (s : State) : (State.settleAll l s).msgLen = s.msgLen := by
  induction l generalizing s with
  | nil => rfl
  | cons m l ih => rw [settleAll_cons, ih]; cases m <;> rfl

theorem settleAll_params (l : List MicroStep) (s : State) : (State.settleAll l s).params = s.params := by
  induction l generalizing s with
  | nil => rfl
  | cons m l ih => rw [settleAll_cons, ih]; cases m <;> rfl

theorem settleAll_resetPort (l : List MicroStep) (s : State) : (State.settleAll l s).resetPort = s.resetPort := by
  induction l generalizing s with
  | nil => rfl
  | cons m l ih => rw [settleAll_cons, ih, settle_resetPort]

/-- A step list that starts with DLY = 0 leaves it 0. -/
theorem settleAll_dly (l : List MicroStep) (s : State) (h : s.dly = 0#32) : (State.settleAll l s).dly = 0#32 := by
  induction l generalizing s with
  | nil => exact h
  | cons m l ih => exact ih _ rfl

/-! What an agent's step can do. -/

/-- The host's step while a command runs or the block is faulted starts nothing and leaves SEQ. -/
theorem hostStep_seq {s t : State} (h : hostStep s = .next t) (hb : s.busy = true ∨ s.fault = true) : t.seq = s.seq := by
  rcases hostStep_cases h with ⟨-, rfl⟩ | ⟨wd, off, v, rest, -, hw⟩ | ⟨prog, v, rfl | rfl⟩
  · rfl
  · rcases memWrite_cases hw with ⟨c, rfl⟩ | ⟨i, -, hf, hi, -⟩ | rfl | ⟨-, -, rfl⟩ | ⟨-, -, -, rfl⟩ | rfl
    · rfl
    · rcases hb with hb | hb
      · obtain ⟨op, w, l, hr⟩ := (busy_eq_true_iff s).1 hb
        simp [hr] at hi
      · simp [hb] at hf
    · rfl
    · rfl
    · rfl
    · rfl
  · rfl
  · rfl

/-- While a command runs the host's step changes no state of the block but ERRCODE (R56, R203, R204). -/
theorem hostStep_running {s t : State} {op : BitVec 4} {w : Word} {l : List MicroStep} (h : hostStep s = .next t)
    (hs : s.seq = .running op w l) :
    t = { s with errcode := t.errcode, program := t.program, observed := t.observed } := by
  rcases hostStep_cases h with ⟨-, rfl⟩ | ⟨wd, off, v, rest, -, hw⟩ | ⟨prog, v, rfl | rfl⟩
  · rfl
  · rcases memWrite_cases hw with ⟨c, rfl⟩ | ⟨i, -, hf, hi, -⟩ | rfl | ⟨hi, -⟩ | ⟨hi, -⟩ | rfl
    · rfl
    · simp [hs] at hi
    · rfl
    · simp [hs] at hi
    · simp [hs] at hi
    · rfl
  · rfl
  · rfl

/-- Everything an agent's step can do while a command runs. -/
theorem agent_running_cases {ev : Event} {s t : State} {op : BitVec 4} {w : Word} {l : List MicroStep}
    (h : handle ev s = .next t) (ha : isAgent ev = true) (hr : s.resetPort = false) (hs : s.seq = .running op w l) :
    (ev = .tick ∧ t = s.tick)
      ∨ (s.dly ≠ 0#32 ∧ t = s)
      ∨ (t = s.gpioFailure ∨ t = s.toggleFailure)
      ∨ (∃ m rest, l = m :: rest ∧ s.dly = 0#32 ∧ t = { s with seq := .running op w rest }.perform m)
      ∨ t = s
      ∨ t = s.toggle
      ∨ (ev = .host ∧ t = { s with errcode := t.errcode, program := t.program, observed := t.observed }) := by
  rw [handle_released hr] at h
  cases ev with
  | tick => exact .inl ⟨rfl, by simpa [agentStep, eq_comm] using h⟩
  | sequencer b =>
    rcases sequencerStep_cases h with ⟨hi, -⟩ | ⟨_, _, _, -, hd, ht⟩ | ⟨_, _, _, _, -, -, -, -, ht⟩ | ⟨_, _, m, rest, h', hd, -, ht⟩
    · simp [hs] at hi
    · exact .inr (.inl ⟨hd, ht⟩)
    · exact .inr (.inr (.inl (.inl ht)))
    · rw [hs] at h'
      cases h'
      exact .inr (.inr (.inr (.inl ⟨m, rest, rfl, hd, ht⟩)))
  | edge b =>
    simp only [agentStep, Host.Outcome.next.injEq] at h
    rcases edgeStep_cases b s with ⟨-, he⟩ | ⟨-, -, he⟩ | ⟨-, -, he⟩ <;> rw [he] at h <;> subst h
    · exact .inr (.inr (.inr (.inr (.inl rfl))))
    · exact .inr (.inr (.inl (.inr rfl)))
    · exact .inr (.inr (.inr (.inr (.inr (.inl rfl)))))
  | host => exact .inr (.inr (.inr (.inr (.inr (.inr ⟨rfl, hostStep_running h hs⟩)))))
  | setReset b => simp [isAgent] at ha

theorem perform_fault (m : MicroStep) (s : State) : (s.perform m).fault = s.fault := by cases m <;> rfl

theorem hostStep_fault {s t : State} (h : hostStep s = .next t) : t.fault = s.fault := by
  rcases hostStep_cases h with ⟨-, rfl⟩ | ⟨wd, off, v, rest, -, hw⟩ | ⟨prog, v, rfl | rfl⟩
  · rfl
  · rcases memWrite_cases hw with ⟨c, rfl⟩ | ⟨i, -, hf, hi, -, -, rfl⟩ | rfl | ⟨-, -, rfl⟩ | ⟨-, -, -, rfl⟩ | rfl <;> rfl
  · rfl
  · rfl

/-- No agent clears FAULT (R213). -/
theorem agent_fault {ev : Event} {s t : State} (h : handle ev s = .next t) (ha : isAgent ev = true)
    (hf : s.fault = true) : t.fault = true := by
  cases hr : s.resetPort
  · rw [handle_released hr] at h
    cases ev with
    | tick => rw [← hf]; simp only [agentStep, Host.Outcome.next.injEq] at h; rw [← h]; rfl
    | sequencer b =>
      rcases sequencerStep_cases h with ⟨-, rfl⟩ | ⟨_, _, _, -, -, rfl⟩ | ⟨_, _, _, _, -, -, -, -, rfl⟩ | ⟨_, _, m, rest, -, -, -, rfl⟩
      · exact hf
      · exact hf
      · rfl
      · rw [perform_fault]; exact hf
    | edge b =>
      simp only [agentStep, Host.Outcome.next.injEq] at h
      rcases edgeStep_cases b s with ⟨-, he⟩ | ⟨-, -, he⟩ | ⟨-, -, he⟩ <;> rw [he] at h <;> subst h
      · exact hf
      · rfl
      · exact hf
    | host => rw [hostStep_fault h]; exact hf
    | setReset b => simp [isAgent] at ha
  · obtain ⟨b, hb⟩ := handle_in_reset (ev := ev) hr
    rw [hb] at h
    simp only [Host.Outcome.next.injEq] at h
    rw [← h]; exact hf

/-- No agent moves RESET. -/
theorem agent_resetPort {ev : Event} {s t : State} (h : handle ev s = .next t) (ha : isAgent ev = true) :
    t.resetPort = s.resetPort := by
  cases hr : s.resetPort
  · rw [handle_released hr] at h
    cases ev with
    | tick => simp only [agentStep, Host.Outcome.next.injEq] at h; rw [← h]; exact hr
    | sequencer b =>
      rcases sequencerStep_cases h with ⟨-, rfl⟩ | ⟨_, _, _, -, -, rfl⟩ | ⟨_, _, _, _, -, -, -, -, rfl⟩ | ⟨_, _, m, rest, -, -, -, rfl⟩
      · exact hr
      · exact hr
      · exact hr
      · rw [perform_resetPort]; exact hr
    | edge b =>
      simp only [agentStep, Host.Outcome.next.injEq] at h
      rcases edgeStep_cases b s with ⟨-, he⟩ | ⟨-, -, he⟩ | ⟨-, -, he⟩ <;> rw [he] at h <;> subst h <;> exact hr
    | host =>
      rcases hostStep_cases h with ⟨-, rfl⟩ | ⟨wd, off, v, rest, -, hw⟩ | ⟨prog, v, rfl | rfl⟩
      · exact hr
      · rcases memWrite_cases hw with ⟨c, rfl⟩ | ⟨i, -, hf, hi, -, -, rfl⟩ | rfl | ⟨-, -, rfl⟩ | ⟨-, -, -, rfl⟩ | rfl <;> exact hr
      · exact hr
      · exact hr
    | setReset b => simp [isAgent] at ha
  · cases ev <;> simp [handle, hr, isAgent] at h ha <;> rw [← h] <;> exact hr

/-- A GPIO failure, of either agent, faults the block and aborts the command (R212). -/
theorem failure_faults {s t : State} (h : t = s.gpioFailure ∨ t = s.toggleFailure) :
    t.fault = true ∧ t.seq = .idle ∧ t.togEn = false := by
  rcases h with rfl | rfl <;> exact ⟨rfl, rfl, rfl⟩

/-- One event first, then the rest. -/
theorem runEvents_cons {ev : Event} {evs : List Event} {s u : State} (h : runEvents (ev :: evs) s = .next u) :
    ∃ t, handle ev s = .next t ∧ runEvents evs t = .next u := by
  simp only [runEvents] at h
  split at h
  · exact ⟨_, ‹_›, h⟩
  · simp at h
  · simp at h

theorem runEvents_fault {evs : List Event} {s t : State} (h : runEvents evs s = .next t) (ha : evs.all isAgent = true)
    (hf : s.fault = true) : t.fault = true := by
  induction evs generalizing s with
  | nil => simp only [runEvents, Host.Outcome.next.injEq] at h; rw [← h]; exact hf
  | cons ev evs ih =>
    obtain ⟨u, hu, h'⟩ := runEvents_cons h
    simp only [List.all_cons, Bool.and_eq_true] at ha
    exact ih h' ha.2 (agent_fault hu ha.1 hf)

/-! The schedule is read by the step alone. -/

/-- A state with another schedule. -/
def State.atSchedule (s : State) (x : List Event) : State := { s with schedule := x }

/-- An outcome's next state with another schedule. -/
def withSchedule (x : List Event) : Host.Outcome State Fault Refusal → Host.Outcome State Fault Refusal
  | .next s => .next (s.atSchedule x)
  | .fault r => .fault r
  | .refused r => .refused r

theorem exec_schedule (i : Instr) (s : State) (x : List Event) :
    exec i (s.atSchedule x) = withSchedule x (exec i s) := by
  rw [exec_eq_takeCommand, exec_eq_takeCommand]
  simp only [State.takeCommand]
  have hc : (s.atSchedule x).commandCheck i.wellFormed (wantsInited i) = s.commandCheck i.wellFormed (wantsInited i) := rfl
  rw [hc]
  cases s.commandCheck i.wellFormed (wantsInited i) <;> rfl

theorem memWrite_schedule (wd : Width) (off : Offset) (v : Word) (s : State) (x : List Event) :
    memWrite wd off v (s.atSchedule x) = withSchedule x (memWrite wd off v s) := by
  unfold memWrite acceptCommand
  split
  · split
    · have hf : (s.atSchedule x).fault = s.fault := rfl
      have hb : (s.atSchedule x).busy = s.busy := rfl
      rw [hf, hb]
      cases s.fault
      · cases s.busy
        · simp only [Bool.false_eq_true, if_false]
          cases decode v
          · rfl
          · exact exec_schedule _ s x
        · rfl
      · rfl
    · split
      · split <;> rfl
      · split
        · unfold State.writeMsgLen
          have hb : (s.atSchedule x).busy = s.busy := rfl
          rw [hb]
          split
          · rfl
          · split <;> rfl
        · split
          · rfl
          · unfold State.writeMsgBuf
            have hb : (s.atSchedule x).busy = s.busy := rfl
            rw [hb]
            split <;> rfl
  · rfl

theorem hostStep_schedule (s : State) (x : List Event) : hostStep (s.atSchedule x) = withSchedule x (hostStep s) := by
  unfold hostStep
  have hp : (s.atSchedule x).program = s.program := rfl
  rw [hp]
  rcases s.program with _ | ⟨o, rest⟩
  · rfl
  · cases o with
    | write wd off v => exact memWrite_schedule wd off v { s with program := rest } x
    | read wd off => simp only [State.afterRead]; split <;> rfl
    | poll off a b => simp only [State.afterRead]; split <;> rfl

/-- An event neither reads nor writes the schedule. -/
theorem handle_schedule (ev : Event) (s : State) (x : List Event) :
    handle ev (s.atSchedule x) = withSchedule x (handle ev s) := by
  unfold handle
  have hr : (s.atSchedule x).resetPort = s.resetPort := rfl
  rw [hr]
  cases s.resetPort
  · cases ev with
    | tick => rfl
    | sequencer b =>
      simp only [Bool.false_eq_true, if_false, agentStep]
      unfold sequencerStep
      have hs : (s.atSchedule x).seq = s.seq := rfl
      have hd : (s.atSchedule x).dly = s.dly := rfl
      rw [hs, hd]
      cases s.seq with
      | idle => rfl
      | running op w l =>
        simp only
        split
        · rfl
        · cases l with
          | nil => rfl
          | cons m rest =>
            simp only
            split
            · rfl
            · cases m <;> rfl
    | edge b =>
      simp only [Bool.false_eq_true, if_false, agentStep]
      unfold edgeStep
      have he : (s.atSchedule x).edgeAccepted = s.edgeAccepted := rfl
      rw [he]
      split
      · split <;> rfl
      · rfl
    | host => exact hostStep_schedule s x
    | setReset b =>
      simp only [Bool.false_eq_true, if_false, agentStep]
      cases b <;> rfl
  · cases ev <;> rfl

end Sys2Proof.Machine
end

