-- ==== Sys2Proof/Tests/Slice0.lean ====
section
/-! SUPPORT. Tests: expected values are those of 95_test_vectors.md or worked out by hand from the numbered rules. -/

namespace Sys2Proof.Tests

open Sys2Proof.Machine

/-! ## Helpers -/

/-- Fields all 0. -/
def f0 : Fields := ⟨0#2, 0#2, false, 0#3, .command, false, 0x00#8⟩

/-- "hi" -/
def hi : List Byte := [0x68#8, 0x69#8]

/-- "X" -/
def x : List Byte := [0x58#8]

/-- `n` spaces. -/
def sp (n : Nat) : List Byte := List.replicate n 0x20#8

/-- S0 of 95_test_vectors.md, with a schedule that lists one tick. -/
def s0 : State := { State.reset with schedule := [.tick] }

/-- S1 of 95_test_vectors.md: after `run init`, the last byte sent being 0x01. -/
def s1 : State :=
  { State.reset with
    inited := true
    togEn := true
    blState := true
    now := 1800#64
    pincfg := .configured
    pins := { rs := .lo, e := .lo, d0 := .hi, d1 := .lo, d2 := .lo, d3 := .lo, bl := .hi }
    btnCfg := some { pull := .down, debounceMs := 700 }
    schedule := [.tick] }

/-- S2 of 95_test_vectors.md: S1 with CLEAR running. -/
def s2 : State := { s1 with seq := .running 3#4 0x00000003#32 (clearSteps Params.default) }

/-- S1 with a command running that has one step list of the test's choice left. -/
def s1Running (steps : List MicroStep) : State := { s1 with seq := .running 3#4 0x00000003#32 steps }

/-- S0 with INIT running and the given steps left. -/
def s0Running (steps : List MicroStep) : State := { s0 with seq := .running 1#4 0x00000001#32 steps }

/-- S1 after F15 of 95_test_vectors.md: faulted, the error cleared. -/
def s1Faulted : State := { s1 with fault := true, togEn := false }

/-- STATUS after one host write. -/
def statusAfter (wd : Width) (off : Offset) (v : Word) (s : State) : Option Word :=
  match memWrite wd off v s with
  | .next t => some t.status
  | .fault _ => none
  | .refused _ => none

/-- A field of the state after an event. -/
def after {α : Type} (ev : Event) (s : State) (g : State → α) : Option α :=
  match handle ev s with
  | .next t => some (g t)
  | .fault _ => none
  | .refused _ => none

/-- What a receiver that samples RS and D when E falls gets from a step list. -/
def strobes (rs : Bool) (d : Nibble) : List MicroStep → List (Bool × Nibble)
  | [] => []
  | .pin (.rs b) :: l => strobes b d l
  | .pin (.d n) :: l => strobes rs n l
  | .pin (.e false) :: l => (rs, d) :: strobes rs d l
  | _ :: l => strobes rs d l

/-- Two strobes to a byte. -/
def pairs : List (Bool × Nibble) → List (Bool × Byte)
  | (m, h) :: (_, l) :: rest => (m, h ++ l) :: pairs rest
  | _ => []

/-- The bytes a step list sends, each with true for a Character. -/
def sent (steps : List MicroStep) : List (Bool × Byte) := pairs (strobes false 0#4 steps)

/-- A line's bytes: the address, then the text. -/
def wl (addr : Byte) (text : List Byte) : List (Bool × Byte) := (false, addr) :: text.map fun c => (true, c)

/-! ## Well-formedness: an ill-formed command for each check -/

theorem test_writeLine_style3_illformed : (Instr.writeLine { f0 with style := 3#2 }).wellFormed = false := by decide

theorem test_animDown_style3_illformed : (Instr.animDown { f0 with style := 3#2 }).wellFormed = false := by decide

theorem test_animLeft_style3_wellformed : (Instr.animLeft { f0 with style := 3#2 }).wellFormed = true := by decide

/-! ## Decoding: words written out from R81's pattern rrrrrrrr VVVVVVVV rr A M NNN T SS LL OOOO (EN1 to EN30) -/

theorem test_decode_init : decode 0b00000000_00000000_00_1_0_000_0_00_00_0001#32 = .ok (.init { f0 with autocfg := true }) := by
  rfl

theorem test_decode_writeLine :
    decode 0b00000000_00000000_00_0_0_000_0_10_01_0010#32 = .ok (.writeLine { f0 with line := 1#2, style := 2#2 }) := by rfl

theorem test_decode_clear : decode 0b00000000_00000000_00_0_0_000_0_00_00_0011#32 = .ok (.clear f0) := by rfl

theorem test_decode_animLeft : decode 0b00000000_00000000_00_0_0_000_0_00_10_0100#32 = .ok (.animLeft { f0 with line := 2#2 }) := by
  rfl

theorem test_decode_animRight : decode 0b00000000_00000000_00_0_0_000_0_00_11_0101#32 = .ok (.animRight { f0 with line := 3#2 }) := by
  rfl

theorem test_decode_animDown :
    decode 0b00000000_00000000_00_0_0_100_1_10_00_0110#32
      = .ok (.animDown { f0 with style := 2#2, trail := true, nlines := 4#3 }) := by rfl

theorem test_decode_shutdown : decode 0b00000000_00000000_00_0_0_000_0_00_00_0111#32 = .ok (.shutdown f0) := by rfl

theorem test_decode_transmit :
    decode 0b00000000_01000001_00_0_1_000_0_00_00_1000#32 = .ok (.transmit { f0 with mode := .character, value := 0x41#8 }) := by
  rfl

theorem test_decode_EN20 : decode 0x00003001#32 = .ok (.init { f0 with autocfg := true, mode := .character }) := by rfl

theorem test_decode_EN21 : decode 0x00000000#32 = .error .illegalOp := by rfl

theorem test_decode_EN24 : decode 0x01000002#32 = .error .reservedBits := by rfl

theorem test_decode_EN25 : decode 0x00004001#32 = .error .reservedBits := by rfl

theorem test_decode_EN28 : decode 0x000000C2#32 = .error .badField := by rfl

theorem test_decode_EN29 : decode 0x000000C6#32 = .error .badField := by rfl

theorem test_decode_EN30 : decode 0x010000C2#32 = .error .reservedBits := by rfl

theorem test_decodeTableWord : decodeTableWord 32 0x00000035 = some (.animRight { f0 with line := 3#2 }) := by rfl

theorem test_encode_EN11 : encode (.animDown { f0 with style := 1#2, trail := true, nlines := 2#3 }) = 0x00000546#32 := by rfl

theorem test_assemble_EN10 : assemble (.adown .center false none) = some 0x00000846#32 := by rfl

theorem test_assemble_refuses : assemble (.wline 5 .left) = none ∧ assemble (.adown .left true (some 8)) = none
    ∧ assemble (.tx 256 .command) = none := by decide

/-! ## The commands -/

/-- I1: the six bytes of INIT, in Command mode. -/
theorem test_init_bytes :
    sent (expand .default [] (.init f0)) = [0x33#8, 0x32#8, 0x06#8, 0x0C#8, 0x28#8, 0x01#8].map fun b => (false, b) := by
  decide +kernel

/-- I1: STATUS after the third pin event. -/
theorem test_init_status : after (.sequencer false) (s0Running [.backlightReady, .done]) State.status = some 0x00001209#32 := by
  decide

/-- W1. -/
theorem test_writeLine_W1 :
    sent (expand .default hi (.writeLine { f0 with line := 1#2, style := 2#2 })) = wl 0xC0#8 (sp 18 ++ hi) := by
  decide +kernel

/-- W7. -/
theorem test_clear_W7 :
    sent (expand .default hi (.clear f0)) = wl 0x80#8 (sp 20) ++ wl 0xC0#8 (sp 20) ++ wl 0x94#8 (sp 20) ++ wl 0xD4#8 (sp 20) := by
  decide +kernel

/-- AL1: frames 1, 2, 3 and 20. -/
theorem test_animLeft_AL1 :
    justify (accLeft hi 1) .right = sp 19 ++ [0x68#8] ∧ justify (accLeft hi 2) .right = sp 18 ++ hi
      ∧ justify (accLeft hi 3) .right = sp 17 ++ hi ++ sp 1 ∧ justify (accLeft hi 20) .right = hi ++ sp 18 := by
  decide

/-- AR1: frames 20, 19, 18, 17 and 0. -/
theorem test_animRight_AR1 :
    justify (accRight hi 0) .left = sp 20 ∧ justify (accRight hi 1) .left = [0x69#8] ++ sp 19
      ∧ justify (accRight hi 2) .left = hi ++ sp 18 ∧ justify (accRight hi 3) .left = sp 1 ++ hi ++ sp 17
      ∧ justify (accRight hi 20) .left = sp 18 ++ hi := by
  decide

/-- AR5: frames 20, 2 and 0 of a 22-byte message, here the bytes 0 to 21. -/
theorem test_animRight_AR5 :
    let m : List Byte := (List.range 22).map (BitVec.ofNat 8)
    justify (accRight m 0) .left = [20#8, 21#8] ++ sp 18
      ∧ justify (accRight m 18) .left = (List.range 20).map (fun k => BitVec.ofNat 8 (k + 2))
      ∧ justify (accRight m 20) .left = (List.range 20).map (BitVec.ofNat 8) := by
  decide

/-- AD3. -/
theorem test_animDown_AD3 :
    sent (expand .default x (.animDown { f0 with style := 1#2, nlines := 2#3 }))
      = wl 0xD4#8 (sp 20) ++ wl 0x80#8 (sp 9 ++ x ++ sp 10) ++ wl 0x80#8 (sp 20) ++ wl 0xC0#8 (sp 9 ++ x ++ sp 10) := by
  decide +kernel

/-- AD1: two lines, no blank, one frame delay between them. -/
theorem test_animDown_AD1 :
    sent (expand .default x (.animDown { f0 with style := 1#2, trail := true, nlines := 2#3 }))
      = wl 0x80#8 (sp 9 ++ x ++ sp 10) ++ wl 0xC0#8 (sp 9 ++ x ++ sp 10)
      ∧ (expand .default x (.animDown { f0 with style := 1#2, trail := true, nlines := 2#3 })).getLast? = some .done := by
  decide +kernel

/-- I3: what SHUTDOWN does after the bytes of W7. -/
theorem test_shutdown_I3 :
    (expand .default hi (.shutdown f0)).drop (84 * 15) = [.backlightOff, .releasePins, .setInited false, .done] := by
  decide +kernel

/-- X1: the strobes of 0xA5, and the least duration. -/
theorem test_transmit_X1 :
    strobes true 0#4 (expand .default [] (.transmit { f0 with value := 0xA5#8 })) = [(false, 0b1010#4), (false, 0b0101#4)]
      ∧ waitTicks (expand .default [] (.transmit { f0 with value := 0xA5#8 })) = 300 := by
  decide

/-- X5: the data lines of 0x5A, low phase. -/
theorem test_transmit_X5 : strobes false 0#4 (tx .default 0x5A#8 .character) = [(true, 0b0101#4), (true, 0b1010#4)] := by decide

/-- J5 and J9: the odd space goes right. -/
theorem test_justify_center :
    justify [0x61#8, 0x62#8, 0x63#8] .center = sp 8 ++ [0x61#8, 0x62#8, 0x63#8] ++ sp 9
      ∧ justify (List.replicate 19 0x41#8) .center = List.replicate 19 0x41#8 ++ sp 1 := by
  decide

/-! ## STATUS and errors (F1 to F19) -/

theorem test_status_s1 : s1.status = 0x0000020A#32 ∧ s2.status = 0x0000320B#32 := by decide

theorem test_F1 : statusAfter .w32 0x00#7 0x00000002#32 s0 = some 0x00000040#32 := by decide

theorem test_F2 : statusAfter .w32 0x00#7 0x00000000#32 s0 = some 0x00000010#32 := by decide

theorem test_F3 : statusAfter .w32 0x00#7 0x01000002#32 s0 = some 0x00000020#32 := by decide

theorem test_F4 : statusAfter .w32 0x00#7 0x000000C2#32 s0 = some 0x00000030#32 := by decide

theorem test_F5 : statusAfter .w32 0x00#7 0x00000001#32 s1 = some 0x0000025A#32 := by decide

theorem test_F6 : statusAfter .w32 0x00#7 0x00000003#32 s2 = some 0x0000326B#32 := by decide

theorem test_F8 : statusAfter .w32 0x08#7 5#32 s2 = some 0x0000326B#32 ∧ statusAfter .w8 0x40#7 0x41#32 s2 = some 0x0000326B#32 := by
  decide

theorem test_F9 : statusAfter .w32 0x08#7 65#32 s0 = some 0x00000070#32 := by decide

theorem test_F10 : statusAfter .w16 0x00#7 1#32 s0 = some 0x00000080#32 := by decide

theorem test_F11 : (s0.afterRead .w8 0x04#7).status = 0x00000080#32 ∧ s1.memRead .w8 0x04#7 = 0#32 := by decide

theorem test_F12 : statusAfter .w32 0x42#7 0#32 s0 = some 0x00000080#32 ∧ statusAfter .w16 0x41#7 0#32 s0 = some 0x00000080#32 := by
  decide

theorem test_F13 : statusAfter .w16 0x00#7 3#32 s2 = some 0x0000328B#32 := by decide

/-- F14: the pin levels after it are free, so STATUS alone is compared. -/
theorem test_F14 : after (.sequencer true) s2 State.status = some 0x000000AE#32 := by decide

theorem test_F16 : statusAfter .w32 0x00#7 0x00000003#32 s1Faulted = some 0x0000009E#32 := by decide

theorem test_F17 : statusAfter .w32 0x08#7 3#32 s1Faulted = some 0x0000000E#32 := by decide

theorem test_F19 : statusAfter .w32 0x04#7 0x100#32 { s0 with errcode := .notInit } = some 0x00000000#32 := by decide

/-! ## The register window (M1 to M10) -/

/-- MSG_BUF after M1's write. -/
def m1 : State := { s0 with msgBuf := [(0x40, 0x61#8), (0x41, 0x62#8), (0x42, 0x63#8), (0x43, 0x64#8)] }

theorem test_M1_write : memWrite .w32 0x40#7 0x64636261#32 s0 = .next m1 := by rfl

theorem test_M1_M2_read : m1.memRead .w8 0x40#7 = 0x61#32 ∧ m1.memRead .w8 0x43#7 = 0x64#32
    ∧ m1.memRead .w16 0x42#7 = 0x6463#32 ∧ m1.memRead .w32 0x40#7 = 0x64636261#32 := by decide

theorem test_M4 : m1.memRead .w32 0x00#7 = 0#32 := by decide

theorem test_M6 : memWrite .w32 0x08#7 64#32 s0 = .next { s0 with msgLen := 64#7 } := by rfl

theorem test_M8 : memWrite .w32 0x04#7 0xFFFFFEFF#32 s1 = .next s1 := by rfl

theorem test_M10 : s0.memRead .w32 0x7C#7 = 0#32 := by decide

/-- Writing 0x00, what an unlisted byte reads as, takes the cell out. -/
theorem test_write_zero_canonical :
    memWrite .w8 0x41#7 0x00#32 m1 = .next { m1 with msgBuf := [(0x40, 0x61#8), (0x42, 0x63#8), (0x43, 0x64#8)] } := by rfl

/-! ## The toggler (T1 to T8) -/

/-- What an edge event leaves of BL_STATE, BL_LAST and the BL pin. -/
def edge (s : State) : Option (Bool × Tick × Level) := after (.edge false) s fun t => (t.blState, t.blLast, t.pins.bl)

theorem test_T1 : edge { s1 with now := 700000#64 } = some (true, 0#64, .hi) := by decide

theorem test_T2 : edge { s1 with now := 700001#64 } = some (false, 700001#64, .lo) := by decide

theorem test_T7 : edge { s0 with now := 700001#64 } = some (false, 0#64, .z) := by decide

theorem test_T8 :
    edge { s1 with blLast := 18446744073709551606#64, now := 699991#64 } = some (false, 699991#64, .lo) := by decide

/-! ## A step runs the command placed for it -/

theorem test_withFetchWord_init : step (State.reset.withFetchWord 32 0x00000001)
    = .next { State.reset with seq := .running 1#4 0x00000001#32 (initSteps Params.default) } := by rfl

theorem test_withFetchWord_clear : (match step (State.reset.withFetchWord 32 0x00000003) with
    | .next t => some t.status
    | .fault _ => none
    | .refused _ => none) = some 0x00000040#32 := by decide

/-! ## Witnesses: each statement's hypotheses are met together, clause by clause at the ends of its ranges -/

theorem witness_DecodeEncodeAgree :
    (Instr.init f0).wellFormed = true ∧ (Instr.writeLine { f0 with style := 2#2 }).wellFormed = true
      ∧ (Instr.clear { f0 with style := 3#2 }).wellFormed = true
      ∧ (Instr.animDown { f0 with style := 2#2, nlines := 7#3 }).wellFormed = true
      ∧ (Instr.transmit { f0 with value := 0xFF#8 }).wellFormed = true := by decide

theorem witness_DecodedWordIsEncoded : decode 0x00FF3FF8#32 = .ok (.transmit ⟨3#2, 3#2, true, 7#3, .character, true, 0xFF#8⟩) := by
  rfl

theorem witness_IllegalAndReservedWordsRefused :
    s0.fault = false ∧ s0.seq = .idle
      ∧ (0x00000010#32).toNat % 16 = 0 ∧ 9 ≤ (0x00000009#32).toNat % 16 ∧ 9 ≤ (0xFFFFFFFF#32).toNat % 16
      ∧ (1 ≤ (0x00004001#32).toNat % 16 ∧ (0x00004001#32).toNat % 16 ≤ 8 ∧ 0x00004001#32 &&& 0xFF00C000#32 ≠ 0#32)
      ∧ (1 ≤ (0x80000008#32).toNat % 16 ∧ (0x80000008#32).toNat % 16 ≤ 8 ∧ 0x80000008#32 &&& 0xFF00C000#32 ≠ 0#32) := by
  decide

theorem witness_ReservedStyleRefused :
    s0.fault = false ∧ s0.seq = .idle
      ∧ ((0x000000C2#32).toNat % 16 = 2 ∧ 0x000000C2#32 &&& 0xFF00C000#32 = 0#32 ∧ 0x000000C2#32 &&& 0xC0#32 = 0xC0#32)
      ∧ ((0x00FF3FF6#32).toNat % 16 = 6 ∧ 0x00FF3FF6#32 &&& 0xFF00C000#32 = 0#32 ∧ 0x00FF3FF6#32 &&& 0xC0#32 = 0xC0#32) := by
  decide

theorem witness_LineCountIsClamped :
    f0.nlines = 0#3 ∧ f0.lineCount = 1 ∧ (1 ≤ ({ f0 with nlines := 1#3 } : Fields).nlines.toNat)
      ∧ ({ f0 with nlines := 4#3 } : Fields).nlines.toNat ≤ 4 ∧ 5 ≤ ({ f0 with nlines := 5#3 } : Fields).nlines.toNat
      ∧ 5 ≤ ({ f0 with nlines := 7#3 } : Fields).nlines.toNat ∧ ({ f0 with nlines := 7#3 } : Fields).lineCount = 4 := by
  decide

/-- Every field the opcode does not use differs. -/
theorem witness_UnusedFieldsIgnored :
    sameUsedFields (.init f0) (.init ⟨3#2, 3#2, true, 7#3, .character, true, 0xFF#8⟩)
      ∧ sameUsedFields (.writeLine f0) (.writeLine ⟨0#2, 0#2, true, 7#3, .character, true, 0xFF#8⟩)
      ∧ sameUsedFields (.animLeft f0) (.animLeft ⟨0#2, 3#2, true, 7#3, .character, true, 0xFF#8⟩)
      ∧ sameUsedFields (.animDown f0) (.animDown ⟨3#2, 0#2, false, 0#3, .character, true, 0xFF#8⟩)
      ∧ sameUsedFields (.transmit f0) (.transmit ⟨3#2, 3#2, true, 7#3, .command, true, 0x00#8⟩) := by
  refine ⟨⟨rfl, trivial⟩, ⟨rfl, rfl, rfl⟩, ⟨rfl, rfl⟩, ⟨rfl, rfl, rfl, rfl⟩, ⟨rfl, rfl, rfl⟩⟩

theorem witness_StepRunsDecodedCommand :
    decode (BitVec.ofNat 32 (0x92 % 2 ^ 32)) = .ok (.writeLine { f0 with line := 1#2, style := 2#2 })
      ∧ ({ s1 with schedule := [.host], program := [.write .w32 0x00#7 0x00000003#32] } : State).resetPort = false
      ∧ decode 0x00000003#32 = .ok (.clear f0) := by
  exact ⟨rfl, rfl, rfl⟩

theorem witness_AcceptanceInOrder :
    Width.w8 ≠ Width.w32 ∧ s1Faulted.fault = true ∧ (s2.fault = false ∧ s2.seq ≠ .idle)
      ∧ (s0.fault = false ∧ s0.seq = .idle ∧ decode 0x000000C2#32 = .error .badField)
      ∧ (decode 0x00000003#32 = .ok (.clear f0) ∧ opField 0x00000003#32 ≠ 1#4 ∧ s0.inited = false)
      ∧ (decode 0x00000001#32 = .ok (.init f0) ∧ opField 0x00000001#32 = 1#4 ∧ s1.inited = true)
      ∧ (opField 0x00000003#32 = 1#4 ↔ s1.inited = false) ∧ (opField 0x00000001#32 = 1#4 ↔ s0.inited = false) := by
  refine ⟨by decide, rfl, ⟨rfl, by decide⟩, ⟨rfl, rfl, rfl⟩, ⟨rfl, by decide, rfl⟩, ⟨rfl, rfl, rfl⟩, by decide, by decide⟩

theorem witness_CommandFrame :
    exec (.clear f0) s1 = .next s2 ∧ exec (.clear f0) s0 = .next { s0 with errcode := .notInit } := by
  exact ⟨rfl, rfl⟩

/-- For LineCommandsStart, LifecycleCommandsStart, AnimLeftStarts, AnimRightStarts and AnimDownStarts. -/
theorem witness_CommandsStart :
    s1.fault = false ∧ s1.seq = .idle ∧ s1.inited = true ∧ s0.fault = false ∧ s0.seq = .idle ∧ s0.inited = false
      ∧ f0.style ≠ 3#2 ∧ ({ f0 with style := 2#2 } : Fields).style ≠ 3#2 := by decide

theorem witness_TransmissionTrace :
    (s1Running (tx s1.params 0xA5#8 .command ++ [.done])).seq
        = .running 3#4 0x00000003#32 (tx s1.params 0xA5#8 .command ++ [.done])
      ∧ (s1Running (tx s1.params 0xA5#8 .command ++ [.done])).dly = 0#32
      ∧ (s1Running (tx s1.params 0xA5#8 .command ++ [.done])).resetPort = false := ⟨rfl, rfl, rfl⟩

theorem witness_AnimationCounts :
    Params.default.tFrame ≠ Params.default.tSettle ∧ Params.default.tFrame ≠ Params.default.tPulse
      ∧ ({ f0 with trail := true } : Fields).trail = true ∧ f0.trail = false := by decide

theorem witness_StrobesKeepTheirTimes : exec (.clear f0) s1 = .next s2 ∧ s1.seq = .idle := ⟨rfl, rfl⟩

theorem witness_TickAdvancesTime :
    s1.resetPort = false ∧ s1.dly = 0#32 ∧ ({ s2 with dly := 1#32, now := 18446744073709551615#64 } : State).dly ≠ 0#32 := by
  decide

/-- A wait of two ticks, and a run that gets past it. -/
theorem witness_WaitLastsAtLeastN :
    let s := s1Running [.wait 2#32, .setInited true, .done]
    let t : State := { s1Running [.setInited true, .done] with dly := 2#32 }
    s.dly = 0#32 ∧ s.resetPort = false
      ∧ ([Event.tick, .sequencer false, .tick, .sequencer false] : List Event).all isAgent = true
      ∧ runEvents [.tick, .sequencer false, .tick, .sequencer false] t
        = .next { s1Running [.done] with now := 1802#64 } := by
  refine ⟨rfl, rfl, rfl, rfl⟩

/-- A whole command, its wait of two ticks and `Done`. -/
theorem witness_NoCommandIsFasterThanItsWaits :
    (s1Running ([.wait 2#32] ++ [.done])).seq = .running 3#4 0x00000003#32 ([.wait 2#32] ++ [.done])
      ∧ MicroStep.done ∉ [MicroStep.wait 2#32]
      ∧ after (.sequencer false) (s1Running [.wait 2#32, .done]) State.dly = some 2#32
      ∧ after .tick { s1Running [.done] with dly := 2#32 } State.dly = some 1#32
      ∧ after .tick { s1Running [.done] with dly := 1#32 } State.dly = some 0#32
      ∧ after (.sequencer false) (s1Running [.done]) (fun t => (t.busy, t.fault)) = some (false, false) := by
  decide

theorem witness_CommandsRunToDone :
    s0.inited = wantsInited (.init f0) ∧ s1.inited = wantsInited (.animRight f0) ∧ (Instr.animRight f0).wellFormed = true
      ∧ s1.fault = false ∧ s1.seq = .idle ∧ s1.dly = 0#32 ∧ s1.resetPort = false := by decide

/-- A schedule that takes the tick and the sequencer in turn is fair. -/
theorem witness_FairSchedulesEndEveryCommand :
    let sched : Nat → Event := fun n => if n % 2 = 0 then .tick else .sequencer false
    fairSchedule sched ∧ (∀ n, isAgent (sched n) = true)
      ∧ (s1Running ([.wait 1#32] ++ [.done])).seq = .running 3#4 0x00000003#32 ([.wait 1#32] ++ [.done])
      ∧ s1.resetPort = false := by
  refine ⟨⟨fun n => ⟨2 * n, by omega, by simp⟩, fun n => ⟨2 * n + 1, false, by omega, by simp⟩⟩, fun n => ?_, rfl, rfl⟩
  dsimp only
  split <;> rfl

theorem witness_ScheduleCannotChangeACommand :
    let s : State := { s1Running ([.pin (.rs true)] ++ [.done]) with program := [.read .w32 0x04#7] }
    MicroStep.done ∉ [MicroStep.pin (.rs true)] ∧ s.resetPort = false
      ∧ (∀ v, HostOp.write .w32 0x00#7 v ∉ s.program)
      ∧ ([Event.host, .sequencer false, .edge false] : List Event).all isAgent = true
      ∧ after (.sequencer false) s (fun t => (t.fault, t.sentDisplay)) = some (false, [.write (.rs true)]) := by
  refine ⟨by decide, rfl, by intro v; simp, rfl, by decide⟩

theorem witness_MessageFrozenWhileBusy :
    s2.busy = true ∧ isAgent .host = true ∧ handle .host s2 = .next s2 ∧ admitted .w32 0x40#7 = true ∧ admitted .w8 0x7F#7 = true := by
  refine ⟨rfl, rfl, rfl, rfl, rfl⟩

theorem witness_ToggleRule :
    s1.resetPort = false
      ∧ (s1.togEn = true ∧ s1.params.tDebounce.toNat < ((700001#64).toNat + 2 ^ 64 - s1.blLast.toNat) % 2 ^ 64)
      ∧ ¬ (s1.togEn = true ∧ s1.params.tDebounce.toNat < ((700000#64).toNat + 2 ^ 64 - s1.blLast.toNat) % 2 ^ 64) := by
  decide

/-- An accepted event, then one at the window's very end, T_DEBOUNCE = 1. -/
theorem witness_SecondEdgeInWindowRefused :
    let s : State := { s1 with params := { Params.default with tDebounce := 1#64 } }
    s.edgeAccepted = true ∧ s.resetPort = false ∧ handle (.edge false) s = .next s.toggle
      ∧ runEvents [.tick] s.toggle = .next s.toggle.tick
      ∧ ([Event.tick] : List Event).count .tick ≤ s.params.tDebounce.toNat
      ∧ { s1 with now := 700000#64 }.edgeAccepted = false := by
  refine ⟨by decide, rfl, rfl, rfl, by decide, by decide⟩

theorem witness_EdgeWithoutEffect :
    s0.togEn = false ∧ (700000#64 - s1.blLast).toNat ≤ s1.params.tDebounce.toNat := by decide

theorem witness_TogglerAndSequencerIndependent :
    handle (.edge false) { s2 with now := 700001#64 } = .next { s2 with now := 700001#64 }.toggle
      ∧ sequencerStep false (s1Running [.backlightOff, .done]) = .next (s1Running [.done]).backlightOff := by
  exact ⟨rfl, rfl⟩

theorem witness_LifecycleBitsChangeOnlyAtTheirSteps :
    after (.sequencer false) (s0Running [.setInited true, .done]) State.inited = some true
      ∧ after (.sequencer false) (s0Running [.backlightReady, .done]) State.togEn = some true
      ∧ after (.sequencer false) (s1Running [.backlightOff, .done]) State.togEn = some false
      ∧ after (.sequencer true) (s1Running [.pin (.rs true), .done]) (fun t => (t.togEn, t.fault)) = some (false, true) := by
  decide

theorem witness_GpioFailureAborts :
    (s1Running [.releasePins, .done]).seq = .running 3#4 0x00000003#32 (.releasePins :: [.done])
      ∧ (s1Running [.releasePins, .done]).dly = 0#32 ∧ (s1Running [.releasePins, .done]).resetPort = false
      ∧ (s1Running [.done]).seq = .running 3#4 0x00000003#32 (.done :: [])
      ∧ { s1 with now := 700001#64 }.edgeAccepted = true := by
  refine ⟨rfl, rfl, rfl, rfl, by decide⟩

/-- S0 meets the invariant. -/
theorem s0_inv : s0.Inv := by
  refine ⟨⟨rfl, by decide, by decide⟩, ?_, ?_, ?_⟩
  · simp [State.sequencerOk, s0, State.reset, Pins.released]
  · simp [State.pinsOk, s0, State.reset, Pins.released]
  · intro h; simp [s0, State.reset] at h

/-- S1 meets the invariant. -/
theorem s1_inv : s1.Inv := by
  refine ⟨⟨rfl, by decide, by decide⟩, ?_, ?_, ?_⟩
  · simp [State.sequencerOk, s1, State.reset]
  · simp [State.pinsOk, s1, State.reset, Level.ofBool]
  · intro h; simp [s1, State.reset] at h

/-- S2, a command running, meets the invariant. -/
theorem s2_inv : s2.Inv := by
  refine ⟨⟨rfl, by decide, by decide⟩, ⟨rfl, ⟨.clear f0, rfl, rfl⟩, ?_⟩, s1_inv.2.2.1, ?_⟩
  · exact staged_expand Params.default [] (by decide) (.clear f0)
  · intro h; simp [s2, s1, State.reset] at h

/-- A faulted state, its pins anything, meets the invariant. -/
theorem s1Faulted_inv : s1Faulted.Inv := by
  refine ⟨⟨rfl, by decide, by decide⟩, ?_, ?_, ?_⟩
  · simp [State.sequencerOk, s1Faulted, s1, State.reset]
  · simp [State.pinsOk, s1Faulted]
  · intro h; simp [s1Faulted, s1, State.reset] at h

theorem witness_FaultedBlock :
    s1Faulted.fault = true ∧ s1Faulted.Inv ∧ s1Faulted.resetPort = false ∧ (64#32).toNat ≤ 64
      ∧ admitted .w8 0x7F#7 = true ∧ 0x40 ≤ (0x40#7).toNat ∧ handle .tick s1Faulted = .next s1Faulted.tick := by
  refine ⟨rfl, s1Faulted_inv, rfl, by decide, rfl, by decide, rfl⟩

theorem witness_FirstErrorKept :
    after .host { s0 with program := [.write .w32 0x00#7 0#32] } State.errcode = some .illegalOp
      ∧ after .host { s0 with errcode := .busy, program := [.write .w32 0x04#7 0x100#32] } State.errcode = some .noError := by
  decide

theorem witness_BadAccessRefused :
    (0x7F#7).toNat % Width.w16.bytes ≠ 0 ∧ ((0x3F#7).toNat < 0x40 ∧ Width.w8 ≠ .w32)
      ∧ ((0x40#7).toNat % Width.w8.bytes = 0 ∧ 0x40 ≤ (0x40#7).toNat) ∧ (0x3C#7).toNat % Width.w32.bytes = 0 := by decide

theorem witness_MessageBufferWrite :
    m1.msgBuf.wf = true ∧ m1.seq = .idle ∧ (0x40#7).toNat % Width.w32.bytes = 0 ∧ (0x7F#7).toNat % Width.w8.bytes = 0
      ∧ (0x7C#7).toNat % Width.w32.bytes = 0 ∧ 0x40 ≤ (0x7C#7).toNat := by decide

theorem witness_MessageWriteChecks :
    Width.w16 ≠ .w32 ∧ s2.busy = true ∧ s1.busy = false ∧ 64 < (65#32).toNat ∧ (64#32).toNat ≤ 64
      ∧ 0x40 ≤ (0x40#7).toNat ∧ (0x42#7).toNat % Width.w32.bytes ≠ 0 ∧ (0x7E#7).toNat % Width.w16.bytes = 0 := by decide

theorem witness_ReservedOffsets :
    0x0C ≤ (0x0C#7).toNat ∧ (0x3C#7).toNat < 0x40 ∧ (0x0C#7).toNat % 4 = 0 ∧ (0x3C#7).toNat % 4 = 0 := by decide

theorem witness_ResetAtOnce : s2.resetPort = false ∧ handle .tick s2.enterReset = .next s2.enterReset := ⟨rfl, rfl⟩

/-- For InvariantNeverStops and ParametersFixed too. -/
theorem witness_StepKeepsInvariant :
    s1.Inv ∧ step s1 = .next { s1 with now := 1801#64, schedule := [] } ∧ s2.Inv := ⟨s1_inv, rfl, s2_inv⟩

theorem witness_MessageFormKept :
    m1.msgBuf.wf = true ∧ m1.msgLen.toNat ≤ 64 ∧ step m1 = .next { m1 with now := 1#64, schedule := [] } := by
  refine ⟨rfl, by decide, rfl⟩

theorem witness_JustifyProperties :
    hi.length ≤ 20 ∧ (sp 20).length ≤ 20 ∧ 20 < (sp 21).length := by decide

/-- A receiver between two bytes. -/
def r0 : Receiver :=
  { configured := true, rs := false, e := false, d := 0#4, half := none, ac := 0#7, ddram := fun _ => 0x20#8 }

theorem witness_WriteLineShowsItsRow :
    (Params.default.lineAddr.get .four).getLsbD 7 = true ∧ r0.configured = true ∧ r0.e = false ∧ r0.half = none
      ∧ ∀ j, j < 20 → (0x13#7) ≠ rowBase .default .four + BitVec.ofNat 7 j := by
  refine ⟨rfl, rfl, rfl, rfl, by decide⟩

/-- For ClearBlanksTheDisplay too, with `r0`. -/
theorem witness_RowsLieApart : rowsApart Params.default ∧ Line.two ≠ Line.one := by
  refine ⟨⟨by intro l; cases l <;> rfl, ?_⟩, by decide⟩
  intro a b hab i j hi hj
  simp only [Config.width] at hi hj
  cases a <;> cases b <;>
    first
    | exact absurd rfl hab
    | (simp only [rowBase, LineAddr.get, Params.default]; bv_omega)

theorem witness_InitRun :
    s0.fault = false ∧ s0.seq = .idle ∧ s0.inited = false ∧ s0.dly = 0#32 ∧ s0.resetPort = false ∧ s0.errcode = .noError
      ∧ s0.params.initSeq = Params.default.initSeq := by decide

theorem witness_ShutdownRun :
    s1.fault = false ∧ s1.seq = .idle ∧ s1.inited = true ∧ s1.dly = 0#32 ∧ s1.resetPort = false ∧ s1.errcode = .noError := by
  decide

theorem witness_AssembledWordsDecode :
    assemble (.adown .right true (some 7)) = some 0x00000F86#32 ∧ assemble (.tx 255 .character) = some 0x00FF1008#32
      ∧ assemble (.wline 4 .right) = some 0x000000B2#32 := by decide

theorem witness_MsgLineSetsTheMessage :
    AsmLine.expand (.msg hi) = some [.write .w8 0x40#7 0x68#32, .write .w8 0x41#7 0x69#32, .write .w32 0x08#7 2#32]
      ∧ s1.msgBuf.wf = true ∧ s1.seq = .idle ∧ s1.resetPort = false ∧ (AsmLine.expand (.msg (sp 64))).isSome = true
      ∧ AsmLine.expand (.msg (sp 65)) = none := by decide

theorem witness_SyncWaitsForBusy :
    ({ s2 with program := [syncOp] } : State).program = syncOp :: [] ∧ s2.busy = true ∧ s1.busy = false := by decide

end Sys2Proof.Tests
end

section
/-! What a step of the machine is, over all agents: it follows the schedule (R211), it keeps the platform's parameters
(R6), and it stops only where SEQ runs with no step left (R33, log 11). -/

namespace Sys2Proof.Machine

@[simp] theorem dropEvent_seq (s : State) : s.dropEvent.seq = s.seq := by
  unfold State.dropEvent; split <;> rfl

@[simp] theorem dropEvent_params (s : State) : s.dropEvent.params = s.params := by
  unfold State.dropEvent; split <;> rfl

/-! The schedule. -/

/-- A step takes the head of the schedule and performs it. -/
theorem step_atSchedule_cons (ev : Event) (evs : List Event) (s : State) :
    step (s.atSchedule (ev :: evs)) = withSchedule evs (handle ev s) := handle_schedule ev s evs

/-- The steps of a run from a given schedule are the events of that schedule. -/
theorem run_atSchedule_append (evs rest : List Event) (s : State) :
    core.run evs.length (s.atSchedule (evs ++ rest)) = runEvents evs (s.atSchedule rest) := by
  induction evs generalizing s with
  | nil => rfl
  | cons ev evs ih =>
    have hstep : core.step (s.atSchedule (ev :: (evs ++ rest))) = withSchedule (evs ++ rest) (handle ev s) :=
      step_atSchedule_cons ev (evs ++ rest) s
    simp only [List.length_cons, List.cons_append, Host.Core.run, runEvents, hstep, handle_schedule]
    cases handle ev s with
    | next t => exact ih t
    | fault r => rfl
    | refused r => rfl

/-! The parameters. -/

theorem memWrite_params {wd : Width} {off : Offset} {v : Word} {s t : State} (h : memWrite wd off v s = .next t) :
    t.params = s.params := by
  rcases memWrite_cases h with ⟨c, rfl⟩ | ⟨i, -, -, -, -, -, rfl⟩ | rfl | ⟨-, -, rfl⟩ | ⟨-, -, -, rfl⟩ | rfl <;> rfl

theorem hostStep_params {s t : State} (h : hostStep s = .next t) : t.params = s.params := by
  rcases hostStep_cases h with ⟨-, rfl⟩ | ⟨wd, off, v, rest, -, hw⟩ | ⟨prog, v, rfl | rfl⟩
  · rfl
  · exact (memWrite_params hw).trans rfl
  · rfl
  · rfl

theorem sequencerStep_params {b : Bool} {s t : State} (h : sequencerStep b s = .next t) : t.params = s.params := by
  rcases sequencerStep_cases h with
    ⟨-, rfl⟩ | ⟨_, _, _, -, -, rfl⟩ | ⟨_, _, _, _, -, -, -, -, rfl⟩ | ⟨_, _, m, rest, -, -, -, rfl⟩
  · rfl
  · rfl
  · rfl
  · exact perform_params m _

theorem edgeStep_params (b : Bool) (s : State) : (edgeStep b s).params = s.params := by
  rcases edgeStep_cases b s with ⟨-, he⟩ | ⟨-, -, he⟩ | ⟨-, -, he⟩
  · rw [he]
  · rw [he, toggleFailure_params]
  · rw [he, toggle_params]

theorem agentStep_params {ev : Event} {s t : State} (h : agentStep ev s = .next t) : t.params = s.params := by
  cases ev with
  | tick => cases h; rfl
  | sequencer b => exact sequencerStep_params h
  | edge b => cases h; exact edgeStep_params b s
  | host => exact hostStep_params h
  | setReset b => cases h; cases b <;> rfl

/-- No event writes a parameter (R6). -/
theorem handle_params {ev : Event} {s t : State} (h : handle ev s = .next t) : t.params = s.params := by
  cases hr : s.resetPort
  · exact agentStep_params (handle_released hr ▸ h)
  · obtain ⟨b, hb⟩ := handle_in_reset (ev := ev) hr
    cases hb ▸ h
    rfl

/-! The stop. -/

theorem acceptCommand_answers_next (w : Word) (s : State) : ∃ t, acceptCommand w s = .next t := by
  unfold acceptCommand
  split
  · exact ⟨_, rfl⟩
  · split
    · exact ⟨_, rfl⟩
    · split
      · exact ⟨_, rfl⟩
      · exact exec_answers_next _ s

theorem memWrite_answers_next (wd : Width) (off : Offset) (v : Word) (s : State) :
    ∃ t, memWrite wd off v s = .next t := by
  unfold memWrite
  split
  · split
    · exact acceptCommand_answers_next v s
    · split
      · exact ⟨_, rfl⟩
      · split
        · exact ⟨_, rfl⟩
        · split <;> exact ⟨_, rfl⟩
  · exact ⟨_, rfl⟩

/-- No access of the host stops the machine (R60). -/
theorem hostStep_answers_next (s : State) : ∃ t, hostStep s = .next t := by
  unfold hostStep
  split
  · exact ⟨_, rfl⟩
  · exact memWrite_answers_next _ _ _ _
  · exact ⟨_, rfl⟩
  · exact ⟨_, rfl⟩

/-- The sequencer stops the machine only in a running command with no step left (R33, log 11). -/
theorem sequencerStep_answers_next (b : Bool) {s : State} (h : ∀ op w, s.seq ≠ .running op w []) :
    ∃ t, sequencerStep b s = .next t := by
  unfold sequencerStep
  split
  · exact ⟨_, rfl⟩
  · split
    · exact ⟨_, rfl⟩
    · split
      · exact absurd ‹s.seq = _› (h _ _)
      · split <;> exact ⟨_, rfl⟩

/-- An event answers a next state unless SEQ runs with no step left. -/
theorem handle_answers_next (ev : Event) {s : State} (h : ∀ op w, s.seq ≠ .running op w []) :
    ∃ t, handle ev s = .next t := by
  cases hr : s.resetPort
  · rw [handle_released hr]
    cases ev with
    | tick => exact ⟨_, rfl⟩
    | sequencer b => exact sequencerStep_answers_next b h
    | edge b => exact ⟨_, rfl⟩
    | host => exact hostStep_answers_next s
    | setReset b => exact ⟨_, rfl⟩
  · obtain ⟨_, hnext⟩ := handle_in_reset (ev := ev) hr
    exact ⟨_, hnext⟩

/-- A legal step list is not empty, so a state of the invariant always has a step left while it runs (R33). -/
theorem seq_ne_running_nil {s : State} (h : s.sequencerOk) (op : BitVec 4) (w : Word) :
    s.seq ≠ .running op w [] := by
  intro hseq
  simp only [State.sequencerOk, hseq] at h
  obtain ⟨-, -, hstaged⟩ := h
  simp [staged] at hstaged

end Sys2Proof.Machine
end

section
/-! The statements of 00_scope.md: the step as the schedule's event, no stop, and fixed parameters. -/

namespace Sys2Proof.Machine

/-- Settles O28: a step performs the head of the schedule, and no event reads or writes the schedule. -/
theorem stepsFollowTheSchedule : Obligations.StepsFollowTheSchedule := run_atSchedule_append

/-- Settles O45: the machine stops only in a running command with no step left, and a legal list has one. -/
theorem invariantNeverStops : Obligations.InvariantNeverStops := by
  rintro s ⟨-, hseq, -, -⟩
  exact handle_answers_next s.nextEvent (by simpa using seq_ne_running_nil hseq)

/-- Settles O47: no event writes a parameter, and taking the event from the schedule does not either. -/
theorem parametersFixed : Obligations.ParametersFixed := fun s _ h =>
  (handle_params h).trans (dropEvent_params s)

end Sys2Proof.Machine
end

section
/-! What one event does, said once: a host write with its access, an agent's step, and what the operations leave
(10_state.md R20 to R39). -/

namespace Sys2Proof

/-- R33, R81: a word that decodes to a command is that command's word. -/
theorem encode_of_decode {w : Word} {i : Instr} (h : decode w = .ok i) : encode i = w := by
  obtain ⟨hinstr, hclear, -⟩ := decode_eq_ok w i h
  obtain ⟨hop, hfields⟩ := instrOf_eq_some _ _ i hinstr
  rw [encode, hop, hfields, pack_fieldsOf w hclear]

end Sys2Proof

namespace Sys2Proof.Machine

/-- A CMD write of a legal word is its command: `exec` checks FAULTED and BUSY itself, in the same order (R203). -/
theorem acceptCommand_eq_exec {w : Word} {i : Instr} (h : decode w = .ok i) (s : State) :
    acceptCommand w s = exec i s := by
  rw [acceptCommand, h]
  cases hf : s.fault
  · cases hb : s.busy
    · rfl
    · simp [exec_eq_takeCommand, State.commandCheck, State.takeCommand, hf, hb]
  · simp [exec_eq_takeCommand, State.commandCheck, State.takeCommand, hf]

/-- An error is recorded only where none stands (R207). -/
theorem errcode_eq_noError_of_raiseError_ne {c : ErrCode} {s : State} (h : (s.raiseError c).errcode ≠ s.errcode) :
    s.errcode = .noError := by
  by_contra hne
  exact h (by simp [hne])

/-! The host's writes. -/

/-- Below MSG_BUF only 32-bit accesses are admitted (R53). -/
theorem width_of_admitted_low {wd : Width} {off : Offset} (h : admitted wd off = true) (hlow : off.toNat < msgBase) :
    wd = .w32 := by
  simp only [admitted, Bool.and_eq_true, Bool.or_eq_true, beq_iff_eq, decide_eq_true_eq] at h
  exact h.2.resolve_right (by omega)

/-- Everything a host write can do, with the access that does it (R56). -/
inductive WriteEffect (s : State) : Width → Offset → Word → State → Prop
  | error {wd off v} (c : ErrCode) : WriteEffect s wd off v (s.raiseError c)
  | start {v i} (hdecode : decode v = .ok i) (hfault : s.fault = false) (hidle : s.seq = .idle)
      (hinit : s.inited = wantsInited i) :
      WriteEffect s .w32 0x00#7 v { s with seq := .running i.opcode v (expand s.params s.message i) }
  | clearError {v : Word} (hbit : v.getLsbD 8 = true) : WriteEffect s .w32 0x04#7 v s.clearError
  | msgLen {v} (hidle : s.seq = .idle) (hlen : v.toNat ≤ Config.msgCap) :
      WriteEffect s .w32 0x08#7 v { s with msgLen := v.setWidth 7 }
  | msgBuf {wd off v} (hidle : s.seq = .idle) (haligned : off.toNat % wd.bytes = 0) (hbase : msgBase ≤ off.toNat) :
      WriteEffect s wd off v { s with msgBuf := s.msgBuf.writeLE off.toNat v wd.bytes }
  | nothing {wd off v} : WriteEffect s wd off v s

theorem acceptCommand_effect {w : Word} {s t : State} (h : acceptCommand w s = .next t) :
    WriteEffect s .w32 0x00#7 w t := by
  rcases acceptCommand_cases h with ⟨c, rfl⟩ | ⟨i, hdecode, hfault, hidle, -, hinit, rfl⟩
  · exact .error c
  · rw [encode_of_decode hdecode]
    exact .start hdecode hfault hidle hinit

theorem writeMsgLen_effect (v : Word) (s : State) : WriteEffect s .w32 0x08#7 v (s.writeMsgLen v) := by
  unfold State.writeMsgLen
  split
  · exact .error .busy
  · split
    · exact .error .lenRange
    · exact .msgLen ((busy_eq_false_iff s).1 (by simpa using ‹¬ s.busy = true›)) (by omega)

theorem writeMsgBuf_effect {wd : Width} {off : Offset} (v : Word) (s : State) (h : admitted wd off = true)
    (hbase : msgBase ≤ off.toNat) : WriteEffect s wd off v (s.writeMsgBuf wd off v) := by
  unfold State.writeMsgBuf
  split
  · exact .error .busy
  · refine .msgBuf ((busy_eq_false_iff s).1 (by simpa using ‹¬ s.busy = true›)) ?_ hbase
    simp only [admitted, Bool.and_eq_true, beq_iff_eq] at h
    exact h.1

theorem memWrite_effect {wd : Width} {off : Offset} {v : Word} {s t : State} (h : memWrite wd off v s = .next t) :
    WriteEffect s wd off v t := by
  unfold memWrite at h
  split at h
  · next hadm =>
    split at h
    · next hcmd =>
      subst hcmd
      rw [width_of_admitted_low hadm (by decide)]
      exact acceptCommand_effect h
    · split at h
      · next hstatus =>
        subst hstatus
        rw [width_of_admitted_low hadm (by decide)]
        split at h
        · cases h
          exact .clearError ‹_›
        · cases h
          exact .nothing
      · split at h
        · next hlen =>
          subst hlen
          rw [width_of_admitted_low hadm (by decide)]
          cases h
          exact writeMsgLen_effect v s
        · split at h
          · cases h
            exact .nothing
          · cases h
            exact writeMsgBuf_effect v s hadm (by omega)
  · cases h
    exact .error .badAccess

/-! An agent's step. -/

/-- Everything an agent's step can do, with the event that does it (R11, R211). -/
inductive AgentEffect (s : State) : Event → State → Prop
  | nothing {ev} : AgentEffect s ev s
  | tick : AgentEffect s .tick s.tick
  | perform {b op w m rest} (hseq : s.seq = .running op w (m :: rest)) (hdly : s.dly = 0#32) :
      AgentEffect s (.sequencer b) ({ s with seq := .running op w rest }.perform m)
  | gpioFailure : AgentEffect s (.sequencer true) s.gpioFailure
  | toggle (haccepted : s.edgeAccepted = true) : AgentEffect s (.edge false) s.toggle
  | toggleFailure : AgentEffect s (.edge true) s.toggleFailure
  | write {wd off v rest t} (hprog : s.program = .write wd off v :: rest)
      (heffect : WriteEffect { s with program := rest } wd off v t) : AgentEffect s .host t
  | read {prog obs} : AgentEffect s .host { s with program := prog, observed := obs }
  | refusedRead {prog obs} : AgentEffect s .host ({ s with program := prog, observed := obs }.raiseError .badAccess)

theorem sequencerStep_effect {b : Bool} {s t : State} (h : sequencerStep b s = .next t) :
    AgentEffect s (.sequencer b) t := by
  rcases sequencerStep_cases h with
    ⟨-, rfl⟩ | ⟨_, _, _, -, -, rfl⟩ | ⟨_, _, _, _, -, -, rfl, -, rfl⟩ | ⟨_, _, _, _, hseq, hdly, -, rfl⟩
  · exact .nothing
  · exact .nothing
  · exact .gpioFailure
  · exact .perform hseq hdly

theorem edgeStep_effect (b : Bool) (s : State) : AgentEffect s (.edge b) (edgeStep b s) := by
  rcases edgeStep_cases b s with ⟨-, he⟩ | ⟨-, rfl, he⟩ | ⟨haccepted, rfl, he⟩ <;> rw [he]
  · exact .nothing
  · exact .toggleFailure
  · exact .toggle haccepted

theorem hostStep_effect {s t : State} (h : hostStep s = .next t) : AgentEffect s .host t := by
  rcases hostStep_cases h with ⟨-, rfl⟩ | ⟨wd, off, v, rest, hprog, hw⟩ | ⟨prog, v, rfl | rfl⟩
  · exact .nothing
  · exact .write hprog (memWrite_effect hw)
  · exact .read
  · exact .refusedRead

/-- While RESET is asserted no agent's step has an effect (R230, log 8). -/
theorem handle_agent_in_reset {ev : Event} {s : State} (ha : isAgent ev = true) (hr : s.resetPort = true) :
    handle ev s = .next s := by
  cases ev with
  | setReset b => simp [isAgent] at ha
  | _ => simp [handle, hr]

theorem handle_effect {ev : Event} {s t : State} (ha : isAgent ev = true) (h : handle ev s = .next t) :
    AgentEffect s ev t := by
  cases hr : s.resetPort
  · rw [handle_released hr] at h
    cases ev with
    | tick => cases h; exact .tick
    | sequencer b => exact sequencerStep_effect h
    | edge b => cases h; exact edgeStep_effect b s
    | host => exact hostStep_effect h
    | setReset b => simp [isAgent] at ha
  · rw [handle_agent_in_reset ha hr] at h
    cases h
    exact .nothing

/-- A change of the RESET input (R230): the reset state, or the state as it was with RESET released. -/
theorem handle_setReset_cases {b : Bool} {s t : State} (h : handle (.setReset b) s = .next t) :
    t = s.enterReset ∨ t = { s with resetPort := false } ∨ t = s := by
  cases hr : s.resetPort <;> cases b <;> simp only [handle, hr, agentStep] at h <;> cases h
  · exact .inr (.inl rfl)
  · exact .inl rfl
  · exact .inr (.inl rfl)
  · exact .inr (.inr (by rw [← hr]))

end Sys2Proof.Machine
end

section
/-! The invariant, part by part: the message, ACC, the sequencer's list, the pins, and RESET (10_state.md R24 to R37,
R173, R213, R230). Each part is kept by every agent's step. -/

namespace Sys2Proof.Machine

/-! The message (R27). -/

/-- MSG_BUF is canonical and MSG_LEN at most MSG_CAP. -/
def State.messageForm (s : State) : Prop := s.msgBuf.wf = true ∧ s.msgLen.toNat ≤ Config.msgCap

theorem messageOk_iff (s : State) : s.messageOk ↔ s.messageForm ∧ s.animAcc.length ≤ Config.msgCap :=
  and_assoc.symm

theorem perform_messageForm (m : MicroStep) {s : State} (h : s.messageForm) : (s.perform m).messageForm := by
  cases m <;> exact h

/-- An aligned access to MSG_BUF ends inside the window (R50, R52). -/
theorem aligned_access_in_window {wd : Width} {off : Offset} (h : off.toNat % wd.bytes = 0) :
    off.toNat + wd.bytes ≤ windowEnd := by
  have hoff := off.isLt
  cases wd <;> simp only [Width.bytes, windowEnd] at * <;> omega

theorem WriteEffect.messageForm {wd : Width} {off : Offset} {v : Word} {s t : State} (e : WriteEffect s wd off v t)
    (h : s.messageForm) : t.messageForm := by
  obtain ⟨hbuf, hlen⟩ := h
  cases e with
  | error => exact ⟨hbuf, hlen⟩
  | start => exact ⟨hbuf, hlen⟩
  | clearError => exact ⟨hbuf, hlen⟩
  | msgLen _ hv =>
    refine ⟨hbuf, ?_⟩
    rw [BitVec.toNat_setWidth]
    exact (Nat.mod_le _ _).trans hv
  | msgBuf _ haligned hbase =>
    exact ⟨wf_writeLE _ _ _ _ hbase (aligned_access_in_window haligned) hbuf, hlen⟩
  | nothing => exact ⟨hbuf, hlen⟩

theorem AgentEffect.messageForm {ev : Event} {s t : State} (e : AgentEffect s ev t) (h : s.messageForm) :
    t.messageForm := by
  cases e with
  | perform => exact perform_messageForm _ h
  | write _ heffect => exact heffect.messageForm h
  | _ => exact h

theorem reset_messageForm : State.reset.messageForm := ⟨reset_msgBuf_wf, by decide⟩

theorem handle_messageForm {ev : Event} {s t : State} (h : handle ev s = .next t) (hs : s.messageForm) :
    t.messageForm := by
  cases ev with
  | setReset b =>
    rcases handle_setReset_cases h with rfl | rfl | rfl
    · exact reset_messageForm
    · exact hs
    · exact hs
  | _ => exact (handle_effect rfl h).messageForm hs

/-! The sequencer's list (R33). -/

/-- A step list is legal where the block stands. -/
def State.canPerform (s : State) (l : List MicroStep) : Bool :=
  staged s.pincfg.isConfigured s.togEn s.inited s.pins.e.isHigh l

/-- What `sequencerOk` asks of an idle block. -/
def State.idleOk (s : State) : Prop :=
  s.fault = false →
    s.dly = 0#32 ∧ (s.pincfg = .configured ↔ s.inited = true) ∧ s.togEn = s.inited ∧ s.pins.e ≠ .hi

theorem sequencerOk_idle_iff {s : State} (h : s.seq = .idle) : s.sequencerOk ↔ s.idleOk := by
  simp only [State.sequencerOk, h, State.idleOk]

theorem sequencerOk_running_iff {s : State} {op : BitVec 4} {w : Word} {l : List MicroStep}
    (h : s.seq = .running op w l) :
    s.sequencerOk ↔ s.fault = false ∧ (∃ i, decode w = .ok i ∧ i.opcode = op) ∧ s.canPerform l = true := by
  simp only [State.sequencerOk, h, State.canPerform]

@[simp] theorem isHigh_ofBool (b : Bool) : (Level.ofBool b).isHigh = b := by cases b <;> rfl

theorem isHigh_eq_false_iff (l : Level) : l.isHigh = false ↔ l ≠ .hi := by cases l <;> simp [Level.isHigh]

theorem isConfigured_eq_true_iff (c : PinCfg) : c.isConfigured = true ↔ c = .configured := by
  cases c <;> simp [PinCfg.isConfigured]

/-- A micro-step leaves the rest of a legal list legal. -/
theorem canPerform_perform {m : MicroStep} {rest : List MicroStep} {s : State} (hm : m ≠ .done)
    (h : s.canPerform (m :: rest) = true) : (s.perform m).canPerform rest = true := by
  cases m with
  | pin w =>
    cases w <;> simp only [State.canPerform, staged, Bool.and_eq_true] at h <;>
      simpa [State.canPerform, State.perform, Pins.update, Pins.write] using h.2
  | setAcc a =>
    simp only [State.canPerform, staged, Bool.and_eq_true] at h
    exact h.2
  | wait | setInited | setI | setK => exact h
  | done => exact absurd rfl hm
  | _ =>
    simp only [State.canPerform, staged, Bool.and_eq_true] at h
    exact h.2

/-- Where a legal list is done, INITED, TOG_EN and PINCFG agree and E is low. -/
theorem idleOk_endCommand {rest : List MicroStep} {s : State} (hdly : s.dly = 0#32)
    (h : s.canPerform (.done :: rest) = true) : s.endCommand.idleOk := by
  simp only [State.canPerform, staged, Bool.and_eq_true, beq_iff_eq, Bool.not_eq_true', isHigh_eq_false_iff] at h
  obtain ⟨⟨⟨-, hinited⟩, hconfigured⟩, he⟩ := h
  refine fun _ => ⟨hdly, ?_, hinited.symm, he⟩
  rw [endCommand_pincfg, endCommand_inited, ← isConfigured_eq_true_iff, hinited, hconfigured]

theorem perform_sequencerOk {op : BitVec 4} {w : Word} {m : MicroStep} {rest : List MicroStep} {s : State}
    (hseq : s.seq = .running op w (m :: rest)) (hdly : s.dly = 0#32) (h : s.sequencerOk) :
    ({ s with seq := .running op w rest }.perform m).sequencerOk := by
  obtain ⟨hfault, hword, hlegal⟩ := (sequencerOk_running_iff hseq).1 h
  by_cases hm : m = .done
  · subst hm
    exact (sequencerOk_idle_iff rfl).2 (idleOk_endCommand (s := { s with seq := _ }) hdly hlegal)
  · rw [perform_seq m s _ hm]
    refine (sequencerOk_running_iff rfl).2 ⟨(perform_fault m s).trans hfault, hword, ?_⟩
    exact canPerform_perform hm hlegal

/-- An idle block that accepts a command can perform its list (R33, R203). -/
theorem canPerform_expand {i : Instr} {s : State} (hmessage : s.messageForm) (hfault : s.fault = false)
    (hinit : s.inited = wantsInited i) (h : s.idleOk) : s.canPerform (expand s.params s.message i) = true := by
  obtain ⟨-, hconfigured, htog, he⟩ := h hfault
  have hcfg : s.pincfg.isConfigured = s.inited := by
    rw [Bool.eq_iff_iff, isConfigured_eq_true_iff, hconfigured]
  rw [State.canPerform, hcfg, htog, hinit, (isHigh_eq_false_iff _).2 he]
  exact staged_expand s.params s.message (by rw [length_message]; exact hmessage.2) i

theorem WriteEffect.sequencerOk {wd : Width} {off : Offset} {v : Word} {s t : State} (e : WriteEffect s wd off v t)
    (hmessage : s.messageForm) (h : s.sequencerOk) : t.sequencerOk := by
  cases e with
  | start hdecode hfault hidle hinit =>
    exact (sequencerOk_running_iff rfl).2
      ⟨hfault, ⟨_, hdecode, rfl⟩, canPerform_expand hmessage hfault hinit ((sequencerOk_idle_iff hidle).1 h)⟩
  | _ => exact h

/-- The tick moves no more than DLY, and an idle block has none to move (R100). -/
theorem tick_sequencerOk {s : State} (h : s.sequencerOk) : s.tick.sequencerOk := by
  cases hseq : s.seq with
  | idle =>
    refine (sequencerOk_idle_iff (s := s.tick) hseq).2 fun hfault => ?_
    obtain ⟨hdly, hagree⟩ := (sequencerOk_idle_iff hseq).1 h hfault
    exact ⟨by simp [hdly], hagree⟩
  | running op w l =>
    exact (sequencerOk_running_iff (s := s.tick) hseq).2 ((sequencerOk_running_iff hseq).1 h)

/-- A faulted idle block is legal as it is. -/
theorem sequencerOk_of_fault {s : State} (hseq : s.seq = .idle) (hfault : s.fault = true) : s.sequencerOk :=
  (sequencerOk_idle_iff hseq).2 fun h => by simp [hfault] at h

theorem AgentEffect.sequencerOk {ev : Event} {s t : State} (e : AgentEffect s ev t) (hmessage : s.messageForm)
    (h : s.sequencerOk) : t.sequencerOk := by
  cases e with
  | tick => exact tick_sequencerOk h
  | perform hseq hdly => exact perform_sequencerOk hseq hdly h
  | gpioFailure => exact sequencerOk_of_fault rfl rfl
  | toggleFailure => exact sequencerOk_of_fault rfl rfl
  | write _ heffect => exact heffect.sequencerOk hmessage h
  | _ => exact h

/-! ACC (R37). -/

theorem perform_acc_length {m : MicroStep} {rest : List MicroStep} {s : State}
    (hlegal : s.canPerform (m :: rest) = true) (h : s.animAcc.length ≤ Config.msgCap) :
    (s.perform m).animAcc.length ≤ Config.msgCap := by
  cases m with
  | setAcc a =>
    simp only [State.canPerform, staged, Bool.and_eq_true, decide_eq_true_eq] at hlegal
    exact hlegal.1
  | done => exact List.length_take_le _ _
  | _ => exact h

theorem WriteEffect.animAcc {wd : Width} {off : Offset} {v : Word} {s t : State} (e : WriteEffect s wd off v t) :
    t.animAcc = s.animAcc := by
  cases e <;> rfl

theorem AgentEffect.acc_length {ev : Event} {s t : State} (e : AgentEffect s ev t) (hseq : s.sequencerOk)
    (h : s.animAcc.length ≤ Config.msgCap) : t.animAcc.length ≤ Config.msgCap := by
  cases e with
  | perform hrun =>
    obtain ⟨-, -, hlegal⟩ := (sequencerOk_running_iff hrun).1 hseq
    exact perform_acc_length (s := { s with seq := _ }) hlegal h
  | gpioFailure => exact List.length_take_le _ _
  | toggleFailure => exact List.length_take_le _ _
  | write _ heffect => rw [heffect.animAcc]; exact h
  | _ => exact h

/-! The pins (R34, R36, R173, R213). -/

/-- Every output pin is driven. -/
def Pins.driven (p : Pins) : Prop :=
  p.rs ≠ .z ∧ p.e ≠ .z ∧ p.d0 ≠ .z ∧ p.d1 ≠ .z ∧ p.d2 ≠ .z ∧ p.d3 ≠ .z ∧ p.bl ≠ .z

theorem ofBool_ne_z (b : Bool) : Level.ofBool b ≠ .z := by cases b <;> simp [Level.ofBool]

theorem driven_write {p : Pins} (w : PinWrite) (h : p.driven) : (p.write w).driven := by
  cases w <;> simp_all [Pins.driven, Pins.write, ofBool_ne_z]

theorem driven_allLow : Pins.allLow.driven := by simp [Pins.driven, Pins.allLow]

/-- The pins of a faulted block may be anything; the toggler is off (R213). -/
theorem pinsOk_of_fault {s : State} (hfault : s.fault = true) (htog : s.togEn = false) : s.pinsOk :=
  ⟨fun _ => htog, fun h => by simp [hfault] at h⟩

theorem pinsOk_of_released {s : State} (hcfg : s.pincfg = .released)
    (hpins : s.pins = Pins.released) (hbtn : s.btnCfg = none) (htog : s.togEn = false) : s.pinsOk :=
  ⟨fun _ => htog, fun _ => ⟨fun _ => ⟨hpins, hbtn, htog⟩, fun h => by simp [hcfg] at h, fun h => by simp [htog] at h⟩⟩

theorem pinsOk_of_configured {s : State} (hfault : s.fault = false) (hcfg : s.pincfg = .configured)
    (hdriven : s.pins.driven) (hbtn : s.btnCfg ≠ none)
    (hbl : s.togEn = true → s.pins.bl = Level.ofBool s.blState) : s.pinsOk :=
  ⟨fun h => by simp [hfault] at h, fun _ => ⟨fun h => by simp [hcfg] at h, fun _ => ⟨hdriven, hbtn⟩, hbl⟩⟩

/-- What `pinsOk` says of a configured block without a fault. -/
theorem pinsOk_configured {s : State} (h : s.pinsOk) (hfault : s.fault = false) (hcfg : s.pincfg = .configured) :
    s.pins.driven ∧ s.btnCfg ≠ none ∧ (s.togEn = true → s.pins.bl = Level.ofBool s.blState) := by
  obtain ⟨-, hlive⟩ := h
  obtain ⟨-, hconf, hbl⟩ := hlive hfault
  exact ⟨(hconf hcfg).1, (hconf hcfg).2, hbl⟩

/-- The toggler is on only in a configured block without a fault (R32, R213). -/
theorem live_of_togEn {s : State} (h : s.pinsOk) (htog : s.togEn = true) :
    s.fault = false ∧ s.pincfg = .configured := by
  obtain ⟨hoff, hlive⟩ := h
  have hfault : s.fault = false := by
    by_contra hf
    simp [hoff (by simpa using hf)] at htog
  refine ⟨hfault, ?_⟩
  obtain ⟨hreleased, -, -⟩ := hlive hfault
  cases hcfg : s.pincfg with
  | configured => rfl
  | released => simp [(hreleased hcfg).2.2] at htog

/-- A pin write of a legal list, which writes BL only while the toggler is off. -/
theorem drive_pinsOk {w : PinWrite} {rest : List MicroStep} {s : State} (hfault : s.fault = false)
    (hlegal : s.canPerform (.pin w :: rest) = true) (h : s.pinsOk) : (s.drive (.write w)).pinsOk := by
  have hcfg : s.pincfg = .configured := by
    rw [← isConfigured_eq_true_iff]
    cases w <;> simp_all [State.canPerform, staged]
  obtain ⟨hdriven, hbtn, hbl⟩ := pinsOk_configured h hfault hcfg
  refine pinsOk_of_configured hfault hcfg (driven_write w hdriven) hbtn fun htog => ?_
  cases w with
  | bl b => simp_all [State.canPerform, staged]
  | _ => exact hbl htog

theorem perform_pinsOk {m : MicroStep} {rest : List MicroStep} {s : State} (hfault : s.fault = false)
    (hlegal : s.canPerform (m :: rest) = true) (h : s.pinsOk) : (s.perform m).pinsOk := by
  cases m with
  | pin w => exact drive_pinsOk hfault hlegal h
  | configurePins =>
    simp only [State.canPerform, staged, Bool.and_eq_true, Bool.not_eq_true'] at hlegal
    obtain ⟨⟨-, htog⟩, -⟩ := hlegal
    exact pinsOk_of_configured hfault rfl driven_allLow (by simp [State.perform]) fun ht => by
      simp [State.perform, htog] at ht
  | backlightReady =>
    simp only [State.canPerform, staged, Bool.and_eq_true, isConfigured_eq_true_iff] at hlegal
    obtain ⟨hdriven, hbtn, -⟩ := pinsOk_configured h hfault hlegal.1
    exact pinsOk_of_configured hfault hlegal.1 (driven_write _ hdriven) hbtn fun _ => rfl
  | backlightOff =>
    simp only [State.canPerform, staged, Bool.and_eq_true, isConfigured_eq_true_iff] at hlegal
    obtain ⟨hdriven, hbtn, -⟩ := pinsOk_configured h hfault hlegal.1
    exact pinsOk_of_configured hfault hlegal.1 (driven_write _ hdriven) hbtn fun ht => by simp [State.perform] at ht
  | releasePins =>
    simp only [State.canPerform, staged, Bool.and_eq_true, Bool.not_eq_true'] at hlegal
    obtain ⟨⟨-, htog⟩, -⟩ := hlegal
    exact pinsOk_of_released rfl rfl rfl htog
  | _ => exact h

theorem toggle_pinsOk {s : State} (haccepted : s.edgeAccepted = true) (h : s.pinsOk) : s.toggle.pinsOk := by
  simp only [State.edgeAccepted, Bool.and_eq_true] at haccepted
  obtain ⟨hfault, hcfg⟩ := live_of_togEn h haccepted.1
  obtain ⟨hdriven, hbtn, -⟩ := pinsOk_configured h hfault hcfg
  exact pinsOk_of_configured hfault hcfg (driven_write _ hdriven) hbtn fun _ => rfl

theorem WriteEffect.pinsOk {wd : Width} {off : Offset} {v : Word} {s t : State} (e : WriteEffect s wd off v t)
    (h : s.pinsOk) : t.pinsOk := by
  cases e <;> exact h

theorem AgentEffect.pinsOk {ev : Event} {s t : State} (e : AgentEffect s ev t) (hseq : s.sequencerOk)
    (h : s.pinsOk) : t.pinsOk := by
  cases e with
  | perform hrun =>
    obtain ⟨hfault, -, hlegal⟩ := (sequencerOk_running_iff hrun).1 hseq
    exact perform_pinsOk (s := { s with seq := _ }) hfault hlegal h
  | gpioFailure => exact pinsOk_of_fault rfl rfl
  | toggle haccepted => exact toggle_pinsOk haccepted h
  | toggleFailure => exact pinsOk_of_fault rfl rfl
  | write _ heffect => exact heffect.pinsOk h
  | _ => exact h

/-! RESET (R39, R230), and the parts together. -/

/-- With RESET released the invariant is its first three parts. -/
theorem inv_of_released {s : State} (hr : s.resetPort = false) (hmessage : s.messageOk) (hseq : s.sequencerOk)
    (hpins : s.pinsOk) : s.Inv :=
  ⟨hmessage, hseq, hpins, fun h => by simp [hr] at h⟩

theorem reset_inv : State.reset.Inv := by
  refine inv_of_released rfl ((messageOk_iff _).2 ⟨reset_messageForm, by decide⟩) ?_
    (pinsOk_of_released rfl rfl rfl rfl)
  exact (sequencerOk_idle_iff rfl).2 fun _ => ⟨rfl, by decide, rfl, by decide⟩

/-- Asserting RESET in any state gives a state of the invariant. -/
theorem enterReset_inv (s : State) : s.enterReset.Inv := by
  obtain ⟨hmessage, hseq, hpins, -⟩ := reset_inv
  exact ⟨hmessage, hseq, hpins, fun _ => rfl⟩

theorem releaseReset_inv {s : State} (h : s.Inv) : { s with resetPort := false }.Inv := by
  obtain ⟨hmessage, hseq, hpins, -⟩ := h
  exact inv_of_released rfl hmessage hseq hpins

theorem AgentEffect.inv {ev : Event} {s t : State} (e : AgentEffect s ev t) (hr : t.resetPort = false) (h : s.Inv) :
    t.Inv := by
  obtain ⟨hmessage, hseq, hpins, -⟩ := h
  obtain ⟨hform, hacc⟩ := (messageOk_iff s).1 hmessage
  exact inv_of_released hr ((messageOk_iff t).2 ⟨e.messageForm hform, e.acc_length hseq hacc⟩)
    (e.sequencerOk hform hseq) (e.pinsOk hseq hpins)

theorem agent_inv {ev : Event} {s t : State} (ha : isAgent ev = true) (h : handle ev s = .next t) (hs : s.Inv) :
    t.Inv := by
  cases hr : s.resetPort
  · exact (handle_effect ha h).inv ((agent_resetPort h ha).trans hr) hs
  · rw [handle_agent_in_reset ha hr] at h
    cases h
    exact hs

theorem handle_inv {ev : Event} {s t : State} (h : handle ev s = .next t) (hs : s.Inv) : t.Inv := by
  cases ev with
  | setReset b =>
    rcases handle_setReset_cases h with rfl | rfl | rfl
    · exact enterReset_inv s
    · exact releaseReset_inv hs
    · exact hs
  | _ => exact agent_inv rfl h hs

/-- Taking the next event touches no state of the block. -/
theorem dropEvent_eq (s : State) : ∃ x n, s.dropEvent = { s with schedule := x, drawn := n } := by
  unfold State.dropEvent
  split
  · exact ⟨s.schedule, s.drawn + 1, rfl⟩
  · exact ⟨_, s.drawn, rfl⟩

theorem dropEvent_inv {s : State} (h : s.Inv) : s.dropEvent.Inv := by
  obtain ⟨hmessage, hseq, hpins, hheld⟩ := h
  obtain ⟨x, n, hdrop⟩ := dropEvent_eq s
  rw [hdrop]
  refine ⟨hmessage, hseq, hpins, fun hr => ?_⟩
  exact congrArg (fun u : State => { u with schedule := x, drawn := n }) (hheld hr)

theorem dropEvent_messageForm {s : State} (h : s.messageForm) : s.dropEvent.messageForm := by
  obtain ⟨x, n, hdrop⟩ := dropEvent_eq s
  rw [hdrop]
  exact h

end Sys2Proof.Machine
end

section
/-! A command's list performed to its end without slack: a body that neither ends the command nor names INITED, the
lifecycle step of INIT and SHUTDOWN, and one `Done` (10_state.md R24, R33). -/

namespace Sys2Proof.Machine

/-- A micro-step that neither ends a command nor names INITED. -/
def MicroStep.isBody : MicroStep → Bool
  | .done => false
  | .setInited _ => false
  | _ => true

/-- The lifecycle step before a command's `Done` (R128, R130). -/
def lifecycleSteps : Instr → List MicroStep
  | .init _ => [.setInited true]
  | .shutdown _ => [.setInited false]
  | _ => []

theorem all_isBody_flatMap {α : Type} {g : α → List MicroStep} (l : List α)
    (h : ∀ x, (g x).all MicroStep.isBody = true) : (l.flatMap g).all MicroStep.isBody = true := by
  simp only [List.all_flatMap, h, List.all_eq_true, implies_true]

@[simp] theorem all_isBody_tx (p : Params) (v : Byte) (m : Mode) : (tx p v m).all MicroStep.isBody = true := rfl

@[simp] theorem all_isBody_writeLine (p : Params) (s : List Byte) (line : Line) (style : Style) :
    (writeLine p s line style).all MicroStep.isBody = true := by
  rw [writeLine, List.all_append, all_isBody_tx, Bool.true_and]
  exact all_isBody_flatMap _ fun c => all_isBody_tx p c .character

theorem all_isBody_clearLines (p : Params) : (clearLines p).all MicroStep.isBody = true :=
  all_isBody_flatMap _ fun line => all_isBody_writeLine p [] line .left

theorem all_isBody_frameLeft (p : Params) (msg : List Byte) (line : Line) (i : Nat) :
    (frameLeft p msg line i).all MicroStep.isBody = true := by
  rw [frameLeft, List.all_append, List.all_append, all_isBody_writeLine]
  rfl

theorem all_isBody_frameRight (p : Params) (msg : List Byte) (line : Line) (k : Nat) :
    (frameRight p msg line k).all MicroStep.isBody = true := by
  rw [frameRight, List.all_append, List.all_append, all_isBody_writeLine]
  rfl

theorem all_isBody_frameDown (p : Params) (msg : List Byte) (style : Style) (trail : Bool) (n k : Nat) :
    (frameDown p msg style trail n k).all MicroStep.isBody = true := by
  rw [frameDown, List.all_cons, List.all_append, List.all_append, all_isBody_writeLine]
  split <;> split <;> simp [MicroStep.isBody]

/-- The list of every command, cut before its lifecycle step and its `Done`. -/
theorem expand_eq_body_append (p : Params) (msg : List Byte) (i : Instr) :
    ∃ body, body.all MicroStep.isBody = true ∧ expand p msg i = body ++ lifecycleSteps i ++ [MicroStep.done] := by
  cases i with
  | init f =>
    refine ⟨[MicroStep.configurePins, .pin (.bl false), .wait p.tReadyOff, .backlightReady]
      ++ p.initSeq.toList.flatMap (fun b => tx p b .command) ++ [MicroStep.wait p.tPostInit], ?_, ?_⟩
    · rw [List.all_append, List.all_append, all_isBody_flatMap _ fun b => all_isBody_tx p b .command]
      rfl
    · simp [expand, initSteps, lifecycleSteps]
  | writeLine f =>
    exact ⟨_, all_isBody_writeLine p msg (Line.ofField f.line) (Style.ofField f.style), by
      simp [expand, writeLineSteps, lifecycleSteps]⟩
  | clear f => exact ⟨_, all_isBody_clearLines p, by simp [expand, clearSteps, lifecycleSteps]⟩
  | animLeft f =>
    refine ⟨MicroStep.setAcc [] :: (List.range 20).flatMap fun k =>
      frameLeft p msg (Line.ofField f.line) (k + 1), ?_, ?_⟩
    · exact all_isBody_flatMap _ fun k => all_isBody_frameLeft p msg _ (k + 1)
    · simp [expand, animLeftSteps, lifecycleSteps]
  | animRight f =>
    refine ⟨MicroStep.setAcc [] :: (List.range 21).flatMap fun k =>
      frameRight p msg (Line.ofField f.line) k, ?_, ?_⟩
    · exact all_isBody_flatMap _ fun k => all_isBody_frameRight p msg _ k
    · simp [expand, animRightSteps, lifecycleSteps]
  | animDown f =>
    refine ⟨(List.range f.lineCount).flatMap fun k =>
      frameDown p msg (Style.ofField f.style) f.trail f.lineCount k, ?_, ?_⟩
    · exact all_isBody_flatMap _ fun k => all_isBody_frameDown p msg _ _ _ k
    · simp [expand, animDownSteps, lifecycleSteps]
  | shutdown f =>
    refine ⟨clearLines p ++ [MicroStep.backlightOff, .releasePins], ?_, ?_⟩
    · rw [List.all_append, all_isBody_clearLines]
      rfl
    · simp [expand, shutdownSteps, lifecycleSteps]
  | transmit f => exact ⟨_, all_isBody_tx p f.value f.mode, by simp [expand, transmitSteps, lifecycleSteps]⟩

theorem done_notMem_of_all_isBody {l : List MicroStep} (h : l.all MicroStep.isBody = true) : .done ∉ l := fun hd => by
  simpa [MicroStep.isBody] using List.all_eq_true.1 h _ hd

theorem done_notMem_lifecycleSteps (i : Instr) : .done ∉ lifecycleSteps i := by
  cases i <;> simp [lifecycleSteps]

/-- The steps that do not name INITED leave it (R24). -/
theorem settleAll_inited_of_isBody {l : List MicroStep} (h : l.all MicroStep.isBody = true) (s : State) :
    (State.settleAll l s).inited = s.inited := by
  induction l generalizing s with
  | nil => rfl
  | cons m l ih =>
    simp only [List.all_cons, Bool.and_eq_true] at h
    rw [settleAll_cons, ih h.2]
    cases m with
    | setInited b => simp [MicroStep.isBody] at h
    | _ => rfl

theorem settleAll_lifecycleSteps_inited {i : Instr} {s : State} (h : s.inited = wantsInited i) :
    (State.settleAll (lifecycleSteps i) s).inited = decide (i.opcode ≠ 7#4) := by
  cases i with
  | init f => rfl
  | shutdown f => rfl
  | _ => exact h

theorem zeroSlack_append (a b : List MicroStep) : zeroSlack (a ++ b) = zeroSlack a ++ zeroSlack b := by
  induction a with
  | nil => rfl
  | cons m a ih => simp only [List.cons_append, zeroSlack, ih, List.append_assoc]

/-- A list with one `Done`, at its end, performed without slack: each of its steps settled (R33, R101). -/
theorem runEvents_zeroSlack_done {l : List MicroStep} {s : State} {op : BitVec 4} {w : Word}
    (hreset : s.resetPort = false) (hdly : s.dly = 0#32)
    (hseq : s.seq = .running op w (l ++ [MicroStep.done])) (hl : .done ∉ l) :
    runEvents (zeroSlack (l ++ [MicroStep.done])) s = .next (State.settleAll (l ++ [MicroStep.done]) s) := by
  rw [zeroSlack_append, runEvents_zeroSlack l s op w [MicroStep.done] _ hreset hdly hseq hl, settleAll_append]
  exact runEvents_micro .done _ op w [] [] ((settleAll_resetPort l s).trans hreset) (settleAll_dly l s hdly) rfl

/-- Every command that has started runs to `Done` without slack. -/
theorem runEvents_zeroSlack_expand {i : Instr} {p : Params} {msg : List Byte} {s : State} {op : BitVec 4} {w : Word}
    (hreset : s.resetPort = false) (hdly : s.dly = 0#32) (hseq : s.seq = .running op w (expand p msg i)) :
    runEvents (zeroSlack (expand p msg i)) s = .next (State.settleAll (expand p msg i) s) := by
  obtain ⟨body, hbody, hexpand⟩ := expand_eq_body_append p msg i
  rw [hexpand] at hseq ⊢
  exact runEvents_zeroSlack_done hreset hdly hseq
    (List.not_mem_append (done_notMem_of_all_isBody hbody) (done_notMem_lifecycleSteps i))

theorem settleAll_expand_seq (p : Params) (msg : List Byte) (i : Instr) (s : State) :
    (State.settleAll (expand p msg i) s).seq = .idle := by
  obtain ⟨body, -, hexpand⟩ := expand_eq_body_append p msg i
  rw [hexpand, settleAll_append]
  rfl

/-- INITED after a command that started where it is accepted: 1, but 0 after SHUTDOWN (R24). -/
theorem settleAll_expand_inited {p : Params} {msg : List Byte} {i : Instr} {s : State}
    (h : s.inited = wantsInited i) : (State.settleAll (expand p msg i) s).inited = decide (i.opcode ≠ 7#4) := by
  obtain ⟨body, hbody, hexpand⟩ := expand_eq_body_append p msg i
  have hlifecycle : (State.settleAll (body ++ lifecycleSteps i) s).inited = decide (i.opcode ≠ 7#4) := by
    rw [settleAll_append]
    exact settleAll_lifecycleSteps_inited ((settleAll_inited_of_isBody hbody s).trans h)
  rw [hexpand, settleAll_append]
  exact hlifecycle

theorem settleAll_message (l : List MicroStep) (s : State) : (State.settleAll l s).message = s.message := by
  rw [State.message, State.message, settleAll_msgBuf, settleAll_msgLen]

end Sys2Proof.Machine
end

section
/-! The host's accesses to MSG_BUF, MSG_LEN and STATUS, and the text that `msg` writes (10_state.md R22, R27;
30_encoding.md R95, R96). -/

namespace Sys2Proof.Machine

/-! Where a write goes (R51, R56). -/

theorem memWrite_cmd (v : Word) (s : State) : memWrite .w32 0x00#7 v s = acceptCommand v s := rfl

theorem memWrite_status (v : Word) (s : State) :
    memWrite .w32 0x04#7 v s = .next (if v.getLsbD 8 then s.clearError else s) := rfl

theorem memWrite_msgLen (v : Word) (s : State) : memWrite .w32 0x08#7 v s = .next (s.writeMsgLen v) := rfl

theorem memWrite_msgBuf {wd : Width} {off : Offset} (haligned : off.toNat % wd.bytes = 0) (hbase : msgBase ≤ off.toNat)
    (v : Word) (s : State) : memWrite wd off v s = .next (s.writeMsgBuf wd off v) := by
  have hne : ∀ x : Offset, x.toNat < msgBase → off ≠ x := by
    rintro _ hx rfl
    omega
  simp [memWrite, admitted, haligned, hbase, hne 0x00#7 (by decide), hne 0x04#7 (by decide), hne 0x08#7 (by decide),
    Nat.not_lt.2 hbase]

theorem writeMsgLen_idle {v : Word} {s : State} (hidle : s.seq = .idle) (hlen : v.toNat ≤ Config.msgCap) :
    s.writeMsgLen v = { s with msgLen := v.setWidth 7 } := by
  simp [State.writeMsgLen, (busy_eq_false_iff s).2 hidle, Nat.not_lt.2 hlen]

theorem writeMsgBuf_idle {s : State} (hidle : s.seq = .idle) (wd : Width) (off : Offset) (v : Word) :
    s.writeMsgBuf wd off v = { s with msgBuf := s.msgBuf.writeLE off.toNat v wd.bytes } := by
  simp [State.writeMsgBuf, (busy_eq_false_iff s).2 hidle]

/-- The host's next operation, a write (R60). -/
theorem handle_host_write {s : State} {wd : Width} {off : Offset} {v : Word} {rest : List HostOp}
    (hreset : s.resetPort = false) (hprog : s.program = .write wd off v :: rest) :
    handle .host s = memWrite wd off v { s with program := rest } := by
  simp only [handle_released hreset, agentStep, hostStep, hprog]

theorem runEvents_host_write {s t : State} {wd : Width} {off : Offset} {v : Word} {rest : List HostOp}
    (evs : List Event) (hreset : s.resetPort = false) (hprog : s.program = .write wd off v :: rest)
    (hwrite : memWrite wd off v { s with program := rest } = .next t) :
    runEvents (.host :: evs) s = runEvents evs t := by
  simp only [runEvents, handle_host_write hreset hprog, hwrite]

/-- A step on which the host is due to write a legal word to CMD is that word's command (R21, R33). -/
theorem step_cmd_write {s : State} {w : Word} {i : Instr} {evs : List Event} {ops : List HostOp}
    (hsched : s.schedule = .host :: evs) (hprog : s.program = .write .w32 0x00#7 w :: ops)
    (hreset : s.resetPort = false) (hdecode : decode w = .ok i) :
    step s = exec i { s with schedule := evs, program := ops } := by
  have hnext : s.nextEvent = .host := by simp [State.nextEvent, hsched]
  have hdrop : s.dropEvent = { s with schedule := evs } := by simp [State.dropEvent, hsched]
  rw [step, hnext, hdrop, handle_host_write (s := { s with schedule := evs }) hreset hprog, memWrite_cmd,
    acceptCommand_eq_exec hdecode]

/-! A text written byte by byte (R96). -/

/-- MSG_BUF holds MSG_CAP bytes (R6, R51). -/
theorem msgBase_add_le_windowEnd {n : Nat} (h : n ≤ Config.msgCap) : msgBase + n ≤ windowEnd :=
  Nat.add_le_add_left h msgBase

/-- The bytes of a text from an offset up. -/
def Memory.writeText (m : Memory) (a : Nat) : List Byte → Memory
  | [] => m
  | b :: text => (m.writeByte a b).writeText (a + 1) text

theorem readByte_writeText_outside {m : Memory} {a i : Nat} {text : List Byte} (hlo : msgBase ≤ a)
    (hhi : a + text.length ≤ windowEnd) (hm : m.wf = true) (hi : i < a ∨ a + text.length ≤ i) :
    (m.writeText a text).readByte i = m.readByte i := by
  induction text generalizing m a with
  | nil => rfl
  | cons b text ih =>
    rw [List.length_cons] at hhi hi
    rw [Memory.writeText, ih (by omega) (by omega) (wf_writeByte m a b hlo (by omega) hm) (by omega),
      readByte_writeByte m msgBase a i b hm, if_neg (by omega)]

theorem readByte_writeText_inside {m : Memory} {a j : Nat} {text : List Byte} (hlo : msgBase ≤ a)
    (hhi : a + text.length ≤ windowEnd) (hm : m.wf = true) (hj : j < text.length) :
    (m.writeText a text).readByte (a + j) = text[j] := by
  induction text generalizing m a j with
  | nil => simp at hj
  | cons b text ih =>
    rw [List.length_cons] at hhi hj
    have hm' := wf_writeByte m a b hlo (by omega) hm
    rw [Memory.writeText]
    cases j with
    | zero =>
      rw [readByte_writeText_outside (by omega) (by omega) hm' (by omega), readByte_writeByte m msgBase a _ b hm]
      simp
    | succ j =>
      have h := ih (m := m.writeByte a b) (a := a + 1) (j := j) (by omega) (by omega) hm' (by omega)
      rwa [Nat.add_right_comm] at h

/-- One byte write of `msg` (R96). -/
theorem memWrite_byte {k : Nat} (hk : k < Config.msgCap) (b : Byte) {s : State} (hidle : s.seq = .idle) :
    memWrite .w8 (BitVec.ofNat 7 (0x40 + k)) (b.setWidth 32) s
      = .next { s with msgBuf := s.msgBuf.writeByte (msgBase + k) b } := by
  have hoff : (BitVec.ofNat 7 (0x40 + k)).toNat = msgBase + k := by
    simp only [Config.msgCap] at hk
    simp only [BitVec.toNat_ofNat, msgBase]
    omega
  rw [memWrite_msgBuf (by simp [Width.bytes, Nat.mod_one]) (by omega), writeMsgBuf_idle hidle, hoff]
  have hb : (b.setWidth 32).setWidth 8 = b := by simp
  simp only [Width.bytes, Memory.writeLE, hb]

/-- The byte writes of `msg`, performed one after the other on an idle block. -/
theorem runEvents_msgWrites {text : List Byte} {k : Nat} {s : State} {rest : List HostOp} (evs : List Event)
    (hk : k + text.length ≤ Config.msgCap) (hidle : s.seq = .idle) (hreset : s.resetPort = false)
    (hprog : s.program = msgWrites k text ++ rest) :
    runEvents (List.replicate text.length .host ++ evs) s
      = runEvents evs { s with msgBuf := s.msgBuf.writeText (msgBase + k) text, program := rest } := by
  induction text generalizing k s with
  | nil =>
    simp only [msgWrites, List.nil_append] at hprog
    simp [← hprog, Memory.writeText]
  | cons b text ih =>
    rw [List.length_cons] at hk
    rw [List.length_cons, List.replicate_succ, List.cons_append]
    have hbyte := memWrite_byte (k := k) (by omega) b (s := { s with program := msgWrites (k + 1) text ++ rest }) hidle
    refine (runEvents_host_write _ hreset hprog hbyte).trans ?_
    exact ih (k := k + 1) (by omega) hidle hreset rfl

theorem length_msgWrites (k : Nat) (text : List Byte) : (msgWrites k text).length = text.length := by
  induction text generalizing k with
  | nil => rfl
  | cons b text ih => simp [msgWrites, ih]

/-- The message is the text where MSG_BUF starts with it and MSG_LEN is its length (R9, R27). -/
theorem message_writeText {m : Memory} {text : List Byte} {t : State} (hm : m.wf = true)
    (hcap : text.length ≤ Config.msgCap) (hbuf : t.msgBuf = m.writeText msgBase text)
    (hlen : t.msgLen.toNat = text.length) : t.message = text := by
  refine List.ext_getElem (by rw [length_message, hlen]) fun j _ hj => ?_
  simp [State.message, hbuf, readByte_writeText_inside le_rfl (msgBase_add_le_windowEnd hcap) hm hj]

/-- The operations of `msg`, performed on an idle block (R96). -/
theorem runEvents_msg {text : List Byte} {s : State} {rest : List HostOp} (hcap : text.length ≤ Config.msgCap)
    (hidle : s.seq = .idle) (hreset : s.resetPort = false)
    (hprog : s.program = msgWrites 0 text ++ .write .w32 0x08#7 (BitVec.ofNat 32 text.length) :: rest) :
    runEvents (List.replicate (text.length + 1) .host) s
      = .next { s with
          msgBuf := s.msgBuf.writeText msgBase text
          msgLen := (BitVec.ofNat 32 text.length).setWidth 7
          program := rest } := by
  rw [List.replicate_succ', runEvents_msgWrites [Event.host] (by omega) hidle hreset hprog]
  have hlen : (BitVec.ofNat 32 text.length).toNat ≤ Config.msgCap := by
    rw [BitVec.toNat_ofNat]
    exact (Nat.mod_le _ _).trans hcap
  refine runEvents_host_write (s := { s with msgBuf := _, program := _ }) [] hreset rfl ?_
  rw [memWrite_msgLen]
  exact congrArg Host.Outcome.next (writeMsgLen_idle hidle hlen)

/-! STATUS (R22). -/

theorem reset_status : State.reset.status = 0#32 := rfl

theorem extractLsb'_status_eq {s : State} {lsb n : Nat} {b : BitVec n}
    (h : ∀ k, k < n → s.status.getLsbD (lsb + k) = b.getLsbD k) : s.status.extractLsb' lsb n = b := by
  refine BitVec.eq_of_getLsbD_eq fun k hk => ?_
  rw [BitVec.getLsbD_extractLsb', decide_eq_true hk, Bool.true_and, h k hk]

theorem status_errcode (s : State) : s.status.extractLsb' 4 4 = s.errcode.code :=
  extractLsb'_status_eq fun k hk => by
    rw [getLsbD_status]
    interval_cases k <;> rfl

theorem status_activeOp (s : State) : s.status.extractLsb' 12 4 = s.activeOp :=
  extractLsb'_status_eq fun k hk => by
    rw [getLsbD_status]
    interval_cases k <;> rfl

theorem status_reserved_low (s : State) : s.status.extractLsb' 10 2 = 0#2 :=
  extractLsb'_status_eq fun k hk => by
    rw [getLsbD_status]
    interval_cases k <;> rfl

theorem status_reserved_high (s : State) : s.status.extractLsb' 16 16 = 0#16 :=
  extractLsb'_status_eq fun k hk => by
    rw [getLsbD_status, BitVec.getLsbD_zero]
    simp (disch := omega) only [if_neg]

end Sys2Proof.Machine
end

section
/-! Which steps change INITED, TOG_EN and ERRCODE (10_state.md R24, R26, R32). -/

namespace Sys2Proof.Machine

/-! INITED and TOG_EN (R24, R32). -/

theorem WriteEffect.inited {wd : Width} {off : Offset} {v : Word} {s t : State} (e : WriteEffect s wd off v t) :
    t.inited = s.inited := by
  cases e <;> rfl

theorem WriteEffect.togEn {wd : Width} {off : Offset} {v : Word} {s t : State} (e : WriteEffect s wd off v t) :
    t.togEn = s.togEn := by
  cases e <;> rfl

theorem setInited_of_perform_inited_ne {m : MicroStep} {s : State} (h : (s.perform m).inited ≠ s.inited) :
    ∃ x, m = .setInited x := by
  cases m with
  | setInited x => exact ⟨x, rfl⟩
  | _ => exact absurd rfl h

theorem backlight_of_perform_togEn_ne {m : MicroStep} {s : State} (h : (s.perform m).togEn ≠ s.togEn) :
    m = .backlightReady ∨ m = .backlightOff := by
  cases m with
  | backlightReady => exact .inl rfl
  | backlightOff => exact .inr rfl
  | _ => exact absurd rfl h

theorem AgentEffect.setInited_of_ne {ev : Event} {s t : State} (e : AgentEffect s ev t) (h : t.inited ≠ s.inited) :
    ∃ b op w x rest, ev = .sequencer b ∧ s.seq = .running op w (.setInited x :: rest) := by
  cases e with
  | perform hseq =>
    obtain ⟨x, rfl⟩ := setInited_of_perform_inited_ne (s := { s with seq := _ }) h
    exact ⟨_, _, _, x, _, rfl, hseq⟩
  | write _ heffect => exact absurd heffect.inited h
  | _ => exact absurd rfl h

theorem AgentEffect.backlight_or_failure_of_ne {ev : Event} {s t : State} (e : AgentEffect s ev t)
    (h : t.togEn ≠ s.togEn) :
    (∃ b op w m rest, ev = .sequencer b ∧ s.seq = .running op w (m :: rest)
        ∧ (m = .backlightReady ∨ m = .backlightOff))
      ∨ ((ev = .sequencer true ∨ ev = .edge true) ∧ t.fault = true ∧ t.togEn = false) := by
  cases e with
  | perform hseq =>
    exact .inl ⟨_, _, _, _, _, rfl, hseq, backlight_of_perform_togEn_ne (s := { s with seq := _ }) h⟩
  | gpioFailure => exact .inr ⟨.inl rfl, rfl, rfl⟩
  | toggleFailure => exact .inr ⟨.inr rfl, rfl, rfl⟩
  | write _ heffect => exact absurd heffect.togEn h
  | _ => exact absurd rfl h

/-! ERRCODE (R26, R207, R208). -/

theorem perform_errcode (m : MicroStep) (s : State) : (s.perform m).errcode = s.errcode := by cases m <;> rfl

theorem WriteEffect.errcode_cases {wd : Width} {off : Offset} {v : Word} {s t : State} (e : WriteEffect s wd off v t)
    (h : t.errcode ≠ s.errcode) :
    s.errcode = .noError ∨ (t.errcode = .noError ∧ wd = .w32 ∧ off = 0x04#7 ∧ v.getLsbD 8 = true) := by
  cases e with
  | error c => exact .inl (errcode_eq_noError_of_raiseError_ne h)
  | clearError hbit => exact .inr ⟨rfl, rfl, rfl, hbit⟩
  | _ => exact absurd rfl h

theorem AgentEffect.errcode_cases {ev : Event} {s t : State} (e : AgentEffect s ev t) (h : t.errcode ≠ s.errcode) :
    s.errcode = .noError
      ∨ (t.errcode = .noError ∧ ev = .host
        ∧ ∃ v rest, s.program = .write .w32 0x04#7 v :: rest ∧ v.getLsbD 8 = true) := by
  cases e with
  | perform => exact absurd (perform_errcode _ _) h
  | gpioFailure => exact .inl (errcode_eq_noError_of_raiseError_ne (c := .gpioFail) h)
  | toggleFailure => exact .inl (errcode_eq_noError_of_raiseError_ne (c := .gpioFail) h)
  | write hprog heffect =>
    rcases heffect.errcode_cases h with hnone | ⟨hclear, rfl, rfl, hbit⟩
    · exact .inl hnone
    · exact .inr ⟨hclear, rfl, _, _, hprog, hbit⟩
  | refusedRead =>
    exact .inl (errcode_eq_noError_of_raiseError_ne (s := { s with program := _, observed := _ }) h)
  | _ => exact absurd rfl h

end Sys2Proof.Machine
end

section
/-! The statements of 10_state.md: the invariant, the command's word and frame, STATUS, the message, and RESET. -/

namespace Sys2Proof.Machine

/-- Settles O44: each part of the invariant is kept by every agent's step, and RESET gives the reset state. -/
theorem stepKeepsInvariant : Obligations.StepKeepsInvariant := fun _ _ hs h =>
  handle_inv h (dropEvent_inv hs)

/-- Settles O2: an opcode names one command for the word's fields, and clear reserved bits leave nothing else. -/
theorem decodedWordIsEncoded : Obligations.DecodedWordIsEncoded := by
  intro w i h
  obtain ⟨hinstr, -, hwf⟩ := decode_eq_ok w i h
  exact ⟨encode_of_decode h, hwf, instrOf_eq_some _ _ i hinstr⟩

/-- Settles O10: a refused command is one error, an accepted one SEQ's new command. -/
theorem commandFrame : Obligations.CommandFrame := by
  intro i s t h
  rcases exec_cases h with ⟨c, -, rfl⟩ | ⟨hfault, hidle, -, -, rfl⟩
  · refine ⟨rfl, .inl ⟨rfl, ?_⟩, fun _ => rfl⟩
    by_cases hnone : s.errcode = .noError
    · exact .inr hnone
    · exact .inl (by simp [hnone])
  · exact ⟨rfl, .inr ⟨rfl, hfault, hidle, rfl, rfl⟩, fun _ => rfl⟩

/-- Settles O24: the list of an accepted command is settled step by step, and its `Done` leaves the block idle. -/
theorem commandsRunToDone : Obligations.CommandsRunToDone := by
  intro i s hfault hidle hwf hinit hdly hreset
  let t : State := { s with seq := .running i.opcode (encode i) (expand s.params s.message i) }
  exact ⟨t, _, exec_starts hfault hidle hwf hinit, runEvents_zeroSlack_expand hreset hdly rfl,
    settleAll_expand_seq _ _ i t, (settleAll_fault _ t).trans hfault, settleAll_dly _ t hdly, settleAll_errcode _ t,
    settleAll_sent _ t, settleAll_now _ t, settleAll_expand_inited hinit, settleAll_message _ t⟩

/-- Settles O33: of all an agent's step can do, these are the cases that write INITED or TOG_EN. -/
theorem lifecycleBitsChangeOnlyAtTheirSteps : Obligations.LifecycleBitsChangeOnlyAtTheirSteps := fun _ _ _ ha h =>
  ⟨(handle_effect ha h).setInited_of_ne, (handle_effect ha h).backlight_or_failure_of_ne⟩

/-- Settles O36: every other write of ERRCODE is `raiseError`, which keeps a first error. -/
theorem firstErrorKept : Obligations.FirstErrorKept := fun _ _ _ ha h =>
  (handle_effect ha h).errcode_cases

/-- Settles O37: each bit of STATUS by `getLsbD_status`, and its write by bit 8. -/
theorem statusFields : Obligations.StatusFields := by
  refine ⟨reset_status, fun s => ⟨rfl, getLsbD_status s 0, getLsbD_status s 1, getLsbD_status s 2, getLsbD_status s 3,
    status_errcode s, getLsbD_status s 8, getLsbD_status s 9, status_reserved_low s,
    status_activeOp s, status_reserved_high s, fun v => ?_⟩⟩
  rw [memWrite_status]
  cases v.getLsbD 8 <;> rfl

/-- Settles O46: only the host writes the message, in canonical form and within MSG_CAP; RESET empties it. -/
theorem messageFormKept : Obligations.MessageFormKept := fun _ _ hbuf hlen h =>
  handle_messageForm h (dropEvent_messageForm ⟨hbuf, hlen⟩)

/-- Settles O55: one byte write for each byte of the text, then its length. -/
theorem msgLineSetsTheMessage : Obligations.MsgLineSetsTheMessage := by
  intro text s ops rest hops hprog hwf hidle hreset
  by_cases hcap : text.length ≤ Config.msgCap
  · simp only [AsmLine.expand, hcap, if_true, Option.some.injEq] at hops
    subst hops
    rw [List.length_append, length_msgWrites]
    refine ⟨_, runEvents_msg hcap hidle hreset (by simpa using hprog), message_writeText hwf hcap rfl ?_,
      fun a ha => readByte_writeText_outside le_rfl (msgBase_add_le_windowEnd hcap) hwf ha, rfl⟩
    simp only [Config.msgCap] at hcap
    simp only [BitVec.toNat_setWidth, BitVec.toNat_ofNat]
    omega
  · simp [AsmLine.expand, hcap] at hops

/-- Settles O8: the placed word and a scheduled write are both a CMD write of a legal word. -/
theorem stepRunsDecodedCommand : Obligations.StepRunsDecodedCommand :=
  ⟨fun _ _ _ h => step_cmd_write rfl rfl rfl h, fun _ _ _ _ _ => step_cmd_write⟩

/-- Settles O42: RESET gives `enterReset`, in which no agent's step has an effect. -/
theorem resetAtOnce : Obligations.ResetAtOnce := by
  intro s hreset
  refine ⟨s.enterReset, handle_released hreset, rfl, reset_status, rfl, fun _ => rfl, rfl, rfl, rfl, rfl, rfl, rfl,
    rfl, rfl, rfl, rfl, rfl, fun ev u ha h => ?_⟩
  rw [handle_agent_in_reset ha rfl] at h
  cases h
  rfl

/-- Settles O43: `reset_inv`, part by part. -/
theorem resetMeetsInvariant : Obligations.ResetMeetsInvariant := reset_inv

end Sys2Proof.Machine
end

section
/-! A read of the window after a write of it, and the offsets that hold no register (20_memory.md R51 to R58). -/

namespace Sys2Proof.Machine

/-! MSG_BUF read back (R54, R55). -/

/-- The bits of `n` bytes read from an offset up, where those bytes are the low `n` of `v` (R54). -/
theorem getLsbD_readLE {m : Memory} {a n : Nat} {v : Word} (hn : n ≤ 4)
    (h : ∀ j, j < n → m.readByte (a + j) = v.extractLsb' (8 * j) 8) (i : Nat) :
    (m.readLE a n).getLsbD i = (decide (i < 8 * n) && v.getLsbD i) := by
  induction n generalizing a v i with
  | zero => simp [Memory.readLE]
  | succ n ih =>
    have hhead : m.readByte a = v.extractLsb' 0 8 := h 0 n.succ_pos
    have htail : ∀ j, j < n → m.readByte (a + 1 + j) = (v >>> 8).extractLsb' (8 * j) 8 := fun j hj => by
      rw [Nat.add_assoc, Nat.add_comm 1 j, h (j + 1) (by omega)]
      refine BitVec.eq_of_getLsbD_eq fun k _ => ?_
      simp only [BitVec.getLsbD_extractLsb', BitVec.getLsbD_ushiftRight]
      congr 2
      omega
    rw [Memory.readLE, BitVec.getLsbD_or, BitVec.getLsbD_shiftLeft, BitVec.getLsbD_setWidth, hhead,
      BitVec.getLsbD_extractLsb', ih (by omega) htail, BitVec.getLsbD_ushiftRight]
    by_cases hi : i < 8
    · simp [hi, show i < 32 by omega, show i < 8 * (n + 1) by omega]
    · by_cases hlt : i < 8 * (n + 1)
      · simp [hi, hlt, show i < 32 by omega, show i - 8 < 8 * n by omega, show 8 + (i - 8) = i by omega]
      · simp [hi, hlt, show ¬ i - 8 < 8 * n by omega]

/-- Bytes that are the low `n` of `v` read as `v` cut to `n` bytes (R55). -/
theorem readLE_eq_setWidth {m : Memory} {a n : Nat} {v : Word} (hn : n ≤ 4)
    (h : ∀ j, j < n → m.readByte (a + j) = v.extractLsb' (8 * j) 8) :
    m.readLE a n = (v.setWidth (8 * n)).setWidth 32 := by
  refine BitVec.eq_of_getLsbD_eq fun i hi => ?_
  rw [getLsbD_readLE hn h, BitVec.getLsbD_setWidth, BitVec.getLsbD_setWidth, decide_eq_true hi, Bool.true_and]

theorem bytes_le_four (wd : Width) : wd.bytes ≤ 4 := by cases wd <;> decide

/-- A write to MSG_BUF read back by the same access (R54). -/
theorem toNat_readLE_writeLE {m : Memory} {off : Offset} {wd : Width} (hm : m.wf = true)
    (haligned : off.toNat % wd.bytes = 0) (hbase : msgBase ≤ off.toNat) (v : Word) :
    ((m.writeLE off.toNat v wd.bytes).readLE off.toNat wd.bytes).toNat = v.toNat % 2 ^ (8 * wd.bytes) := by
  rw [readLE_eq_setWidth (bytes_le_four wd) fun j hj =>
    readByte_writeLE_inside _ m _ j v hbase (aligned_access_in_window haligned) hm hj]
  have hle : 2 ^ (8 * wd.bytes) ≤ 2 ^ 32 := Nat.pow_le_pow_right (by decide) (by have := bytes_le_four wd; omega)
  rw [BitVec.toNat_setWidth, BitVec.toNat_setWidth, Nat.mod_eq_of_lt]
  exact (Nat.mod_lt _ (by positivity)).trans_le hle

theorem admitted_msgBuf {wd : Width} {off : Offset} (haligned : off.toNat % wd.bytes = 0)
    (hbase : msgBase ≤ off.toNat) : admitted wd off = true := by
  simp [admitted, haligned, hbase]

/-- An offset past CMD, STATUS and MSG_LEN is none of them (R51). -/
theorem ne_register {off : Offset} (h : 0x0C ≤ off.toNat) : off ≠ 0x00#7 ∧ off ≠ 0x04#7 ∧ off ≠ 0x08#7 := by
  refine ⟨?_, ?_, ?_⟩ <;> rintro rfl <;> simp at h

theorem memRead_msgBuf {wd : Width} {off : Offset} (haligned : off.toNat % wd.bytes = 0) (hbase : msgBase ≤ off.toNat)
    (s : State) : s.memRead wd off = s.msgBuf.readLE off.toNat wd.bytes := by
  obtain ⟨hcmd, hstatus, hlen⟩ := ne_register ((show 0x0C ≤ msgBase by decide).trans hbase)
  simp [State.memRead, admitted_msgBuf haligned hbase, State.readWindow, hcmd, hstatus, hlen, Nat.not_lt.2 hbase]

/-! The reserved offsets (R58). -/

section Reserved

variable {off : Offset} (hlow : 0x0C ≤ off.toNat) (hhigh : off.toNat < msgBase) (s : State)

theorem admitted_aligned_word (haligned : off.toNat % 4 = 0) : admitted .w32 off = true := by
  simp [admitted, Width.bytes, haligned]

include hlow hhigh

theorem readWindow_reserved (wd : Width) : s.readWindow wd off = 0#32 := by
  obtain ⟨hcmd, hstatus, hlen⟩ := ne_register hlow
  simp [State.readWindow, hcmd, hstatus, hlen, hhigh]

theorem memWrite_reserved (haligned : off.toNat % 4 = 0) (v : Word) : memWrite .w32 off v s = .next s := by
  obtain ⟨hcmd, hstatus, hlen⟩ := ne_register hlow
  simp [memWrite, admitted_aligned_word haligned, hcmd, hstatus, hlen, hhigh]

end Reserved

/-! The message while a command runs (R61). -/

theorem writeMsgLen_busy {s : State} (h : s.busy = true) (v : Word) : s.writeMsgLen v = s.raiseError .busy := by
  simp [State.writeMsgLen, h]

theorem writeMsgBuf_busy {s : State} (h : s.busy = true) (wd : Width) (off : Offset) (v : Word) :
    s.writeMsgBuf wd off v = s.raiseError .busy := by
  simp [State.writeMsgBuf, h]

theorem seq_ne_idle_of_busy {s : State} (h : s.busy = true) : s.seq ≠ .idle := fun hidle => by
  rw [(busy_eq_false_iff s).2 hidle] at h
  cases h

/-- Two states with the same MSG_BUF and MSG_LEN have the same message (R9). -/
theorem message_congr {s t : State} (hbuf : t.msgBuf = s.msgBuf) (hlen : t.msgLen = s.msgLen) :
    t.message = s.message := by
  rw [State.message, State.message, hbuf, hlen]

theorem WriteEffect.message_of_busy {wd : Width} {off : Offset} {v : Word} {s t : State}
    (e : WriteEffect s wd off v t) (hbusy : s.busy = true) : t.msgBuf = s.msgBuf ∧ t.msgLen = s.msgLen := by
  cases e with
  | msgLen hidle => exact absurd hidle (seq_ne_idle_of_busy hbusy)
  | msgBuf hidle => exact absurd hidle (seq_ne_idle_of_busy hbusy)
  | _ => exact ⟨rfl, rfl⟩

theorem perform_message (m : MicroStep) (s : State) :
    (s.perform m).msgBuf = s.msgBuf ∧ (s.perform m).msgLen = s.msgLen := by
  cases m <;> exact ⟨rfl, rfl⟩

/-- While a command runs no agent's step touches the message. -/
theorem AgentEffect.message_of_busy {ev : Event} {s t : State} (e : AgentEffect s ev t) (hbusy : s.busy = true) :
    t.msgBuf = s.msgBuf ∧ t.msgLen = s.msgLen := by
  cases e with
  | perform => exact perform_message _ _
  | write _ heffect => exact heffect.message_of_busy hbusy
  | _ => exact ⟨rfl, rfl⟩

/-! `sync` (R96). -/

/-- BUSY is bit 0 of STATUS (R22). -/
theorem status_and_one (s : State) : s.status &&& 1#32 = (BitVec.ofBool s.busy).setWidth 32 := by
  rw [BitVec.and_one_eq_setWidth_ofBool_getLsbD, getLsbD_status, if_pos rfl]

theorem hostStep_sync {s : State} {rest : List HostOp} (h : s.program = syncOp :: rest) :
    hostStep s = .next { s with
      program := if s.busy then s.program else rest
      observed := s.status :: s.observed } := by
  have hread : s.memRead .w32 0x04#7 = s.status := rfl
  have hadm : admitted .w32 0x04#7 = true := rfl
  rw [syncOp] at h
  simp only [hostStep, h, hread, status_and_one, State.afterRead, hadm, if_true, State.observe]
  cases s.busy <;> rfl

end Sys2Proof.Machine
end

section
/-! What the display pins see while a command runs, whatever the order of the agents (20_memory.md R60, R61): its list
from the head on. -/

namespace Sys2Proof.Machine

/-- No CMD write is left in the host's program. -/
def State.noCmdWrite (s : State) : Prop := ∀ v, .write .w32 0x00#7 v ∉ s.program

/-- The display pins' events of a step list. -/
def displayUpdates (l : List MicroStep) : List PinUpdate := (updatesOf l).filter PinUpdate.isDisplay

theorem displayUpdates_cons (m : MicroStep) (l : List MicroStep) :
    displayUpdates (m :: l) = displayUpdates [m] ++ displayUpdates l := by
  simp [displayUpdates]

theorem sentDisplay_congr {s t : State} (h : t.trace = s.trace) : t.sentDisplay = s.sentDisplay := by
  rw [State.sentDisplay, State.sentDisplay, State.sent, State.sent, h]

theorem perform_sent (m : MicroStep) (s : State) : (s.perform m).sent = s.sent ++ m.updates := settle_sent m s

theorem perform_sentDisplay (m : MicroStep) (s : State) :
    (s.perform m).sentDisplay = s.sentDisplay ++ displayUpdates [m] := by
  simp [State.sentDisplay, perform_sent, displayUpdates]

theorem perform_seq_of_ne_done {m : MicroStep} (hm : m ≠ .done) (s : State) : (s.perform m).seq = s.seq :=
  (congrArg State.seq (perform_seq m s s.seq hm) :)

theorem toggle_sentDisplay (s : State) : s.toggle.sentDisplay = s.sentDisplay := by
  simp [State.sentDisplay, State.sent, PinUpdate.isDisplay]

/-! The host's program. -/

theorem WriteEffect.program {wd : Width} {off : Offset} {v : Word} {s t : State} (e : WriteEffect s wd off v t) :
    t.program = s.program := by
  cases e <;> rfl

theorem perform_program (m : MicroStep) (s : State) : (s.perform m).program = s.program := by cases m <;> rfl

theorem afterRead_program (wd : Width) (off : Offset) (s : State) : (s.afterRead wd off).program = s.program := by
  unfold State.afterRead; split <;> rfl

/-- The host only ever takes operations off the head of its program. -/
theorem hostStep_program {s t : State} (h : hostStep s = .next t) : t.program <:+ s.program := by
  unfold hostStep at h
  split at h
  · cases h
    exact List.suffix_refl _
  · next hprog =>
    rw [(memWrite_effect h).program, hprog]
    exact List.suffix_cons _ _
  · next hprog =>
    cases h
    rw [afterRead_program, hprog]
    exact List.suffix_cons _ _
  · next hprog =>
    cases h
    rw [afterRead_program, hprog, observe_program]
    dsimp only
    split
    · exact List.suffix_cons _ _
    · exact List.suffix_refl _

theorem AgentEffect.program_of_ne_host {ev : Event} {s t : State} (e : AgentEffect s ev t) (hev : ev ≠ .host) :
    t.program = s.program := by
  cases e with
  | perform => exact perform_program _ _
  | write | read | refusedRead => exact absurd rfl hev
  | _ => rfl

/-- No agent adds to the host's program. -/
theorem agent_program {ev : Event} {s t : State} (ha : isAgent ev = true) (h : handle ev s = .next t) :
    t.program <:+ s.program := by
  by_cases hev : ev = .host
  · subst hev
    cases hr : s.resetPort
    · rw [handle_released hr] at h
      exact hostStep_program h
    · rw [handle_agent_in_reset ha hr] at h
      cases h
      exact List.suffix_refl _
  · rw [(handle_effect ha h).program_of_ne_host hev]

theorem noCmdWrite_of_agent {ev : Event} {s t : State} (ha : isAgent ev = true) (h : handle ev s = .next t)
    (hs : s.noCmdWrite) : t.noCmdWrite :=
  fun v hmem => hs v ((agent_program ha h).subset hmem)

/-! One step, then a run. -/

/-- A write to anything but CMD reaches neither SEQ nor a pin. -/
theorem WriteEffect.seq_trace {wd : Width} {off : Offset} {v : Word} {s t : State} (e : WriteEffect s wd off v t)
    (hcmd : wd = .w32 → off ≠ 0x00#7) : t.seq = s.seq ∧ t.trace = s.trace := by
  cases e with
  | start => exact absurd rfl (hcmd rfl)
  | _ => exact ⟨rfl, rfl⟩

/-- Short of a CMD write and a failure, an agent's step either performs the head of SEQ's list, or changes neither SEQ
nor what the display pins have seen (R61, R175). -/
theorem AgentEffect.display_cases {ev : Event} {s t : State} (e : AgentEffect s ev t) (hcmd : s.noCmdWrite)
    (hfault : t.fault = false) :
    (t.seq = s.seq ∧ t.sentDisplay = s.sentDisplay)
      ∨ ∃ op w m rest, s.seq = .running op w (m :: rest) ∧ t = { s with seq := .running op w rest }.perform m := by
  cases e with
  | perform hseq => exact .inr ⟨_, _, _, _, hseq, rfl⟩
  | gpioFailure => simp at hfault
  | toggleFailure => simp at hfault
  | toggle => exact .inl ⟨rfl, toggle_sentDisplay s⟩
  | @write wd off v rest _ hprog heffect =>
    have hne : wd = .w32 → off ≠ 0x00#7 := by
      rintro rfl rfl
      exact hcmd v (by simp [hprog])
    obtain ⟨hseq, htrace⟩ := heffect.seq_trace hne
    exact .inl ⟨hseq, sentDisplay_congr htrace⟩
  | _ => exact .inl ⟨rfl, rfl⟩

/-- A run without a failure begins with a step without one. -/
theorem fault_eq_false_of_runEvents {evs : List Event} {s t : State} (h : runEvents evs s = .next t)
    (ha : evs.all isAgent = true) (hfault : t.fault = false) : s.fault = false := by
  by_contra hs
  rw [runEvents_fault h ha (by simpa using hs)] at hfault
  cases hfault

/-- An idle block that is sent no command stays idle, and its display pins see nothing. -/
theorem runEvents_idle {evs : List Event} {s t : State} (h : runEvents evs s = .next t) (ha : evs.all isAgent = true)
    (hcmd : s.noCmdWrite) (hfault : t.fault = false) (hidle : s.seq = .idle) :
    t.seq = .idle ∧ t.sentDisplay = s.sentDisplay := by
  induction evs generalizing s with
  | nil => cases h; exact ⟨hidle, rfl⟩
  | cons ev evs ih =>
    obtain ⟨u, hu, h'⟩ := runEvents_cons h
    simp only [List.all_cons, Bool.and_eq_true] at ha
    rcases (handle_effect ha.1 hu).display_cases hcmd (fault_eq_false_of_runEvents h' ha.2 hfault) with
      ⟨hseq, hsent⟩ | ⟨_, _, _, _, hrun, -⟩
    · rw [← hsent]
      exact ih h' ha.2 (noCmdWrite_of_agent ha.1 hu hcmd) (hseq.trans hidle)
    · rw [hidle] at hrun
      cases hrun

/-- A running block that is sent no command performs its list from the head on, up to its one `Done`. -/
theorem runEvents_running {evs : List Event} {s t : State} {op : BitVec 4} {w : Word} {steps : List MicroStep}
    (h : runEvents evs s = .next t) (ha : evs.all isAgent = true) (hcmd : s.noCmdWrite) (hfault : t.fault = false)
    (hseq : s.seq = .running op w (steps ++ [.done])) (hdone : .done ∉ steps) :
    ∃ sent left, steps = sent ++ left ∧ t.sentDisplay = s.sentDisplay ++ displayUpdates sent
      ∧ (t.seq = .running op w (left ++ [.done]) ∨ (left = [] ∧ t.seq = .idle)) := by
  induction evs generalizing s steps with
  | nil => cases h; exact ⟨[], steps, rfl, by simp [displayUpdates], .inl hseq⟩
  | cons ev evs ih =>
    obtain ⟨u, hu, h'⟩ := runEvents_cons h
    simp only [List.all_cons, Bool.and_eq_true] at ha
    have hcmd' := noCmdWrite_of_agent ha.1 hu hcmd
    rcases (handle_effect ha.1 hu).display_cases hcmd (fault_eq_false_of_runEvents h' ha.2 hfault) with
      ⟨hsame, hsent⟩ | ⟨_, _, m, rest, hrun, rfl⟩
    · rw [← hsent]
      exact ih h' ha.2 hcmd' (hsame.trans hseq) hdone
    · have hsent := perform_sentDisplay m { s with seq := .running op w rest }
      rw [hseq] at hrun
      cases steps with
      | nil =>
        cases hrun
        obtain ⟨hidle, hnone⟩ := runEvents_idle h' ha.2 hcmd' hfault rfl
        exact ⟨[], [], rfl, hnone.trans hsent, .inr ⟨rfl, hidle⟩⟩
      | cons m' steps =>
        cases hrun
        simp only [List.mem_cons, not_or] at hdone
        obtain ⟨sent, left, rfl, hdisplay, hend⟩ :=
          ih h' ha.2 hcmd' (perform_seq_of_ne_done (Ne.symm hdone.1) _) hdone.2
        refine ⟨m :: sent, left, rfl, ?_, hend⟩
        rw [hdisplay, hsent, displayUpdates_cons m sent, List.append_assoc]
        rfl

end Sys2Proof.Machine
end

section
/-! What a line's pin events do to a receiver between two bytes (20_memory.md R70 to R75): its row, and nothing else. -/

namespace Sys2Proof.Machine

/-- The receiver listens and no first nibble waits for its second (R70, R71). -/
def Receiver.betweenBytes (r : Receiver) : Prop := r.configured = true ∧ r.e = false ∧ r.half = none

/-! The rows (R75). -/

/-- Modulo 128 a row's base is its LINE_ADDR, which is what the receiver takes from it (R73, R75). -/
theorem rowBase_eq_setWidth (p : Params) (line : Line) : rowBase p line = (p.lineAddr.get line).setWidth 7 := by
  unfold rowBase
  bv_omega

theorem add_ofNat_toNat_sub (a base : BitVec 7) : base + BitVec.ofNat 7 (a - base).toNat = a := by
  bv_omega

/-- Ranges of 20 bytes whose bases are 20 apart either way round lie apart. -/
theorem add_ofNat_ne_of_gap {b c : BitVec 7} (hbc : 20 ≤ (c - b).toNat) (hcb : 20 ≤ (b - c).toNat) {i j : Nat}
    (hi : i < 20) (hj : j < 20) : b + BitVec.ofNat 7 i ≠ c + BitVec.ofNat 7 j := by
  bv_omega

theorem rowBase_default_gap {a b : Line} (h : a ≠ b) : 20 ≤ (rowBase .default b - rowBase .default a).toNat := by
  revert h
  cases a <;> cases b <;> decide

theorem rowsApart_default : rowsApart .default :=
  ⟨fun line => by cases line <;> rfl, fun _ _ h _ _ hi hj =>
    add_ofNat_ne_of_gap (rowBase_default_gap h) (rowBase_default_gap h.symm) hi hj⟩

/-! A line (R123). -/

/-- A `set address` command moves AC, and touches no more (R73). -/
theorem takeCommandByte_address {b : Byte} (h : b.getLsbD 7 = true) (r : Receiver) :
    r.takeCommandByte b = { r with ac := b.setWidth 7 } := by
  rw [Receiver.takeCommandByte, if_pos h]

section Line

variable {p : Params} {line : Line} {r : Receiver} (haddr : (p.lineAddr.get line).getLsbD 7 = true)
  (hr : r.betweenBytes) (s : List Byte) (style : Style)

include haddr hr

/-- A line sets AC to its row's base, and its twenty characters follow. -/
theorem feedAll_writeLine :
    (r.feedAll (updatesOf (writeLine p s line style))).betweenBytes
      ∧ ∀ a, (r.feedAll (updatesOf (writeLine p s line style))).ddram a =
        if h : (a - rowBase p line).toNat < (justify s style).length then (justify s style)[(a - rowBase p line).toNat]
        else r.ddram a := by
  obtain ⟨hc, he, hh⟩ := hr
  have hlen : (justify s style).length ≤ 128 := by rw [length_justify]; decide
  rw [writeLine, updatesOf_append, feedAll_append, feedAll_tx p _ .command r hc he hh,
    takeCommandByte_address haddr, ← rowBase_eq_setWidth]
  obtain ⟨hc', he', hh', -, hddram⟩ := feedAll_characters p (justify s style)
    { r with rs := false, d := loNibble (p.lineAddr.get line), ac := rowBase p line } hlen hc he hh
  exact ⟨⟨hc', he', hh'⟩, hddram⟩

theorem writeLine_betweenBytes : (r.feedAll (updatesOf (writeLine p s line style))).betweenBytes :=
  (feedAll_writeLine haddr hr s style).1

/-- The row holds the justified text. -/
theorem row_writeLine_same : (r.feedAll (updatesOf (writeLine p s line style))).row p line = justify s style := by
  refine List.ext_getElem (by rw [length_justify]; rfl) fun j _ hj => ?_
  have hmod : j % 128 = j := Nat.mod_eq_of_lt (by rw [length_justify] at hj; omega)
  simp [Receiver.row, (feedAll_writeLine haddr hr s style).2, hmod, hj]

/-- Every byte outside the row stays. -/
theorem ddram_writeLine_outside {a : BitVec 7} (h : ∀ j, j < 20 → a ≠ rowBase p line + BitVec.ofNat 7 j) :
    (r.feedAll (updatesOf (writeLine p s line style))).ddram a = r.ddram a := by
  rw [(feedAll_writeLine haddr hr s style).2, dif_neg]
  rw [length_justify]
  exact fun hlt => h _ hlt (add_ofNat_toNat_sub a _).symm

end Line

/-- Where rows lie apart, a line leaves every other row. -/
theorem row_writeLine_other {p : Params} {line other : Line} {r : Receiver} (hp : rowsApart p) (hne : other ≠ line)
    (hr : r.betweenBytes) (s : List Byte) (style : Style) :
    (r.feedAll (updatesOf (writeLine p s line style))).row p other = r.row p other := by
  obtain ⟨haddr, hapart⟩ := hp
  refine List.map_congr_left fun i hi => ddram_writeLine_outside (haddr line) hr s style fun j hj => ?_
  exact hapart other line hne i j (List.mem_range.1 hi) hj

/-! `clear()` (R125). -/

theorem justify_nil : justify [] .left = List.replicate 20 0x20#8 := rfl

/-- Blank lines leave a row blank that is one of theirs, or was blank before. -/
theorem row_blankLines {p : Params} {line : Line} (hp : rowsApart p) {lines : List Line} {r : Receiver}
    (hr : r.betweenBytes) (h : line ∈ lines ∨ r.row p line = List.replicate 20 0x20#8) :
    (r.feedAll (updatesOf (lines.flatMap fun l => writeLine p [] l .left))).row p line = List.replicate 20 0x20#8 := by
  induction lines generalizing r with
  | nil => exact h.resolve_left List.not_mem_nil
  | cons l lines ih =>
    rw [List.flatMap_cons, updatesOf_append, feedAll_append]
    refine ih (writeLine_betweenBytes (hp.1 l) hr [] .left) ?_
    by_cases hl : line = l
    · subst hl
      exact .inr ((row_writeLine_same (hp.1 line) hr [] .left).trans justify_nil)
    · rw [row_writeLine_other hp hl hr]
      exact h.imp_left fun hmem => (List.mem_cons.1 hmem).resolve_left hl

end Sys2Proof.Machine
end

section
/-! The statements of 20_memory.md: the running command and its message, the window, the rows of the display, and
`sync`. -/

namespace Sys2Proof.Machine

/-- Settles O26: each step performs the head of the list or leaves what the display pins see. -/
theorem scheduleCannotChangeACommand : Obligations.ScheduleCannotChangeACommand :=
  fun _ _ _ _ _ _ hseq hdone _ hcmd ha h hfault => runEvents_running h ha hcmd hfault hseq hdone

/-- Settles O27: only an idle block's writes reach the message, and a busy one refuses them first. -/
theorem messageFrozenWhileBusy : Obligations.MessageFrozenWhileBusy := by
  intro s hbusy
  refine ⟨fun ev t ha h => ?_, fun v => ?_, fun wd off v hadm hbase => ?_⟩
  · obtain ⟨hbuf, hlen⟩ := (handle_effect ha h).message_of_busy hbusy
    exact ⟨hbuf, hlen, message_congr hbuf hlen⟩
  · rw [memWrite_msgLen, writeMsgLen_busy hbusy]
  · simp only [admitted, Bool.and_eq_true, beq_iff_eq] at hadm
    rw [memWrite_msgBuf hadm.1 hbase, writeMsgBuf_busy hbusy]

/-- Settles O39: `writeLE` and `readLE`, byte by byte. -/
theorem messageBufferWrite : Obligations.MessageBufferWrite := by
  intro wd off v s hm hidle haligned hbase
  have hend := aligned_access_in_window haligned
  refine ⟨{ s with msgBuf := s.msgBuf.writeLE off.toNat v wd.bytes }, ?_, rfl,
    fun j => readByte_writeLE_inside _ _ _ j v hbase hend hm,
    fun a => readByte_writeLE_outside _ _ _ a v hbase hend hm, ?_⟩
  · rw [memWrite_msgBuf haligned hbase, writeMsgBuf_idle hidle]
  · rw [memRead_msgBuf haligned hbase]
    exact toNat_readLE_writeLE hm haligned hbase v

/-- Settles O49: the first byte sets AC to the row's base, and the text's bytes fill the row. -/
theorem writeLineShowsItsRow : Obligations.WriteLineShowsItsRow := by
  intro p s line style r haddr hc he hh
  have hr : r.betweenBytes := ⟨hc, he, hh⟩
  exact ⟨row_writeLine_same haddr hr s style, fun _ => ddram_writeLine_outside haddr hr s style,
    writeLine_betweenBytes haddr hr s style⟩

/-- Settles O50: the default bases lie 20 bytes apart, and a line touches its own row's bytes alone. -/
theorem rowsLieApart : Obligations.RowsLieApart :=
  ⟨rfl, rfl, rfl, rfl, rowsApart_default, fun _ s _ _ style _ hp hne hc he hh =>
    row_writeLine_other hp hne ⟨hc, he, hh⟩ s style⟩

/-- Settles O51: `clear()` writes a blank line to each of the four rows. -/
theorem clearBlanksTheDisplay : Obligations.ClearBlanksTheDisplay := by
  intro p r line hp hc he hh
  exact row_blankLines hp ⟨hc, he, hh⟩ (.inl (by cases line <;> decide))

/-- Settles O41: a reserved offset is admitted, names no register and lies below MSG_BUF. -/
theorem reservedOffsets : Obligations.ReservedOffsets := by
  intro off v s hlow hhigh haligned
  have hadm := admitted_aligned_word haligned
  exact ⟨by rw [State.memRead, if_pos hadm, readWindow_reserved hlow hhigh], by rw [State.afterRead, if_pos hadm],
    memWrite_reserved hlow hhigh s haligned v⟩

/-- Settles O56: `sync` polls bit 0 of STATUS. -/
theorem syncWaitsForBusy : Obligations.SyncWaitsForBusy := by
  intro s rest hprog hreset
  exact ⟨_, (handle_released hreset).trans (hostStep_sync hprog), rfl, fun h => by simp [h], fun h => by simp [h]⟩

end Sys2Proof.Machine
end

section
/-! What the decoder answers on a command's word and on a word that is no command (30_encoding.md R81 to R93). -/

namespace Sys2Proof

/-- R81, R88, R93: a command's word keeps its opcode and every field. -/
theorem decode_encode {i : Instr} (h : i.wellFormed = true) : decode (encode i) = .ok i := by
  rw [decode, encode, opField_pack, fieldsOf_pack, instrOf_opcode]
  simp [reservedClear_pack, h]

/-! OP (R88, R91). -/

theorem toNat_opField (w : Word) : (opField w).toNat = w.toNat % 16 := by
  simp [opField, BitVec.extractLsb'_toNat]

theorem opField_eq_ofNat {w : Word} {n : Nat} (h : w.toNat % 16 = n) : opField w = BitVec.ofNat 4 n := by
  rw [← h, ← toNat_opField, BitVec.ofNat_toNat, BitVec.setWidth_eq]

/-- R88, R91: the opcodes that name a command. -/
theorem isSome_instrOf (op : BitVec 4) (f : Fields) :
    (instrOf op f).isSome = decide (1 ≤ op.toNat ∧ op.toNat ≤ 8) := by
  have hlt := op.isLt
  interval_cases h : op.toNat <;> simp [instrOf, h]

/-! The fields that a check reads, as masks of the word (R83, R90). -/

/-- A field of a word is that field of the word under a mask that covers it. -/
theorem extractLsb'_and_of_allOnes {mask : Word} {lsb n : Nat} (h : mask.extractLsb' lsb n = BitVec.allOnes n)
    (w : Word) : (w &&& mask).extractLsb' lsb n = w.extractLsb' lsb n := by
  rw [BitVec.extractLsb'_and, h, BitVec.and_allOnes]

theorem reservedClear_iff (w : Word) : reservedClear w = true ↔ w &&& 0xFF00C000#32 = 0#32 := by
  refine ⟨fun h => ?_, fun h => ?_⟩
  · rw [← pack_fieldsOf w h]
    refine BitVec.eq_of_getLsbD_eq fun i hi => ?_
    rw [BitVec.getLsbD_and, getLsbD_pack]
    interval_cases i <;> simp
  · rw [reservedClear, ← extractLsb'_and_of_allOnes (mask := 0xFF00C000#32) (lsb := 14) (by decide) w,
      ← extractLsb'_and_of_allOnes (mask := 0xFF00C000#32) (lsb := 24) (by decide) w, h]
    decide

theorem style_eq_three {w : Word} (h : w &&& 0xC0#32 = 0xC0#32) : (fieldsOf w).style = 3#2 := by
  calc w.extractLsb' 6 2 = (w &&& 0xC0#32).extractLsb' 6 2 := (extractLsb'_and_of_allOnes (by decide) w).symm
    _ = 3#2 := by rw [h]; decide

/-! The three checks of R93, in their order. -/

theorem decode_illegalOp {w : Word} (h : w.toNat % 16 = 0 ∨ 9 ≤ w.toNat % 16) : decode w = .error .illegalOp := by
  have hnone : instrOf (opField w) (fieldsOf w) = none := by
    rw [← Option.not_isSome_iff_eq_none, isSome_instrOf, toNat_opField, decide_eq_true_iff]
    omega
  rw [decode, hnone]

theorem decode_reservedBits {w : Word} (hlo : 1 ≤ w.toNat % 16) (hhi : w.toNat % 16 ≤ 8)
    (hreserved : reservedClear w = false) : decode w = .error .reservedBits := by
  have hsome : (instrOf (opField w) (fieldsOf w)).isSome = true := by
    rw [isSome_instrOf, toNat_opField, decide_eq_true ⟨hlo, hhi⟩]
  obtain ⟨i, hi⟩ := Option.isSome_iff_exists.1 hsome
  simp [decode, hi, hreserved]

theorem decode_badField {w : Word} {i : Instr} (hinstr : instrOf (opField w) (fieldsOf w) = some i)
    (hclear : reservedClear w = true) (hwf : i.wellFormed = false) : decode w = .error .badField := by
  simp [decode, hinstr, hclear, hwf]

end Sys2Proof

namespace Sys2Proof.Machine

/-- R203: on an idle block without a fault a word that is no command records the decoder's code. -/
theorem acceptCommand_reject {w : Word} {r : Reject} {s : State} (hfault : s.fault = false) (hidle : s.seq = .idle)
    (h : decode w = .error r) : acceptCommand w s = .next (s.raiseError (ErrCode.ofReject r)) := by
  simp [acceptCommand, hfault, (busy_eq_false_iff s).2 hidle, h]

end Sys2Proof.Machine
end

section
/-! The fields an opcode uses (30_encoding.md R81, R89). -/

namespace Sys2Proof.Machine

/-- A command that agrees with another on the fields of its opcode has the same checks and the same step list. -/
theorem checks_and_steps_of_sameUsedFields {i j : Instr} (h : sameUsedFields i j) : j.wellFormed = i.wellFormed
    ∧ wantsInited j = wantsInited i ∧ ∀ p msg, expand p msg j = expand p msg i := by
  obtain ⟨hop, hused⟩ := h
  have hj : instrOf i.opcode j.fields = some j := hop ▸ instrOf_opcode j
  generalize j.fields = g at hj hused
  cases i with
  | init f | clear f | shutdown f =>
    obtain rfl := Option.some.inj hj
    exact ⟨rfl, rfl, fun _ _ => rfl⟩
  | writeLine f =>
    obtain rfl := Option.some.inj hj
    obtain ⟨hline, hstyle⟩ := hused
    simp [Instr.wellFormed, Fields.styleLegal, wantsInited, expand, writeLineSteps, hline, hstyle]
  | animLeft f =>
    obtain rfl := Option.some.inj hj
    simp [Instr.wellFormed, wantsInited, expand, animLeftSteps, show f.line = g.line from hused]
  | animRight f =>
    obtain rfl := Option.some.inj hj
    simp [Instr.wellFormed, wantsInited, expand, animRightSteps, show f.line = g.line from hused]
  | animDown f =>
    obtain rfl := Option.some.inj hj
    obtain ⟨hstyle, htrail, hnlines⟩ := hused
    simp [Instr.wellFormed, Fields.styleLegal, wantsInited, expand, animDownSteps, Fields.lineCount, hstyle, htrail,
      hnlines]
  | transmit f =>
    obtain rfl := Option.some.inj hj
    obtain ⟨hvalue, hmode⟩ := hused
    simp [Instr.wellFormed, wantsInited, expand, transmitSteps, hvalue, hmode]

end Sys2Proof.Machine
end

section
/-! The visible steps of an animation (42_animation.md R150 to R157): all but the writes of I, K and ACC. -/

namespace Sys2Proof.Machine

@[simp] theorem filter_isVisible_tx (p : Params) (v : Byte) (m : Mode) :
    (tx p v m).filter MicroStep.isVisible = tx p v m := rfl

@[simp] theorem filter_isVisible_writeLine (p : Params) (s : List Byte) (line : Line) (style : Style) :
    (writeLine p s line style).filter MicroStep.isVisible = writeLine p s line style := by
  simp [writeLine, List.filter_flatMap]

/-- R84: no more than the four lines. -/
theorem lineCount_le_four (f : Fields) : f.lineCount ≤ 4 := Nat.min_le_right _ _

/-- R156: the line of step K. -/
theorem ofIndex_of_lt {k : Nat} (h : k < 4) :
    Line.ofIndex k = if k = 0 then .one else if k = 1 then .two else if k = 2 then .three else .four := by
  interval_cases k <;> rfl

/-- R157: the line before it in the cycle. -/
theorem ofIndex_add_three_of_lt {k : Nat} (h : k < 4) :
    Line.ofIndex (k + 3) = if k = 0 then .four else if k = 1 then .one else if k = 2 then .two else .three := by
  interval_cases k <;> rfl

theorem filter_isVisible_frameDown (p : Params) (msg : List Byte) (style : Style) (trail : Bool) (n k : Nat) :
    (frameDown p msg style trail n k).filter MicroStep.isVisible
      = (if trail then [] else writeLine p [] (Line.ofIndex (k + 3)) .left) ++ writeLine p msg (Line.ofIndex k) style
        ++ (if k + 1 < n then [.wait p.tFrame] else []) := by
  rw [frameDown, List.filter_cons_of_neg (by simp [MicroStep.isVisible]), List.filter_append, List.filter_append,
    filter_isVisible_writeLine]
  congr 1
  · cases trail <;> simp
  · split <;> rfl

end Sys2Proof.Machine
end

section
/-! The assembler's words (30_encoding.md R94): each is the encoding of one command, its ignored fields 0. -/

namespace Sys2Proof

/-- The operands that the assembler admits (R94). -/
def AsmCommand.admitted : AsmCommand → Bool
  | .init _ => true
  | .wline line _ => decide (1 ≤ line ∧ line ≤ 4)
  | .clear => true
  | .aleft line => decide (1 ≤ line ∧ line ≤ 4)
  | .aright line => decide (1 ≤ line ∧ line ≤ 4)
  | .adown _ _ n => decide (n.getD 4 ≤ 7)
  | .shutdown => true
  | .tx imm8 _ => decide (imm8 < 256)

/-- The fields of a command that uses none (R94). -/
def Fields.blank : Fields := ⟨0#2, 0#2, false, 0#3, .command, false, 0x00#8⟩

/-- LINE of a line number (R82). -/
def lineField (line : Nat) : BitVec 2 := BitVec.ofNat 2 (line - 1)

/-- STYLE of a style (R83). -/
def Style.field (style : Style) : BitVec 2 := style.toField.setWidth 2

/-- The command an assembler line names, its operands as written (R94). -/
def AsmCommand.instr : AsmCommand → Instr
  | .init autocfg => .init { Fields.blank with autocfg }
  | .wline line style => .writeLine { Fields.blank with line := lineField line, style := style.field }
  | .clear => .clear .blank
  | .aleft line => .animLeft { Fields.blank with line := lineField line }
  | .aright line => .animRight { Fields.blank with line := lineField line }
  | .adown style trail n =>
    .animDown { Fields.blank with style := style.field, trail, nlines := BitVec.ofNat 3 (n.getD 4) }
  | .shutdown => .shutdown .blank
  | .tx imm8 mode => .transmit { Fields.blank with value := BitVec.ofNat 8 imm8, mode }

/-! The operand fields, and what they are read back as. -/

theorem number_ofField_lineField {line : Nat} (h : 1 ≤ line ∧ line ≤ 4) :
    (Line.ofField (lineField line)).number = line := by
  obtain ⟨hlo, hhi⟩ := h
  interval_cases line <;> rfl

@[simp] theorem ofField_field (style : Style) : Style.ofField style.field = style := by cases style <;> rfl

theorem instr_wellFormed (c : AsmCommand) : c.instr.wellFormed = true := by
  cases c with
  | wline _ style | adown style _ _ => cases style <;> rfl
  | init _ | clear | aleft _ | aright _ | shutdown | tx _ _ => rfl

/-! The operand fields at their places in the word. -/

@[simp] theorem place_zero (k n : Nat) : place k 0#n = 0#32 := by simp [place]

theorem place_ofNat {k n x : Nat} (hn : n ≤ 32) (hx : x < 2 ^ n) :
    place k (BitVec.ofNat n x) = BitVec.ofNat 32 x <<< k := by
  rw [place, BitVec.setWidth_ofNat_of_le_of_lt hn hx]

theorem place_ofBool (k : Nat) (b : Bool) : place k (BitVec.ofBool b) = (if b then 1#32 else 0#32) <<< k := by
  cases b <;> rfl

@[simp] theorem toBit_eq_true_iff (m : Mode) : m.toBit = true ↔ m = .character := by cases m <;> simp [Mode.toBit]

@[simp] theorem place_field (style : Style) : place 6 style.field = style.toField <<< 6 := by cases style <;> rfl

theorem asmLine_eq (line : Nat) :
    asmLine line = if 1 ≤ line ∧ line ≤ 4 then some (place 4 (lineField line)) else none := by
  unfold asmLine
  split
  · rw [lineField, place_ofNat (by decide) (by omega)]
  · rfl

/-- A command's word with its fields in the order in which the assembler writes them. -/
theorem encode_eq (i : Instr) : encode i = i.opcode.setWidth 32 ||| place 4 i.fields.line ||| place 6 i.fields.style
    ||| place 8 (BitVec.ofBool i.fields.trail) ||| place 9 i.fields.nlines ||| place 16 i.fields.value
    ||| place 12 (BitVec.ofBool i.fields.mode.toBit) ||| place 13 (BitVec.ofBool i.fields.autocfg) := by
  rw [encode, pack, show place 0 i.opcode = i.opcode.setWidth 32 from BitVec.shiftLeft_zero _]
  generalize place 4 _ = line, place 6 _ = style, place 8 _ = trail, place 9 _ = nlines, place 12 _ = mode,
    place 13 _ = autocfg, place 16 _ = value
  ac_rfl

/-- R94: the assembler gives the encoding of the command its line names, and refuses what it does not admit. -/
theorem assemble_eq (c : AsmCommand) : assemble c = if c.admitted then some (encode c.instr) else none := by
  cases c with
  | init autocfg => cases autocfg <;> rfl
  | clear | shutdown => rfl
  | wline line style =>
    simp [assemble, asmLine_eq, AsmCommand.admitted, encode_eq, AsmCommand.instr, Instr.opcode, Instr.fields,
      Fields.blank, Mode.toBit]
  | aleft line | aright line =>
    simp [assemble, asmLine_eq, AsmCommand.admitted, encode_eq, AsmCommand.instr, Instr.opcode, Instr.fields,
      Fields.blank, Mode.toBit]
  | adown style trail n =>
    by_cases h : n.getD 4 ≤ 7
    · simp [assemble, AsmCommand.admitted, h, encode_eq, AsmCommand.instr, Instr.opcode, Instr.fields, Fields.blank,
        place_ofBool, place_ofNat (n := 3) (by decide) (Nat.lt_succ_of_le h)]
    · simp [assemble, AsmCommand.admitted, h]
  | tx imm8 mode =>
    by_cases h : imm8 < 256
    · simp [assemble, AsmCommand.admitted, h, encode_eq, AsmCommand.instr, Instr.opcode, Instr.fields, Fields.blank,
        place_ofBool, place_ofNat (n := 8) (by decide) h]
    · simp [assemble, AsmCommand.admitted, h]

theorem assemble_eq_some_iff (c : AsmCommand) (w : Word) :
    assemble c = some w ↔ c.admitted = true ∧ encode c.instr = w := by
  rw [assemble_eq, Option.ite_none_right_eq_some, Option.some_inj]

end Sys2Proof
end

section
/-! The statements of 30_encoding.md: the decoder's answers, the fields an opcode ignores, ANIM_DOWN, the assembler. -/

namespace Sys2Proof.Machine

/-- Settles O1: the packed word gives back the opcode and the fields, its reserved bits clear. -/
theorem decodeEncodeAgree : Obligations.DecodeEncodeAgree := fun _ => decode_encode

/-- Settles O4: the first two checks of the decoder, on a block where it decides. -/
theorem illegalAndReservedWordsRefused : Obligations.IllegalAndReservedWordsRefused := by
  intro w s hfault hidle
  refine ⟨fun hop => acceptCommand_reject hfault hidle (decode_illegalOp hop), fun hlo hhi hmask => ?_⟩
  have hreserved : reservedClear w = false := Bool.eq_false_iff.2 (mt (reservedClear_iff w).1 hmask)
  exact acceptCommand_reject hfault hidle (decode_reservedBits hlo hhi hreserved)

/-- Settles O5: WRITE_LINE and ANIM_DOWN are the commands whose STYLE must be legal. -/
theorem reservedStyleRefused : Obligations.ReservedStyleRefused := by
  refine ⟨rfl, rfl, rfl, fun w s hfault hidle hop hmask hstyle =>
    acceptCommand_reject (r := .badField) hfault hidle ?_⟩
  have hclear : reservedClear w = true := (reservedClear_iff w).2 hmask
  have hillegal : (fieldsOf w).styleLegal = false := by rw [Fields.styleLegal, style_eq_three hstyle]; rfl
  rcases hop with hop | hop
  · exact decode_badField (i := .writeLine (fieldsOf w)) (by rw [opField_eq_ofNat hop]; rfl) hclear hillegal
  · exact decode_badField (i := .animDown (fieldsOf w)) (by rw [opField_eq_ofNat hop]; rfl) hclear hillegal

/-- Settles O7: both commands meet the same check, and either record its code or start the same step list. -/
theorem unusedFieldsIgnored : Obligations.UnusedFieldsIgnored := by
  intro i j s h
  obtain ⟨hwf, hwants, hsteps⟩ := checks_and_steps_of_sameUsedFields h
  rw [exec_eq_takeCommand i, exec_eq_takeCommand j, hwf, hwants, hsteps]
  cases s.commandCheck i.wellFormed (wantsInited i) with
  | some c => exact ⟨_, _, rfl, rfl, rfl, rfl, rfl, rfl⟩
  | none => exact ⟨_, _, rfl, rfl, rfl, rfl, h.1.symm, rfl⟩

/-- Settles O15: frame by frame, the lines of K below the line count. -/
theorem animDownStarts : Obligations.AnimDownStarts := by
  intro f s hfault hidle hinit hstyle
  refine ⟨_, exec_starts hfault hidle (bne_iff_ne.2 hstyle) hinit, ?_⟩
  rw [expand, animDownSteps, List.filter_append, List.filter_flatMap]
  congr 1
  refine List.flatMap_congr fun k hk => ?_
  have hk4 : k < 4 := (List.mem_range.1 hk).trans_le (lineCount_le_four f)
  rw [filter_isVisible_frameDown, ofIndex_of_lt hk4, ofIndex_add_three_of_lt hk4, Fields.lineCount]

/-- Settles O54: each word is the encoding of the command named, whose fields hold the operands. -/
theorem assembledWordsDecode : Obligations.AssembledWordsDecode := by
  refine ⟨fun c => ?_, fun c w h => ?_⟩
  · simp only [assemble_eq_some_iff, exists_and_left, exists_eq', and_true]
    cases c <;> simp [AsmCommand.admitted]
  · obtain ⟨hadm, rfl⟩ := (assemble_eq_some_iff c w).1 h
    refine ⟨c.instr, decode_encode (instr_wellFormed c), ?_⟩
    cases c with
    | init _ => rfl
    | clear | shutdown => trivial
    | wline _ style => exact ⟨number_ofField_lineField (of_decide_eq_true hadm), ofField_field style⟩
    | aleft _ | aright _ => exact number_ofField_lineField (of_decide_eq_true hadm)
    | adown style _ n =>
      have hn : n.getD 4 ≤ 7 := of_decide_eq_true hadm
      exact ⟨ofField_field style, rfl, Nat.mod_eq_of_lt (Nat.lt_succ_of_le hn)⟩
    | tx b _ => exact ⟨Nat.mod_eq_of_lt (of_decide_eq_true hadm : b < 256), rfl⟩

/-- Settles O6: the clamp on each of its ranges, and the default written out by the assembler. -/
theorem lineCountIsClamped : Obligations.LineCountIsClamped := by
  refine ⟨fun f => ⟨fun hzero => ?_, fun hlo hhi => ?_, fun hlo => ?_⟩, fun _ _ => rfl⟩
  · rw [Fields.lineCount, hzero]
    rfl
  · rw [Fields.lineCount, max_eq_left hlo, min_eq_left hhi]
  · rw [Fields.lineCount, min_eq_right (by omega)]

end Sys2Proof.Machine
end

section
/-! Step lists without their schedule: how long each command waits, and that every strobe keeps its times (40_transmit.md
R107, R110, 70_reset_and_hazards.md R240). -/

namespace Sys2Proof.Machine

theorem clearLines_eq (p : Params) : clearLines p = writeLine p [] .one .left ++ writeLine p [] .two .left
    ++ writeLine p [] .three .left ++ writeLine p [] .four .left := by
  simp [clearLines]

/-! The waits of a command (R110, R240). -/

/-- The waits of one transmission (R110). -/
def txTicks (p : Params) : Nat := 4 * p.tSettle.toNat + 2 * p.tPulse.toNat

@[simp] theorem waitTicks_tx_eq_txTicks (p : Params) (v : Byte) (m : Mode) : waitTicks (tx p v m) = txTicks p :=
  waitTicks_tx p v m

@[simp] theorem waitTicks_writeLine_eq_txTicks (p : Params) (s : List Byte) (line : Line) (style : Style) :
    waitTicks (writeLine p s line style) = 21 * txTicks p :=
  waitTicks_writeLine p s line style

theorem waitTicks_clearLines (p : Params) : waitTicks (clearLines p) = 84 * txTicks p := by
  simp only [clearLines_eq, waitTicks_append, waitTicks_writeLine_eq_txTicks]
  omega

theorem waitTicks_transmitSteps (p : Params) (f : Fields) : waitTicks (transmitSteps p f) = txTicks p := by
  simp [transmitSteps, MicroStep.ticks]

theorem waitTicks_writeLineSteps (p : Params) (msg : List Byte) (f : Fields) :
    waitTicks (writeLineSteps p msg f) = 21 * txTicks p := by
  simp [writeLineSteps, MicroStep.ticks]

theorem waitTicks_clearSteps (p : Params) : waitTicks (clearSteps p) = 84 * txTicks p := by
  simp [clearSteps, waitTicks_clearLines, MicroStep.ticks]

theorem waitTicks_shutdownSteps (p : Params) : waitTicks (shutdownSteps p) = 84 * txTicks p := by
  simp [shutdownSteps, waitTicks_clearLines, MicroStep.ticks]

theorem waitTicks_initSteps (p : Params) :
    waitTicks (initSteps p) = 6 * txTicks p + p.tReadyOff.toNat + p.tPostInit.toNat := by
  have hseq : waitTicks (p.initSeq.toList.flatMap fun b => tx p b .command) = 6 * txTicks p := by
    rw [waitTicks_flatMap _ _ _ fun b _ => waitTicks_tx_eq_txTicks p b .command, Vector.length_toList]
  simp only [initSteps, waitTicks_append, hseq, waitTicks_cons, waitTicks_nil, MicroStep.ticks]
  omega

theorem waitTicks_frameLeft (p : Params) (msg : List Byte) (line : Line) (i : Nat) :
    waitTicks (frameLeft p msg line i) = 21 * txTicks p + p.tFrame.toNat := by
  simp [frameLeft, MicroStep.ticks]

theorem waitTicks_frameRight (p : Params) (msg : List Byte) (line : Line) (k : Nat) :
    waitTicks (frameRight p msg line k) = 21 * txTicks p + p.tFrame.toNat := by
  simp [frameRight, MicroStep.ticks]

theorem waitTicks_animLeftSteps (p : Params) (msg : List Byte) (f : Fields) :
    waitTicks (animLeftSteps p msg f) = 20 * (21 * txTicks p + p.tFrame.toNat) := by
  simp only [animLeftSteps, waitTicks_append, waitTicks_cons, waitTicks_nil, MicroStep.ticks, List.cons_append]
  rw [waitTicks_flatMap _ _ _ fun k _ => waitTicks_frameLeft p msg _ (k + 1), List.length_range]
  omega

theorem waitTicks_animRightSteps (p : Params) (msg : List Byte) (f : Fields) :
    waitTicks (animRightSteps p msg f) = 21 * (21 * txTicks p + p.tFrame.toNat) := by
  simp only [animRightSteps, waitTicks_append, waitTicks_cons, waitTicks_nil, MicroStep.ticks, List.cons_append]
  rw [waitTicks_flatMap _ _ _ fun k _ => waitTicks_frameRight p msg _ k, List.length_range]
  omega

/-- The lines that a step of ANIM_DOWN writes: with TRAIL = 0 the blank one too (R157). -/
def linesPerFrame (trail : Bool) : Nat := if trail then 1 else 2

/-- No delay follows the last line (R150). -/
theorem waitTicks_frameDown (p : Params) (msg : List Byte) (style : Style) (trail : Bool) (n k : Nat) :
    waitTicks (frameDown p msg style trail n k)
      = 21 * linesPerFrame trail * txTicks p + if k + 1 < n then p.tFrame.toNat else 0 := by
  have hlines : waitTicks (if trail then [] else writeLine p [] (Line.ofIndex (k + 3)) .left) + 21 * txTicks p
      = 21 * linesPerFrame trail * txTicks p := by
    cases trail
    · simp [linesPerFrame]; omega
    · simp [linesPerFrame]
  have hdelay : waitTicks (if k + 1 < n then [.wait p.tFrame] else []) = if k + 1 < n then p.tFrame.toNat else 0 := by
    split <;> simp [MicroStep.ticks]
  simp only [frameDown, waitTicks_cons, waitTicks_append, waitTicks_writeLine_eq_txTicks, MicroStep.ticks, hdelay, hlines]
  omega

theorem lineCount_pos (f : Fields) : 0 < f.lineCount := by simp only [Fields.lineCount]; omega

/-- ANIM_DOWN's frames: all but the last of one length, and the last one shorter by the delay. -/
theorem waitTicks_animDownSteps (p : Params) (msg : List Byte) (f : Fields) :
    waitTicks (animDownSteps p msg f)
      = 21 * linesPerFrame f.trail * txTicks p * f.lineCount + p.tFrame.toNat * (f.lineCount - 1) := by
  obtain ⟨n, hn⟩ := Nat.exists_eq_add_of_lt (lineCount_pos f)
  rw [Nat.zero_add] at hn
  have hfirst : ∀ k ∈ List.range n, waitTicks (frameDown p msg (Style.ofField f.style) f.trail (n + 1) k)
      = 21 * linesPerFrame f.trail * txTicks p + p.tFrame.toNat := fun k hk => by
    rw [waitTicks_frameDown, if_pos (Nat.succ_lt_succ (List.mem_range.1 hk))]
  rw [animDownSteps, hn, List.range_succ, List.flatMap_append, waitTicks_append, waitTicks_append,
    waitTicks_flatMap _ _ _ hfirst, List.length_range, List.flatMap_singleton, waitTicks_frameDown,
    if_neg (Nat.lt_irrefl _)]
  simp only [waitTicks_cons, waitTicks_nil, MicroStep.ticks, Nat.add_sub_cancel]
  ring

/-! The strobes (R107). -/

/-- A step list that keeps R107 wherever it starts between two transmissions, and ends between two. -/
def strobesKept (p : Params) (l : List MicroStep) : Prop :=
  ∀ rest, (∀ c', StrobeClock.ready p c' → strobesTimed p c' rest = true) →
    ∀ c, StrobeClock.ready p c → strobesTimed p c (l ++ rest) = true

section Strobes

variable {p : Params}

theorem strobesKept_nil : strobesKept p [] := fun _ hrest => hrest

theorem strobesKept_append {a b : List MicroStep} (ha : strobesKept p a) (hb : strobesKept p b) :
    strobesKept p (a ++ b) := fun rest hrest c hc => by
  rw [List.append_assoc]
  exact ha _ (hb rest hrest) c hc

theorem strobesKept_flatMap {α : Type} {g : α → List MicroStep} (l : List α) (h : ∀ x, strobesKept p (g x)) :
    strobesKept p (l.flatMap g) := by
  induction l with
  | nil => exact strobesKept_nil
  | cons x l ih => exact strobesKept_append (h x) ih

theorem strobesKept_tx (v : Byte) (m : Mode) : strobesKept p (tx p v m) := fun rest hrest c hc =>
  strobesTimed_tx p c v m rest hc hrest

theorem strobesKept_writeLine (s : List Byte) (line : Line) (style : Style) : strobesKept p (writeLine p s line style) :=
  strobesTimed_writeLine p s line style

/-- Between two transmissions RS and D may change, and any micro-step but a write of E leaves E low (R107). -/
theorem strobesKept_cons {m : MicroStep} {l : List MicroStep} (hl : strobesKept p l)
    (hm : ∀ b, m ≠ .pin (.e b) := by simp) : strobesKept p (m :: l) := fun rest hrest c hc => by
  have hl := hl rest hrest
  obtain ⟨he, hf⟩ := hc
  have hdata : c.dataMayChange p = true := by simp [StrobeClock.dataMayChange, he, hf]
  cases m with
  | pin w =>
    cases w with
    | e b => exact absurd rfl (hm b)
    | bl b => exact hl _ ⟨he, hf⟩
    | rs b | d n => exact (Bool.and_eq_true _ _).mpr ⟨hdata, hl _ ⟨he, hf⟩⟩
  | wait n => exact hl _ ⟨he, hf.trans (Nat.le_add_right _ _)⟩
  | configurePins | releasePins | done => exact (Bool.and_eq_true _ _).mpr ⟨hdata, hl _ ⟨he, hf⟩⟩
  | _ => exact hl _ ⟨he, hf⟩

theorem strobesKept_clearLines : strobesKept p (clearLines p) :=
  strobesKept_flatMap _ fun line => strobesKept_writeLine [] line .left

theorem strobesKept_frameLeft (msg : List Byte) (line : Line) (i : Nat) : strobesKept p (frameLeft p msg line i) :=
  strobesKept_cons <| strobesKept_cons <|
    strobesKept_append (strobesKept_writeLine _ _ _) (strobesKept_cons strobesKept_nil)

theorem strobesKept_frameRight (msg : List Byte) (line : Line) (k : Nat) : strobesKept p (frameRight p msg line k) :=
  strobesKept_cons <| strobesKept_cons <|
    strobesKept_append (strobesKept_writeLine _ _ _) (strobesKept_cons strobesKept_nil)

theorem strobesKept_frameDown (msg : List Byte) (style : Style) (trail : Bool) (n k : Nat) :
    strobesKept p (frameDown p msg style trail n k) := by
  refine strobesKept_cons (strobesKept_append (strobesKept_append ?_ (strobesKept_writeLine _ _ _)) ?_)
  · split
    · exact strobesKept_nil
    · exact strobesKept_writeLine _ _ _
  · split
    · exact strobesKept_cons strobesKept_nil
    · exact strobesKept_nil

/-- Every command's list keeps R107. -/
theorem strobesKept_expand (msg : List Byte) (i : Instr) : strobesKept p (expand p msg i) := by
  have hdone : strobesKept p [.done] := strobesKept_cons strobesKept_nil
  cases i with
  | init f =>
    refine strobesKept_append (strobesKept_append ?_ (strobesKept_flatMap _ fun b => strobesKept_tx b .command)) ?_
    · exact strobesKept_cons <| strobesKept_cons <| strobesKept_cons <| strobesKept_cons strobesKept_nil
    · exact strobesKept_cons <| strobesKept_cons hdone
  | writeLine f => exact strobesKept_append (strobesKept_writeLine _ _ _) hdone
  | clear f => exact strobesKept_append strobesKept_clearLines hdone
  | animLeft f =>
    exact strobesKept_append
      (strobesKept_cons <| strobesKept_flatMap _ fun k => strobesKept_frameLeft msg _ (k + 1)) hdone
  | animRight f =>
    exact strobesKept_append
      (strobesKept_cons <| strobesKept_flatMap _ fun k => strobesKept_frameRight msg _ k) hdone
  | animDown f => exact strobesKept_append (strobesKept_flatMap _ fun k => strobesKept_frameDown msg _ _ _ k) hdone
  | shutdown f =>
    exact strobesKept_append strobesKept_clearLines <|
      strobesKept_cons <| strobesKept_cons <| strobesKept_cons hdone
  | transmit f => exact strobesKept_append (strobesKept_tx _ _) hdone

theorem StrobeClock.ready_start : (StrobeClock.start p).ready p := ⟨rfl, Nat.le_refl _⟩

theorem strobesTimed_expand (msg : List Byte) (i : Instr) :
    strobesTimed p (StrobeClock.start p) (expand p msg i) = true := by
  simpa using strobesKept_expand msg i [] (fun _ _ => rfl) _ StrobeClock.ready_start

end Strobes

end Sys2Proof.Machine
end

section
/-! One transmission performed without slack, phase by phase (40_transmit.md R103 to R106). -/

namespace Sys2Proof.Machine

theorem done_notMem_tx (p : Params) (v : Byte) (m : Mode) : .done ∉ tx p v m :=
  done_notMem_of_all_isBody (all_isBody_tx p v m)

theorem rsLevel_eq_decide (m : Mode) : m.rsLevel = decide (m = .character) := by cases m <;> rfl

/-- R105: the lines of the low phase. -/
theorem write_loNibble (q : Pins) (v : Byte) : q.write (.d (loNibble v)) = { q with
    d0 := Level.ofBool (v.getLsbD 0), d1 := Level.ofBool (v.getLsbD 1)
    d2 := Level.ofBool (v.getLsbD 2), d3 := Level.ofBool (v.getLsbD 3) } := by
  simp [Pins.write, loNibble]

/-- The state after one phase: its four pin events at their times (R103 steps 2 to 8). -/
def State.afterPhase (settle pulse : Tick) (n : Nibble) (s : State) : State :=
  { s with
    now := s.now + 2#64 * settle + pulse
    pins := (s.pins.write (.d n)).write (.e false)
    trace := [⟨s.now + settle + pulse, .write (.e false)⟩, ⟨s.now + settle, .write (.e true)⟩,
      ⟨s.now, .write (.d n)⟩, ⟨s.now, .write (.d 0#4)⟩] ++ s.trace }

/-- A phase from DLY = 0: the lines cleared, the nibble, and one pulse of E, each at its time. -/
theorem settleAll_txPhase (p : Params) (n : Nibble) (s : State) (hdly : s.dly = 0#32) :
    State.settleAll (txPhase p n) s = s.afterPhase (p.tSettle.setWidth 64) (p.tPulse.setWidth 64) n := by
  have hnow : ∀ a b c : Tick, a + b + c + b = a + 2#64 * b + c := fun a b c => by bv_omega
  simp [txPhase, State.afterPhase, State.settle, State.perform, State.drive, MicroStep.ticks, Pins.update, Pins.write,
    hnow, ← hdly]

/-- Two phases on end: the times of both from the first one's start. -/
theorem afterPhase_afterPhase (settle pulse : Tick) (hi lo : Nibble) (s : State) :
    (s.afterPhase settle pulse hi).afterPhase settle pulse lo = { s with
      now := s.now + 4#64 * settle + 2#64 * pulse
      pins := (s.pins.write (.d lo)).write (.e false)
      trace :=
        [⟨s.now + 3#64 * settle + 2#64 * pulse, .write (.e false)⟩,
         ⟨s.now + 3#64 * settle + pulse, .write (.e true)⟩,
         ⟨s.now + 2#64 * settle + pulse, .write (.d lo)⟩,
         ⟨s.now + 2#64 * settle + pulse, .write (.d 0#4)⟩,
         ⟨s.now + settle + pulse, .write (.e false)⟩,
         ⟨s.now + settle, .write (.e true)⟩,
         ⟨s.now, .write (.d hi)⟩,
         ⟨s.now, .write (.d 0#4)⟩] ++ s.trace } := by
  have hrise : ∀ a b c : Tick, a + 2#64 * b + c + b = a + 3#64 * b + c := fun a b c => by bv_omega
  have hfall : ∀ a b c : Tick, a + 3#64 * b + c + c = a + 3#64 * b + 2#64 * c := fun a b c => by bv_omega
  have hend : ∀ a b c : Tick, a + 2#64 * b + c + 2#64 * b + c = a + 4#64 * b + 2#64 * c := fun a b c => by bv_omega
  simp only [State.afterPhase, hrise, hfall, hend]
  rfl

/-- A transmission from DLY = 0: RS, the high nibble and the low nibble. -/
theorem settleAll_tx (p : Params) (v : Byte) (m : Mode) (s : State) (hdly : s.dly = 0#32) :
    State.settleAll (tx p v m) s
      = ((s.drive (.write (.rs m.rsLevel))).afterPhase (p.tSettle.setWidth 64) (p.tPulse.setWidth 64)
          (hiNibble v)).afterPhase (p.tSettle.setWidth 64) (p.tPulse.setWidth 64) (loNibble v) := by
  have hrs : s.settle (.pin (.rs m.rsLevel)) = s.drive (.write (.rs m.rsLevel)) := by
    simp [State.settle, State.perform, State.drive, MicroStep.ticks, ← hdly]
  rw [tx, settleAll_cons, settleAll_append, hrs, settleAll_txPhase _ _ (s.drive _) hdly, settleAll_txPhase]
  exact hdly

end Sys2Proof.Machine
end

section
/-! What an agent's step does to a running command and its delay, and what a run must take (40_transmit.md R101, R102). -/

namespace Sys2Proof.Machine

theorem tick_dly_of_zero {s : State} (h : s.dly = 0#32) : s.tick.dly = s.dly := by
  simp [State.tick, h]

theorem toNat_tick_dly_of_ne_zero {s : State} (h : s.dly ≠ 0#32) : s.tick.dly.toNat + 1 = s.dly.toNat := by
  simp only [State.tick, if_neg h]
  bv_omega

/-- The delay after a micro-step that DLY = 0 enabled (R101). -/
theorem toNat_perform_dly {s : State} (m : MicroStep) (hdly : s.dly = 0#32) :
    (s.perform m).dly.toNat = m.ticks := by
  rw [perform_dly]
  cases m <;> simp [MicroStep.ticks, hdly]

/-- While a command runs an agent's step aborts it, leaves it and its delay, counts one tick of the delay, or, the delay
over, performs the head of its list (R101, R212). -/
theorem agent_running_progress {ev : Event} {s t : State} {op : BitVec 4} {w : Word} {l : List MicroStep}
    (h : handle ev s = .next t) (ha : isAgent ev = true) (hr : s.resetPort = false) (hs : s.seq = .running op w l) :
    (t.fault = true ∧ t.seq = .idle)
      ∨ (t.seq = s.seq ∧ t.dly = s.dly)
      ∨ (ev = .tick ∧ t.seq = s.seq ∧ s.dly.toNat = t.dly.toNat + 1)
      ∨ ∃ m rest, l = m :: rest ∧ s.dly = 0#32 ∧ t = { s with seq := .running op w rest }.perform m := by
  rcases agent_running_cases h ha hr hs with
    ⟨rfl, rfl⟩ | ⟨-, rfl⟩ | hfail | hperform | rfl | rfl | ⟨-, ht⟩
  · by_cases hdly : s.dly = 0#32
    · exact .inr (.inl ⟨rfl, tick_dly_of_zero hdly⟩)
    · exact .inr (.inr (.inl ⟨rfl, rfl, (toNat_tick_dly_of_ne_zero hdly).symm⟩))
  · exact .inr (.inl ⟨rfl, rfl⟩)
  · obtain ⟨hfault, hidle, -⟩ := failure_faults hfail
    exact .inl ⟨hfault, hidle⟩
  · exact .inr (.inr (.inr hperform))
  · exact .inr (.inl ⟨rfl, rfl⟩)
  · exact .inr (.inl ⟨rfl, rfl⟩)
  · exact .inr (.inl ⟨by rw [ht], by rw [ht]⟩)

/-- Short of a failure, a run that moves SEQ on takes the ticks that DLY holds (R101). -/
theorem dly_le_count_tick {evs : List Event} {s u : State} {op : BitVec 4} {w : Word} {l : List MicroStep}
    (h : runEvents evs s = .next u) (ha : evs.all isAgent = true) (hr : s.resetPort = false)
    (hs : s.seq = .running op w l) (hfault : u.fault = false) (hmoved : u.seq ≠ s.seq) :
    s.dly.toNat ≤ evs.count .tick := by
  induction evs generalizing s with
  | nil => cases h; exact absurd rfl hmoved
  | cons ev evs ih =>
    obtain ⟨t, ht, h'⟩ := runEvents_cons h
    simp only [List.all_cons, Bool.and_eq_true] at ha
    have hreset := (agent_resetPort ht ha.1).trans hr
    have hrest : t.seq = s.seq → t.dly.toNat ≤ evs.count .tick := fun hseq =>
      ih h' ha.2 hreset (hseq.trans hs) (hseq ▸ hmoved)
    rcases agent_running_progress ht ha.1 hr hs with
      ⟨hf, -⟩ | ⟨hseq, hdly⟩ | ⟨rfl, hseq, hdly⟩ | ⟨_, _, -, hdly, -⟩
    · rw [fault_eq_false_of_runEvents h' ha.2 hfault] at hf
      cases hf
    · rw [← hdly]
      exact (hrest hseq).trans ((List.sublist_cons_self _ _).count_le _)
    · rw [hdly, List.count_cons_self]
      exact Nat.succ_le_succ (hrest hseq)
    · rw [hdly]
      exact Nat.zero_le _

/-- Short of a failure, a run to a command's end takes the ticks that DLY holds and those its list waits (R101, R240). -/
theorem waitTicks_le_count_tick {evs : List Event} {s u : State} {op : BitVec 4} {w : Word} {steps : List MicroStep}
    (h : runEvents evs s = .next u) (ha : evs.all isAgent = true) (hr : s.resetPort = false)
    (hs : s.seq = .running op w (steps ++ [.done])) (hdone : .done ∉ steps) (hfault : u.fault = false)
    (hidle : u.seq = .idle) : s.dly.toNat + waitTicks steps ≤ evs.count .tick := by
  induction evs generalizing s steps with
  | nil => cases h; rw [hs] at hidle; cases hidle
  | cons ev evs ih =>
    obtain ⟨t, ht, h'⟩ := runEvents_cons h
    simp only [List.all_cons, Bool.and_eq_true] at ha
    have hreset := (agent_resetPort ht ha.1).trans hr
    have hcount : evs.count .tick ≤ (ev :: evs).count .tick := (List.sublist_cons_self _ _).count_le _
    rcases agent_running_progress ht ha.1 hr hs with
      ⟨hf, -⟩ | ⟨hseq, hdly⟩ | ⟨rfl, hseq, hdly⟩ | ⟨m, rest, hl, hdly, rfl⟩
    · rw [fault_eq_false_of_runEvents h' ha.2 hfault] at hf
      cases hf
    · have := ih h' ha.2 hreset (hseq.trans hs) hdone
      rw [hdly] at this
      omega
    · have := ih h' ha.2 hreset (hseq.trans hs) hdone
      rw [List.count_cons_self]
      omega
    · cases steps with
      | nil => simp [hdly]
      | cons _ steps =>
        obtain ⟨rfl, rfl⟩ := List.cons.inj hl
        simp only [List.mem_cons, not_or] at hdone
        have := ih h' ha.2 hreset (perform_seq_of_ne_done (Ne.symm hdone.1) _) hdone.2
        rw [toNat_perform_dly] at this
        · rw [hdly, waitTicks_cons]
          simpa using this.trans hcount
        · exact hdly

end Sys2Proof.Machine
end

section
/-! Fair schedules end every running command (40_transmit.md R102): until the event that a command waits for comes up it
only comes nearer to its end, and that event brings it nearer. -/

namespace Sys2Proof.Machine

/-- A command runs, with `Done` at the end of its list, and RESET is released. -/
def State.endsWithDone (s : State) : Prop := s.resetPort = false ∧ ∃ op w l, s.seq = .running op w (l ++ [.done])

/-- What is left of a command: its steps first, then the delay, which is below 2^32 (R29). -/
def State.toDo (s : State) : Nat := s.steps.length * 2 ^ 32 + s.dly.toNat

theorem toDo_running {s : State} {op : BitVec 4} {w : Word} {l : List MicroStep} (h : s.seq = .running op w l) :
    s.toDo = l.length * 2 ^ 32 + s.dly.toNat := by
  rw [State.toDo, State.steps, h]

/-- The event that a running command waits for: the tick while DLY counts, then the sequencer (R101). -/
def awaited (dly : BitVec 32) (ev : Event) : Prop := if dly = 0#32 then ∃ b, ev = .sequencer b else ev = .tick

/-- Finitely many events of an infinite schedule lead to BUSY = 0. -/
def comesToEnd (sched : Nat → Event) (s : State) : Prop :=
  ∃ n t, runEvents ((List.range n).map sched) s = .next t ∧ t.busy = false

/-- A schedule without its first event. -/
def laterEvents (sched : Nat → Event) (n : Nat) : Event := sched (n + 1)

theorem fairSchedule_laterEvents {sched : Nat → Event} (h : fairSchedule sched) : fairSchedule (laterEvents sched) := by
  obtain ⟨htick, hseq⟩ := h
  refine ⟨fun n => ?_, fun n => ?_⟩
  · obtain ⟨_ | m, hm, hev⟩ := htick (n + 1)
    · cases hm
    · exact ⟨m, Nat.le_of_succ_le_succ hm, hev⟩
  · obtain ⟨_ | m, b, hm, hev⟩ := hseq (n + 1)
    · cases hm
    · exact ⟨m, b, Nat.le_of_succ_le_succ hm, hev⟩

/-- A fair schedule lists the event that a command waits for. -/
theorem exists_awaited {sched : Nat → Event} (h : fairSchedule sched) (dly : BitVec 32) :
    ∃ n, awaited dly (sched n) := by
  obtain ⟨htick, hseq⟩ := h
  by_cases hdly : dly = 0#32
  · obtain ⟨n, b, -, hev⟩ := hseq 0
    exact ⟨n, by rw [awaited, if_pos hdly]; exact ⟨b, hev⟩⟩
  · obtain ⟨n, -, hev⟩ := htick 0
    exact ⟨n, by rw [awaited, if_neg hdly]; exact hev⟩

theorem comesToEnd_cons {sched : Nat → Event} {s t : State} (h : handle (sched 0) s = .next t)
    (hend : comesToEnd (laterEvents sched) t) : comesToEnd sched s := by
  obtain ⟨n, u, hrun, hidle⟩ := hend
  refine ⟨n + 1, u, ?_, hidle⟩
  rw [List.range_succ_eq_map, List.map_cons, List.map_map, runEvents, h]
  exact hrun

theorem comesToEnd_of_idle (sched : Nat → Event) {s : State} (h : s.busy = false) : comesToEnd sched s := ⟨0, s, rfl, h⟩

/-- Performing the head of the list ends the command or leaves less of it to do. -/
theorem perform_toDo_lt {s : State} {op : BitVec 4} {w : Word} {m : MicroStep} {rest l : List MicroStep}
    (hr : s.resetPort = false) (hs : s.seq = .running op w (m :: rest)) (hl : m :: rest = l ++ [.done]) :
    ({ s with seq := .running op w rest }.perform m).busy = false
      ∨ ({ s with seq := .running op w rest }.perform m).endsWithDone
        ∧ ({ s with seq := .running op w rest }.perform m).toDo < s.toDo := by
  by_cases hm : m = .done
  · subst hm
    exact .inl rfl
  · have hseq := perform_seq_of_ne_done hm { s with seq := .running op w rest }
    have hreset := (perform_resetPort m { s with seq := .running op w rest }).trans hr
    have hlt := ({ s with seq := .running op w rest }.perform m).dly.isLt
    cases l with
    | nil => cases hl; exact absurd rfl hm
    | cons m' l =>
      cases hl
      refine .inr ⟨⟨hreset, op, w, l, hseq⟩, ?_⟩
      rw [toDo_running hseq, toDo_running hs, List.length_cons]
      omega

/-- The event that a running command waits for moves SEQ on or counts DLY down (R100, R101). -/
theorem awaited_moves {ev : Event} {s t : State} (h : handle ev s = .next t) (hr : s.resetPort = false)
    (hbusy : s.seq ≠ .idle) (hev : awaited s.dly ev) (hseq : t.seq = s.seq) : t.dly ≠ s.dly := by
  rw [handle_released hr] at h
  by_cases hdly : s.dly = 0#32
  · rw [awaited, if_pos hdly] at hev
    obtain ⟨b, rfl⟩ := hev
    rcases sequencerStep_cases h with
      ⟨hidle, -⟩ | ⟨_, _, _, -, hne, -⟩ | ⟨_, _, _, _, -, -, -, -, rfl⟩ | ⟨op, w, m, rest, hrun, -, -, rfl⟩
    · exact absurd hidle hbusy
    · exact absurd hdly hne
    · exact absurd hseq.symm hbusy
    · by_cases hm : m = .done
      · subst hm
        exact absurd hseq.symm hbusy
      · rw [perform_seq_of_ne_done hm, hrun] at hseq
        simp at hseq
  · rw [awaited, if_neg hdly] at hev
    subst hev
    cases h
    intro hsame
    have := toNat_tick_dly_of_ne_zero hdly
    rw [hsame] at this
    omega

/-- An agent's step ends the command, leaves less of it to do, or leaves it as it was, and the last only if it is not the
event that the command waits for. -/
theorem agent_progress {ev : Event} {s : State} (ha : isAgent ev = true) (hs : s.endsWithDone) :
    ∃ t, handle ev s = .next t ∧ (t.busy = false ∨ (t.endsWithDone ∧ t.toDo < s.toDo)
      ∨ (t.endsWithDone ∧ t.toDo = s.toDo ∧ t.dly = s.dly ∧ ¬ awaited s.dly ev)) := by
  obtain ⟨hr, op, w, l, hseq⟩ := hs
  obtain ⟨t, ht⟩ := handle_answers_next ev (s := s) (by simp [hseq])
  have hreset := (agent_resetPort ht ha).trans hr
  refine ⟨t, ht, ?_⟩
  rcases agent_running_progress ht ha hr hseq with
    ⟨-, hidle⟩ | ⟨hsame, hdly⟩ | ⟨-, hsame, hdly⟩ | ⟨m, rest, hl, -, rfl⟩
  · exact .inl ((busy_eq_false_iff t).2 hidle)
  · refine .inr (.inr ⟨⟨hreset, op, w, l, hsame.trans hseq⟩, ?_, hdly, fun hev => ?_⟩)
    · rw [toDo_running (hsame.trans hseq), toDo_running hseq, hdly]
    · exact awaited_moves ht hr (by simp [hseq]) hev hsame hdly
  · refine .inr (.inl ⟨⟨hreset, op, w, l, hsame.trans hseq⟩, ?_⟩)
    rw [toDo_running (hsame.trans hseq), toDo_running hseq, hdly]
    omega
  · rw [hl] at hseq
    rcases perform_toDo_lt hr hseq hl.symm with hidle | hless
    · exact .inl hidle
    · exact .inr (.inl hless)

/-- If the schedules that leave less of a command to do end it, so does one that lists the awaited event: until that event
comes up what is left of the command does not grow. -/
theorem comesToEnd_of_awaited {sched : Nat → Event} {s : State} {n : Nat} (hfair : fairSchedule sched)
    (hagents : ∀ k, isAgent (sched k) = true) (hs : s.endsWithDone) (hn : awaited s.dly (sched n))
    (hless : ∀ {sched' : Nat → Event} {t : State}, fairSchedule sched' → (∀ k, isAgent (sched' k) = true) →
      t.endsWithDone → t.toDo < s.toDo → comesToEnd sched' t) : comesToEnd sched s := by
  induction n generalizing sched s with
  | zero =>
    obtain ⟨t, ht, hidle | ⟨hdone, hlt⟩ | ⟨-, -, -, hnot⟩⟩ := agent_progress (hagents 0) hs
    · exact comesToEnd_cons ht (comesToEnd_of_idle _ hidle)
    · exact comesToEnd_cons ht (hless (fairSchedule_laterEvents hfair) (fun k => hagents (k + 1)) hdone hlt)
    · exact absurd hn hnot
  | succ n ih =>
    obtain ⟨t, ht, hidle | ⟨hdone, hlt⟩ | ⟨hdone, hsame, hdly, -⟩⟩ := agent_progress (hagents 0) hs
    · exact comesToEnd_cons ht (comesToEnd_of_idle _ hidle)
    · exact comesToEnd_cons ht (hless (fairSchedule_laterEvents hfair) (fun k => hagents (k + 1)) hdone hlt)
    · refine comesToEnd_cons ht (ih (fairSchedule_laterEvents hfair) (fun k => hagents (k + 1)) hdone ?_ ?_)
      · rw [hdly]; exact hn
      · rw [hsame]; exact hless

theorem comesToEnd_of_fair {sched : Nat → Event} {s : State} (hfair : fairSchedule sched)
    (hagents : ∀ k, isAgent (sched k) = true) (hs : s.endsWithDone) : comesToEnd sched s := by
  induction htodo : s.toDo using Nat.strong_induction_on generalizing sched s with
  | h N ih =>
    subst htodo
    obtain ⟨n, hn⟩ := exists_awaited hfair s.dly
    exact comesToEnd_of_awaited hfair hagents hs hn fun hfair' hagents' hdone hlt =>
      ih _ hlt hfair' hagents' hdone rfl

end Sys2Proof.Machine
end

section
/-! The statements of 40_transmit.md: one transmission, the least times, fair schedules, and the tick. -/

namespace Sys2Proof.Machine

/-- Settles O16: RS, then the two phases, each settled. -/
theorem transmissionTrace : Obligations.TransmissionTrace := by
  intro s op w v m rest hseq hdly hreset settle pulse rs
  have hrun := runEvents_zeroSlack (tx s.params v m) s op w rest [] hreset hdly hseq (done_notMem_tx _ v m)
  rw [List.append_nil] at hrun
  rw [hrun, settleAll_tx _ _ _ _ hdly, rsLevel_eq_decide, afterPhase_afterPhase, write_loNibble]
  rfl

/-- Settles O19: transmission by transmission, line by line, frame by frame. -/
theorem leastDurations : Obligations.LeastDurations := by
  refine ⟨fun p msg f => ⟨waitTicks_transmitSteps p f, waitTicks_writeLineSteps p msg f, waitTicks_clearSteps p,
    waitTicks_initSteps p, waitTicks_shutdownSteps p, waitTicks_animLeftSteps p msg f, waitTicks_animRightSteps p msg f,
    fun htrail => ?_, fun htrail => ?_⟩, fun msg f => ⟨waitTicks_transmitSteps .default f,
    waitTicks_writeLineSteps .default msg f, waitTicks_clearSteps .default, waitTicks_shutdownSteps .default,
    waitTicks_initSteps .default, waitTicks_animLeftSteps .default msg f, waitTicks_animRightSteps .default msg f,
    fun hlines => ?_⟩⟩
  · rw [expand, waitTicks_animDownSteps, htrail]
    rfl
  · rw [expand, waitTicks_animDownSteps, htrail]
    rfl
  · rw [expand, waitTicks_animDownSteps, Fields.lineCount, hlines]
    cases f.trail <;> rfl

/-- Settles O20: an accepted command's list is made of transmissions and of steps that leave E low; a refused one leaves
SEQ idle. -/
theorem strobesKeepTheirTimes : Obligations.StrobesKeepTheirTimes := by
  intro i s t h hidle
  rcases exec_cases h with ⟨c, -, rfl⟩ | ⟨-, -, -, -, rfl⟩
  · simp [State.steps, hidle, strobesTimed]
  · exact strobesTimed_expand s.message i

/-- Settles O22: a wait cannot fail, and a run counts DLY down before it moves SEQ on. -/
theorem waitLastsAtLeastN : Obligations.WaitLastsAtLeastN := by
  intro s op w n rest hseq hdly hreset
  refine ⟨{ s with seq := .running op w rest, dly := n }, fun b => ?_, rfl, fun evs u ha hrun hfault hmoved =>
    dly_le_count_tick hrun ha hreset rfl hfault hmoved⟩
  rw [handle_released hreset]
  simp [agentStep, sequencerStep, hseq, hdly, MicroStep.usesGpio, State.perform]

/-- Settles O23: what a step does not count is still in DLY or in the list. -/
theorem noCommandIsFasterThanItsWaits : Obligations.NoCommandIsFasterThanItsWaits :=
  fun _ _ _ _ _ _ hseq hdone hreset ha h hfault hidle =>
    (Nat.le_add_left _ _).trans (waitTicks_le_count_tick h ha hreset hseq hdone hfault hidle)

/-- Settles O25: induction on what is left of the command, and on how far off the event is that it waits for. -/
theorem fairSchedulesEndEveryCommand : Obligations.FairSchedulesEndEveryCommand :=
  fun _ op w steps _ hseq hreset hfair hagents => comesToEnd_of_fair hfair hagents ⟨hreset, op, w, steps, hseq⟩

/-- Settles O11: their checks pass, so each starts with its list. -/
theorem lineCommandsStart : Obligations.LineCommandsStart := by
  intro f s hfault hidle hinit
  refine ⟨exec_starts hfault hidle rfl hinit, fun hstyle => exec_starts hfault hidle (bne_iff_ne.2 hstyle) hinit, ?_⟩
  rw [← clearLines_eq]
  exact exec_starts hfault hidle rfl hinit

/-- Settles O21: the tick is performed whatever SEQ and FAULT are. -/
theorem tickAdvancesTime : Obligations.TickAdvancesTime := by
  intro s hreset
  refine ⟨s.tick, handle_released hreset, rfl, ?_, fun hdly => ?_, fun hdly => ?_⟩
  · simp [State.tick]
  · exact Nat.eq_sub_of_add_eq (toNat_tick_dly_of_ne_zero hdly)
  · rw [tick_dly_of_zero hdly, hdly]

end Sys2Proof.Machine
end

section
/-! `justify` (41_display.md R121, R122), one equation per branch. -/

namespace Sys2Proof.Machine

theorem justify_of_width_le {s : List Byte} (h : 20 ≤ s.length) (style : Style) : justify s style = s.take 20 :=
  if_pos h

/-- A text of 20 bytes is both cut and padded with nothing. -/
theorem justify_of_le_width {s : List Byte} (h : s.length ≤ 20) (style : Style) :
    justify s style = match style with
      | .left => s ++ spaces (20 - s.length)
      | .right => spaces (20 - s.length) ++ s
      | .center => spaces ((20 - s.length) / 2) ++ s ++ spaces ((20 - s.length + 1) / 2) := by
  rcases Nat.lt_or_eq_of_le h with hlt | heq
  · exact if_neg (Nat.not_le.2 hlt)
  · rw [justify_of_width_le heq.ge, ← heq, List.take_length, Nat.sub_self]
    cases style <;> simp [spaces]

theorem justify_empty (style : Style) : justify [] style = List.replicate 20 0x20#8 := by
  cases style <;> rfl

end Sys2Proof.Machine
end

section
/-! The step lists of the display's commands: the bytes they send, and INIT's with INIT_SEQ written out (41_display.md
R125 to R132). -/

namespace Sys2Proof.Machine

/-- The steps after a command's last byte do not raise E. -/
theorem ePulses_append_of_notMem {a b : List MicroStep} {n : Nat} (ha : ePulses a = n)
    (hb : .pin (.e true) ∉ b := by simp) : ePulses (a ++ b) = n := by
  have hzero : ePulses b = 0 := List.count_eq_zero.2 hb
  rw [ePulses_append, ha, hzero, Nat.add_zero]

theorem ePulses_clearLines (p : Params) : ePulses (clearLines p) = 2 * 84 :=
  ePulses_flatMap _ _ 42 fun line _ => ePulses_writeLine p [] line .left

theorem ePulses_initSteps (p : Params) : ePulses (initSteps p) = 2 * 6 := by
  have hseq : ePulses (p.initSeq.toList.flatMap fun b => tx p b .command) = 2 * 6 := by
    rw [ePulses_flatMap _ _ 2 fun b _ => ePulses_tx p b .command, Vector.length_toList]
  exact ePulses_append_of_notMem ((ePulses_append _ _).trans (congrArg (0 + ·) hseq))

theorem toList_initSeq (v : Vector Byte 6) : v.toList = [v[0], v[1], v[2], v[3], v[4], v[5]] :=
  List.ext_getElem v.length_toList fun i hi _ => by
    rw [v.length_toList] at hi
    interval_cases i <;> rfl

theorem initSteps_eq (p : Params) : initSteps p = [.configurePins, .pin (.bl false), .wait p.tReadyOff, .backlightReady]
    ++ tx p p.initSeq[0] .command ++ tx p p.initSeq[1] .command ++ tx p p.initSeq[2] .command
    ++ tx p p.initSeq[3] .command ++ tx p p.initSeq[4] .command ++ tx p p.initSeq[5] .command
    ++ [.wait p.tPostInit, .setInited true, .done] := by
  simp only [initSteps, toList_initSeq, List.flatMap_cons, List.flatMap_nil, List.append_assoc, List.append_nil]

theorem shutdownSteps_eq (p : Params) : shutdownSteps p = writeLine p [] .one .left ++ writeLine p [] .two .left
    ++ writeLine p [] .three .left ++ writeLine p [] .four .left
    ++ [.backlightOff, .releasePins, .setInited false, .done] := by
  rw [shutdownSteps, clearLines_eq]

end Sys2Proof.Machine
end

section
/-! INIT and SHUTDOWN performed without slack (41_display.md R128 to R131): STATUS at the end, the backlight from INIT's
step 4 on, what INIT_SEQ does to a receiver, and what SHUTDOWN leaves. -/

namespace Sys2Proof.Machine

/-- Every accepted command on a block with no delay running starts, and settles its list step by step. -/
theorem exec_then_runEvents_zeroSlack {i : Instr} {s : State} (hfault : s.fault = false) (hidle : s.seq = .idle)
    (hwf : i.wellFormed = true) (hinit : s.inited = wantsInited i) (hdly : s.dly = 0#32)
    (hreset : s.resetPort = false) :
    ∃ x, exec i s = .next { s with seq := x }
      ∧ runEvents (zeroSlack (expand s.params s.message i)) { s with seq := x }
        = .next (State.settleAll (expand s.params s.message i) { s with seq := x }) :=
  ⟨_, exec_starts hfault hidle hwf hinit, runEvents_zeroSlack_expand hreset hdly rfl⟩

/-- STATUS after a command, where neither a fault nor an error was held (R22). -/
theorem status_settleAll_expand (p : Params) (msg : List Byte) (i : Instr) (s : State) (hfault : s.fault = false)
    (herr : s.errcode = .noError) :
    (State.settleAll (expand p msg i) s).status
      = place 9 (BitVec.ofBool (State.settleAll (expand p msg i) s).togEn)
        ||| place 3 (BitVec.ofBool (State.settleAll (expand p msg i) s).blState)
        ||| place 1 (BitVec.ofBool (State.settleAll (expand p msg i) s).inited) := by
  have hidle := settleAll_expand_seq p msg i s
  simp [State.status, State.activeOp, (busy_eq_false_iff _).2 hidle, hidle, settleAll_fault, settleAll_errcode, hfault,
    herr, ErrCode.code, place]

/-! The backlight (R128 step 4, R177). -/

/-- The pins are configured with the edge source as `cfg`, the backlight and the toggler are on since `time`, and E is
low. -/
structure State.LitSince (time : Tick) (cfg : BtnCfg) (s : State) : Prop where
  blState : s.blState = true
  blLast : s.blLast = time
  togEn : s.togEn = true
  pincfg : s.pincfg = .configured
  blPin : s.pins.bl = .hi
  ePin : s.pins.e = .lo
  btnCfg : s.btnCfg = some cfg

/-- INIT's first four steps, of which the third alone waits. -/
theorem litSince_backlightReady (p : Params) (s : State) :
    (State.settleAll [.configurePins, .pin (.bl false), .wait p.tReadyOff, .backlightReady] s).LitSince
      (s.now + p.tReadyOff.setWidth 64) ⟨s.params.btnPull, 700⟩ where
  blState := rfl
  blLast := (settleAll_now [.configurePins, .pin (.bl false), .wait p.tReadyOff] s).trans (by simp [MicroStep.ticks])
  togEn := rfl
  pincfg := rfl
  blPin := rfl
  ePin := rfl
  btnCfg := rfl

/-- Transmissions leave the backlight, and E low. -/
theorem State.LitSince.transmit {time : Tick} {cfg : BtnCfg} {s : State} (h : s.LitSince time cfg)
    (hdly : s.dly = 0#32) (p : Params) (bytes : List Byte) (m : Mode) :
    (State.settleAll (bytes.flatMap fun b => tx p b m) s).LitSince time cfg := by
  induction bytes generalizing s with
  | nil => exact h
  | cons b bytes ih =>
    have hbyte : (State.settleAll (tx p b m) s).LitSince time cfg := by
      rw [settleAll_tx p b m s hdly, afterPhase_afterPhase]
      exact ⟨h.blState, h.blLast, h.togEn, h.pincfg, h.blPin, rfl, h.btnCfg⟩
    rw [List.flatMap_cons, settleAll_append]
    exact ih hbyte (settleAll_dly _ s hdly)

/-- INIT's last steps leave the backlight. -/
theorem State.LitSince.initDone {time : Tick} {cfg : BtnCfg} {s : State} (h : s.LitSince time cfg) (p : Params) :
    (State.settleAll [.wait p.tPostInit, .setInited true, .done] s).LitSince time cfg :=
  ⟨h.blState, h.blLast, h.togEn, h.pincfg, h.blPin, h.ePin, h.btnCfg⟩

theorem litSince_initSteps (p : Params) (s : State) :
    (State.settleAll (initSteps p) s).LitSince (s.now + p.tReadyOff.setWidth 64) ⟨s.params.btnPull, 700⟩ := by
  rw [initSteps, settleAll_append, settleAll_append]
  exact ((litSince_backlightReady p s).transmit rfl p _ .command).initDone p

/-! The receiver (R70 to R74). -/

theorem takeCommandByte_betweenBytes {r : Receiver} (h : r.betweenBytes) (b : Byte) :
    (r.takeCommandByte b).betweenBytes := by
  unfold Receiver.takeCommandByte
  split
  · exact h
  · split <;> exact h

/-- Command bytes leave the receiver between two bytes. -/
theorem feedAll_commands_betweenBytes {r : Receiver} (h : r.betweenBytes) (p : Params) (bytes : List Byte) :
    (r.feedAll (updatesOf (bytes.flatMap fun b => tx p b .command))).betweenBytes := by
  induction bytes generalizing r with
  | nil => exact h
  | cons b bytes ih =>
    obtain ⟨hc, he, hh⟩ := h
    have hlines : { r with rs := false, d := loNibble b }.betweenBytes := ⟨hc, he, hh⟩
    rw [List.flatMap_cons, updatesOf_append, feedAll_append, feedAll_tx p b .command r hc he hh]
    exact ih (takeCommandByte_betweenBytes hlines b)

/-- AC is 0 and every byte of DDRAM a space (R73). -/
structure Receiver.Cleared (r : Receiver) : Prop where
  ac : r.ac = 0#7
  ddram : r.ddram = fun _ => 0x20#8

theorem feedAll_clearByte {r : Receiver} (h : r.betweenBytes) (p : Params) :
    (r.feedAll (updatesOf (tx p 0x01#8 .command))).Cleared := by
  obtain ⟨hc, he, hh⟩ := h
  rw [feedAll_tx p _ .command r hc he hh]
  exact ⟨rfl, rfl⟩

theorem Receiver.Cleared.row {r : Receiver} (h : r.Cleared) (p : Params) (line : Line) :
    r.row p line = List.replicate 20 0x20#8 := by
  rw [Receiver.row, h.ddram]
  rfl

/-- The pairing starts afresh when the pins are configured, whatever came before (R71). -/
theorem feedAll_configure_betweenBytes (r : Receiver) (n : BitVec 32) :
    (r.feedAll (updatesOf [.configurePins, .pin (.bl false), .wait n, .backlightReady])).betweenBytes :=
  ⟨rfl, rfl, rfl⟩

/-- The default INIT_SEQ ends with the byte 0x01. -/
theorem feedAll_initSteps {p : Params} (hp : p.initSeq = Params.default.initSeq) (r : Receiver) :
    (r.feedAll (updatesOf (initSteps p))).Cleared := by
  have hseq : p.initSeq.toList = [0x33#8, 0x32#8, 0x06#8, 0x0C#8, 0x28#8] ++ [0x01#8] := by rw [hp]; rfl
  have hend : updatesOf [.wait p.tPostInit, .setInited true, .done] = [] := rfl
  rw [initSteps, hseq, List.flatMap_append, List.flatMap_singleton, updatesOf_append, updatesOf_append,
    updatesOf_append, hend, List.append_nil, feedAll_append, feedAll_append]
  exact feedAll_clearByte (feedAll_commands_betweenBytes (feedAll_configure_betweenBytes r _) p _) p

/-- The receiver takes what a step list sends. -/
theorem settleAll_receiver (l : List MicroStep) (s : State) :
    (State.settleAll l s).receiver = s.receiver.feedAll (updatesOf l) :=
  (congrArg (Receiver.feedAll .powerOn) (settleAll_sent l s)).trans (feedAll_append _ _ _)

/-! SHUTDOWN's last steps (R130, R131). -/

theorem settleAll_shutdownSteps_off (p : Params) (s : State) :
    let u := State.settleAll (shutdownSteps p) s
    u.inited = false ∧ u.blState = false ∧ u.togEn = false ∧ u.pincfg = .released ∧ u.pins = Pins.released
      ∧ u.btnCfg = none := by
  rw [shutdownSteps, settleAll_append]
  exact ⟨rfl, rfl, rfl, rfl, rfl, rfl⟩

end Sys2Proof.Machine
end

section
/-! The statements of 41_display.md: `justify`, the bytes of each command, and INIT and SHUTDOWN from start to end. -/

namespace Sys2Proof.Machine

/-- Settles O48: a text of at most 20 bytes is padded, a longer one cut. -/
theorem justifyProperties : Obligations.JustifyProperties := by
  intro s style
  refine ⟨length_justify s style, fun h => ⟨?_, ?_, ?_⟩, fun h => justify_of_width_le h.le style, justify_empty style⟩
  · rw [justify_of_le_width h]
    exact List.prefix_append _ _
  · rw [justify_of_le_width h]
    exact List.suffix_append _ _
  · have hhalves : (20 - s.length + 1) / 2 = 20 - s.length - (20 - s.length) / 2 := by omega
    rw [justify_of_le_width h, hhalves]
    rfl

/-- Settles O17: transmission by transmission; the other steps leave E. -/
theorem bytesPerCommand : Obligations.BytesPerCommand := by
  intro p msg f
  exact ⟨ePulses_initSteps p, ePulses_append_of_notMem (ePulses_writeLine p msg _ _),
    ePulses_append_of_notMem (ePulses_clearLines p), ePulses_append_of_notMem (ePulses_clearLines p),
    ePulses_append_of_notMem (ePulses_tx p _ _)⟩

/-- Settles O12: their checks pass, so each starts with its list. -/
theorem lifecycleCommandsStart : Obligations.LifecycleCommandsStart := by
  intro f s hfault hidle
  rw [← initSteps_eq, ← shutdownSteps_eq]
  exact ⟨exec_starts (i := .init f) hfault hidle rfl, exec_starts (i := .shutdown f) hfault hidle rfl⟩

/-- Settles O52: the backlight is lit at step 4 and kept, and INIT_SEQ's last byte clears the receiver. -/
theorem initRun : Obligations.InitRun := by
  intro f s hfault hidle hinit hdly hreset
  obtain ⟨x, hexec, hrun⟩ := exec_then_runEvents_zeroSlack (i := .init f) hfault hidle rfl hinit hdly hreset
  have hlit := litSince_initSteps s.params { s with seq := x }
  have hinited : (State.settleAll (initSteps s.params) { s with seq := x }).inited = true :=
    settleAll_expand_inited (i := .init f) (msg := s.message) hinit
  refine ⟨_, _, hexec, hrun, fun herr => ?_, hinited, hlit.blState, hlit.togEn, hlit.blLast, hlit.pincfg, hlit.blPin,
    hlit.ePin, hlit.btnCfg, settleAll_msgBuf _ _, settleAll_msgLen _ _, fun hseq => ?_⟩
  · rw [status_settleAll_expand _ _ _ { s with seq := x } hfault herr, expand, hlit.togEn, hlit.blState, hinited]
    rfl
  · have hcleared := feedAll_initSteps hseq (State.receiver { s with seq := x })
    rw [← settleAll_receiver] at hcleared
    exact ⟨hcleared.ac, hcleared.row s.params⟩

/-- Settles O53: the last four steps set every field that the statement names. -/
theorem shutdownRun : Obligations.ShutdownRun := by
  intro f s hfault hidle hinit hdly hreset
  obtain ⟨x, hexec, hrun⟩ := exec_then_runEvents_zeroSlack (i := .shutdown f) hfault hidle rfl hinit hdly hreset
  obtain ⟨hinited, hbl, htog, hcfg, hpins, hbtn⟩ := settleAll_shutdownSteps_off s.params { s with seq := x }
  refine ⟨_, _, hexec, hrun, fun herr => ?_, hinited, hbl, htog, hcfg, hpins, hbtn, settleAll_msgBuf _ _,
    settleAll_msgLen _ _⟩
  rw [status_settleAll_expand _ _ _ { s with seq := x } hfault herr, expand, htog, hbl, hinited]
  rfl

end Sys2Proof.Machine
end

section
/-! The accumulators of ANIM_LEFT and ANIM_RIGHT in closed form (42_animation.md R151 to R155). -/

namespace Sys2Proof.Machine

@[simp] theorem length_spaces (n : Nat) : (spaces n).length = n := List.length_replicate

@[simp] theorem spaces_zero : spaces 0 = [] := rfl

theorem spaces_append (m n : Nat) : spaces m ++ spaces n = spaces (m + n) := List.replicate_append_replicate

theorem take_spaces (k n : Nat) : (spaces n).take k = spaces (min k n) := List.take_replicate

theorem drop_spaces (k n : Nat) : (spaces n).drop k = spaces (n - k) := List.drop_replicate

theorem justify_left (s : List Byte) : justify s .left = (s ++ spaces 20).take 20 := by
  rcases Nat.le_total 20 s.length with h | h
  · rw [justify_of_width_le h, List.take_append_of_le_length h]
  · rw [justify_of_le_width h, List.take_append, List.take_of_length_le h, take_spaces, min_eq_left (Nat.sub_le _ _)]

/-- R151: step I copies the first I bytes, or adds one space to a message that has run out. -/
theorem accLeft_eq (msg : List Byte) (k : Nat) : accLeft msg k = msg.take k ++ spaces (k - msg.length) := by
  induction k with
  | zero => simp [accLeft]
  | succ k ih =>
    by_cases h : msg.length < k + 1
    · rw [accLeft, if_pos h, ih, List.take_of_length_le (by omega), List.take_of_length_le h.le, List.append_assoc,
        spaces_append, Nat.sub_add_comm (by omega)]
    · rw [accLeft, if_neg h, Nat.sub_eq_zero_of_le (by omega), spaces_zero, List.append_nil]

/-- R152. -/
theorem justify_accLeft (msg : List Byte) {k : Nat} (hk : k ≤ 20) :
    justify (accLeft msg k) .right = spaces (20 - k) ++ (msg ++ spaces 20).take k := by
  have hacc : accLeft msg k = (msg ++ spaces 20).take k := by
    rw [accLeft_eq, List.take_append, take_spaces, min_eq_left (by omega)]
  have hlen : (accLeft msg k).length = k := by simp [hacc]; omega
  rw [justify_of_le_width (hlen.trans_le hk), hlen, hacc]

/-- R153: while I is at least `d`, ACC is the end of the message from `I - d` on; below `d` each step adds a space. -/
theorem accRight_eq (msg : List Byte) {k : Nat} (hk : k ≤ 20) :
    accRight msg k = spaces (k - msg.length) ++ msg.drop (20 - k - (20 - msg.length)) := by
  have hmargin : marginRight msg = 20 - msg.length := rfl
  induction k with
  | zero => rw [accRight, accRightStep, hmargin, if_neg (by omega), Nat.zero_sub, spaces_zero, List.nil_append]
  | succ k ih =>
    by_cases h : 20 - (k + 1) < 20 - msg.length
    · have hrest : 20 - k - (20 - msg.length) = 20 - (k + 1) - (20 - msg.length) := by omega
      rw [accRight, accRightStep, hmargin, if_pos h, ih (by omega), ← List.append_assoc, spaces_append, hrest,
        ← Nat.add_sub_assoc (by omega), Nat.add_comm 1 k]
    · rw [accRight, accRightStep, hmargin, if_neg h, Nat.sub_eq_zero_of_le (by omega : k + 1 ≤ msg.length),
        spaces_zero, List.nil_append]

/-- R154. -/
theorem justify_accRight_of_le_width {msg : List Byte} (h : msg.length ≤ 20) {k : Nat} (hk : k ≤ 20) :
    justify (accRight msg k) .left = (spaces 20 ++ msg).drop (20 + msg.length - k) ++ spaces (20 - k) := by
  have hspaces : 20 - (20 + msg.length - k) = k - msg.length := by omega
  have hrest : 20 + msg.length - k - 20 = 20 - k - (20 - msg.length) := by omega
  have hacc : accRight msg k = (spaces 20 ++ msg).drop (20 + msg.length - k) := by
    rw [accRight_eq msg hk, List.drop_append, drop_spaces, length_spaces, hspaces, hrest]
  have hlen : (accRight msg k).length = k := by simp [hacc]; omega
  rw [justify_of_le_width (hlen.trans_le hk), hlen, hacc]

/-- R155: with no margin the frames are the ends of the message, cut to the width. -/
theorem justify_accRight_of_width_lt {msg : List Byte} (h : 20 < msg.length) {k : Nat} (hk : k ≤ 20) :
    justify (accRight msg k) .left = (msg.drop (20 - k) ++ spaces 20).take 20 := by
  rw [justify_left, accRight_eq msg hk, Nat.sub_eq_zero_of_le h.le, Nat.sub_zero,
    Nat.sub_eq_zero_of_le (hk.trans h.le), spaces_zero, List.nil_append]

end Sys2Proof.Machine
end

section
/-! The frames of the animations: their visible steps, the bytes they send and their frame delays (42_animation.md R150,
R159). ANIM_LEFT and ANIM_RIGHT differ in their accumulators and styles alone. -/

namespace Sys2Proof.Machine

/-- One frame of ANIM_LEFT or ANIM_RIGHT: I, ACC, its line, and the frame delay (R150). -/
def slideFrame (p : Params) (line : Line) (style : Style) (i : Fin 21) (acc : List Byte) : List MicroStep :=
  [.setI i, .setAcc acc] ++ writeLine p acc line style ++ [.wait p.tFrame]

/-- The step list of `n` frames, over the value of I and ACC at each (R151, R153). -/
def slideSteps (p : Params) (line : Line) (style : Style) (i : Nat → Fin 21) (acc : Nat → List Byte) (n : Nat) :
    List MicroStep :=
  .setAcc [] :: ((List.range n).flatMap fun k => slideFrame p line style (i k) (acc k)) ++ [.done]

theorem animLeftSteps_eq_slideSteps (p : Params) (msg : List Byte) (f : Fields) : animLeftSteps p msg f
    = slideSteps p (Line.ofField f.line) .right (fun k => Fin.ofNat 21 (k + 1)) (fun k => accLeft msg (k + 1)) 20 := rfl

theorem animRightSteps_eq_slideSteps (p : Params) (msg : List Byte) (f : Fields) : animRightSteps p msg f
    = slideSteps p (Line.ofField f.line) .left (fun k => Fin.ofNat 21 (20 - k)) (accRight msg) 21 := rfl

theorem filter_isVisible_slideFrame (p : Params) (line : Line) (style : Style) (i : Fin 21) (acc : List Byte) :
    (slideFrame p line style i acc).filter MicroStep.isVisible = writeLine p acc line style ++ [.wait p.tFrame] := by
  simp [slideFrame, MicroStep.isVisible]

theorem filter_isVisible_slideSteps (p : Params) (line : Line) (style : Style) (i : Nat → Fin 21)
    (acc : Nat → List Byte) (n : Nat) : (slideSteps p line style i acc n).filter MicroStep.isVisible
      = ((List.range n).flatMap fun k => writeLine p (acc k) line style ++ [.wait p.tFrame]) ++ [.done] := by
  simp [slideSteps, MicroStep.isVisible, List.filter_flatMap, filter_isVisible_slideFrame]

/-! The bytes: a line is 42 E pulses, and the other steps of a frame leave E. -/

theorem ePulses_cons_of_ne {m : MicroStep} {l : List MicroStep} (h : m ≠ .pin (.e true) := by simp) :
    ePulses (m :: l) = ePulses l :=
  List.count_cons_of_ne h

theorem ePulses_slideFrame (p : Params) (line : Line) (style : Style) (i : Fin 21) (acc : List Byte) :
    ePulses (slideFrame p line style i acc) = 42 :=
  ePulses_append_of_notMem ((ePulses_append _ _).trans (congrArg (0 + ·) (ePulses_writeLine p acc line style)))

theorem ePulses_slideSteps (p : Params) (line : Line) (style : Style) (i : Nat → Fin 21) (acc : Nat → List Byte)
    (n : Nat) : ePulses (slideSteps p line style i acc n) = n * 42 := by
  refine ePulses_append_of_notMem ?_
  rw [ePulses_cons_of_ne, ePulses_flatMap _ _ 42 fun k _ => ePulses_slideFrame p line style (i k) (acc k),
    List.length_range]

theorem ePulses_frameDown (p : Params) (msg : List Byte) (style : Style) (trail : Bool) (n k : Nat) :
    ePulses (frameDown p msg style trail n k) = 42 * linesPerFrame trail := by
  rw [frameDown, ePulses_cons_of_ne]
  refine ePulses_append_of_notMem ?_ (by split <;> simp)
  rw [ePulses_append, ePulses_writeLine]
  cases trail
  · exact congrArg (· + 42) (ePulses_writeLine p [] _ .left)
  · rfl

theorem ePulses_animDownSteps (p : Params) (msg : List Byte) (f : Fields) :
    ePulses (animDownSteps p msg f) = f.lineCount * (42 * linesPerFrame f.trail) := by
  refine ePulses_append_of_notMem ?_
  rw [ePulses_flatMap _ _ _ fun k _ => ePulses_frameDown p msg _ _ _ k, List.length_range]

/-! The frame delays, where T_FRAME differs from the waits of a transmission. -/

theorem count_flatMap_of_count_eq {α : Type} (m : MicroStep) (l : List α) (g : α → List MicroStep) (k : Nat)
    (h : ∀ x ∈ l, (g x).count m = k) : (l.flatMap g).count m = l.length * k := by
  have hcounts : ∀ x ∈ l, (List.count m ∘ g) x = k := h
  rw [List.count_flatMap, List.map_congr_left hcounts, List.map_const', List.sum_replicate, smul_eq_mul]

section FrameDelays

variable {p : Params} (hsettle : p.tFrame ≠ p.tSettle) (hpulse : p.tFrame ≠ p.tPulse)
include hsettle hpulse

theorem frameDelay_notMem_tx (v : Byte) (m : Mode) : .wait p.tFrame ∉ tx p v m := by
  simp [tx, txPhase, hsettle, hpulse]

theorem count_frameDelay_writeLine (s : List Byte) (line : Line) (style : Style) :
    (writeLine p s line style).count (.wait p.tFrame) = 0 :=
  List.count_eq_zero.2 (by simp [writeLine, frameDelay_notMem_tx hsettle hpulse])

theorem count_frameDelay_slideFrame (line : Line) (style : Style) (i : Fin 21) (acc : List Byte) :
    (slideFrame p line style i acc).count (.wait p.tFrame) = 1 := by
  simp [slideFrame, count_frameDelay_writeLine hsettle hpulse]

theorem count_frameDelay_slideSteps (line : Line) (style : Style) (i : Nat → Fin 21) (acc : Nat → List Byte) (n : Nat) :
    (slideSteps p line style i acc n).count (.wait p.tFrame) = n := by
  have hframes := count_flatMap_of_count_eq (.wait p.tFrame) (List.range n) _ 1
    fun k _ => count_frameDelay_slideFrame hsettle hpulse line style (i k) (acc k)
  simp [slideSteps, hframes]

theorem count_frameDelay_frameDown (msg : List Byte) (style : Style) (trail : Bool) (n k : Nat) :
    (frameDown p msg style trail n k).count (.wait p.tFrame) = if k + 1 < n then 1 else 0 := by
  have hblank : (if trail then [] else writeLine p [] (Line.ofIndex (k + 3)) .left).count (.wait p.tFrame) = 0 := by
    cases trail
    · exact count_frameDelay_writeLine hsettle hpulse _ _ _
    · rfl
  have hdelay : (if k + 1 < n then [MicroStep.wait p.tFrame] else []).count (.wait p.tFrame)
      = if k + 1 < n then 1 else 0 := by
    split <;> simp
  simp [frameDown, hblank, hdelay, count_frameDelay_writeLine hsettle hpulse]

/-- R150: every line but the last is followed by the delay. -/
theorem count_frameDelay_animDownSteps (msg : List Byte) (f : Fields) :
    (animDownSteps p msg f).count (.wait p.tFrame) = f.lineCount - 1 := by
  obtain ⟨n, hn⟩ := Nat.exists_eq_add_of_lt (lineCount_pos f)
  rw [Nat.zero_add] at hn
  have hfirst := count_flatMap_of_count_eq (.wait p.tFrame) (List.range n)
    (frameDown p msg (Style.ofField f.style) f.trail (n + 1)) 1 fun k hk => by
      rw [count_frameDelay_frameDown hsettle hpulse, if_pos (Nat.succ_lt_succ (List.mem_range.1 hk))]
  simp [animDownSteps, hn, List.range_succ, hfirst, count_frameDelay_frameDown hsettle hpulse]

end FrameDelays

end Sys2Proof.Machine
end

section
/-! The statements of 42_animation.md: the frames of ANIM_LEFT and ANIM_RIGHT, and what the animations send. -/

namespace Sys2Proof.Machine

/-- Settles O13: frame by frame, the accumulator in its closed form. -/
theorem animLeftStarts : Obligations.AnimLeftStarts := by
  intro f s hfault hidle hinit
  refine ⟨_, exec_starts hfault hidle rfl hinit, ?_⟩
  rw [expand, animLeftSteps_eq_slideSteps, filter_isVisible_slideSteps]
  congr 1
  refine List.flatMap_congr fun k hk => ?_
  rw [writeLine, justify_accLeft _ (List.mem_range.1 hk)]

/-- Settles O14: frame by frame, with the margin of a message that fits its line and without one (R155). -/
theorem animRightStarts : Obligations.AnimRightStarts := by
  intro f s hfault hidle hinit
  refine ⟨_, exec_starts hfault hidle rfl hinit, ?_⟩
  rw [expand, animRightSteps_eq_slideSteps, filter_isVisible_slideSteps]
  congr 1
  refine List.flatMap_congr fun k hk => ?_
  have hk20 : k ≤ 20 := Nat.le_of_lt_succ (List.mem_range.1 hk)
  rw [writeLine]
  split
  next h => rw [justify_accRight_of_le_width h hk20]
  next h => rw [justify_accRight_of_width_lt (Nat.not_le.1 h) hk20]

/-- Settles O18: line by line and frame by frame. -/
theorem animationCounts : Obligations.AnimationCounts := by
  intro p msg f hsettle hpulse n
  refine ⟨⟨ePulses_slideSteps p _ _ _ _ 20, count_frameDelay_slideSteps hsettle hpulse _ _ _ _ 20⟩,
    ⟨ePulses_slideSteps p _ _ _ _ 21, count_frameDelay_slideSteps hsettle hpulse _ _ _ _ 21⟩,
    fun htrail => ⟨?_, count_frameDelay_animDownSteps hsettle hpulse msg f⟩,
    fun htrail => ⟨?_, count_frameDelay_animDownSteps hsettle hpulse msg f⟩⟩
  · rw [expand, ePulses_animDownSteps, htrail]
    exact (by omega : n * 42 = 2 * (21 * n))
  · rw [expand, ePulses_animDownSteps, htrail]
    exact (by omega : n * 84 = 2 * (42 * n))

end Sys2Proof.Machine
end

section
/-! The toggler's guard, its step on one edge event, and the window after an accepted one (43_backlight.md R171, R172,
R174, R180). -/

namespace Sys2Proof.Machine

/-! The guard. -/

theorem edgeAccepted_iff (s : State) :
    s.edgeAccepted = true ↔ s.togEn = true ∧ s.params.tDebounce.toNat < (s.now - s.blLast).toNat := by
  simp [State.edgeAccepted, BitVec.lt_def]

theorem edgeAccepted_eq_false_iff (s : State) :
    s.edgeAccepted = false ↔ s.togEn = false ∨ (s.now - s.blLast).toNat ≤ s.params.tDebounce.toNat := by
  rw [← Bool.not_eq_true, edgeAccepted_iff, not_and_or, Bool.not_eq_true, Nat.not_lt]

/-- The modulo-2^64 difference of R172. -/
theorem toNat_now_sub_blLast (s : State) :
    (s.now - s.blLast).toNat = (s.now.toNat + 2 ^ 64 - s.blLast.toNat) % 2 ^ 64 := by
  rw [BitVec.toNat_sub', ← Nat.add_sub_assoc (Nat.le_of_lt s.blLast.isLt)]

/-! The step. -/

theorem handle_edge_refused {s : State} (h : s.edgeAccepted = false) (b : Bool) : handle (.edge b) s = .next s := by
  cases hr : s.resetPort
  · simp [handle_released hr, agentStep, edgeStep, h]
  · exact handle_agent_in_reset rfl hr

theorem handle_edge_accepted {s : State} (hr : s.resetPort = false) (h : s.edgeAccepted = true) (b : Bool) :
    handle (.edge b) s = .next (if b then s.toggleFailure else s.toggle) := by
  simp [handle_released hr, agentStep, edgeStep, h]

theorem ofBool_not (b : Bool) : Level.ofBool (!b) = if b then .lo else .hi := by cases b <;> rfl

theorem toggle_eq (s : State) : s.toggle = { s with
    blState := !s.blState
    pins := { s.pins with bl := if s.blState then .lo else .hi }
    blLast := s.now
    trace := ⟨s.now, .write (.bl (!s.blState))⟩ :: s.trace } := by
  rw [← ofBool_not]
  rfl

/-! The window. -/

/-- Every edge event is refused for `n` more ticks, also where INIT's step 4 turns the toggler on meanwhile: BL_LAST is
then that step's NOW. -/
def State.refusesEdgesFor (s : State) (n : Nat) : Prop :=
  n ≤ s.params.tDebounce.toNat ∧ (s.togEn = true → (s.now - s.blLast).toNat + n ≤ s.params.tDebounce.toNat)

theorem State.refusesEdgesFor.mono {s : State} {m n : Nat} (h : s.refusesEdgesFor n) (hmn : m ≤ n) :
    s.refusesEdgesFor m :=
  ⟨hmn.trans h.1, fun htog => (Nat.add_le_add_left hmn _).trans (h.2 htog)⟩

theorem State.refusesEdgesFor.edgeAccepted {s : State} {n : Nat} (h : s.refusesEdgesFor n) :
    s.edgeAccepted = false := by
  rw [edgeAccepted_eq_false_iff, ← Bool.not_eq_true]
  exact not_or_of_imp fun htog => (Nat.le_add_right _ _).trans (h.2 htog)

theorem refusesEdgesFor_of_togEn {s : State} {n : Nat} (hn : n ≤ s.params.tDebounce.toNat) (htog : s.togEn = false) :
    s.refusesEdgesFor n :=
  ⟨hn, fun h => absurd (htog.symm.trans h) Bool.false_ne_true⟩

theorem refusesEdgesFor_of_blLast {s : State} {n : Nat} (hn : n ≤ s.params.tDebounce.toNat) (hlast : s.blLast = s.now) :
    s.refusesEdgesFor n :=
  ⟨hn, fun _ => by rw [hlast, BitVec.sub_self]; simpa using hn⟩

theorem State.refusesEdgesFor.tick {s : State} {n : Nat} (h : s.refusesEdgesFor (n + 1)) :
    s.tick.refusesEdgesFor n := by
  refine ⟨(Nat.le_succ n).trans h.1, fun htog => ?_⟩
  have hwindow := h.2 htog
  have helapsed : (s.now + 1#64 - s.blLast).toNat ≤ (s.now - s.blLast).toNat + 1 := by bv_omega
  simp only [tick_now, tick_blLast, tick_params]
  omega

theorem State.refusesEdgesFor.perform {s : State} {n : Nat} (h : s.refusesEdgesFor n) (m : MicroStep) :
    (s.perform m).refusesEdgesFor n := by
  cases m with
  | backlightReady => exact refusesEdgesFor_of_blLast h.1 rfl
  | backlightOff => exact refusesEdgesFor_of_togEn h.1 rfl
  | _ => exact h

theorem WriteEffect.refusesEdgesFor {wd : Width} {off : Offset} {v : Word} {s t : State} {n : Nat}
    (e : WriteEffect s wd off v t) (h : s.refusesEdgesFor n) : t.refusesEdgesFor n := by
  cases e <;> exact h

/-- Of an agent's steps only the tick shortens the window. -/
theorem AgentEffect.refusesEdgesFor {ev : Event} {s t : State} {n : Nat} (e : AgentEffect s ev t)
    (h : s.refusesEdgesFor ([ev].count .tick + n)) : t.refusesEdgesFor n := by
  have hn := h.mono (Nat.le_add_left _ _)
  cases e with
  | tick => exact State.refusesEdgesFor.tick (Nat.add_comm n 1 ▸ h)
  | @perform _ op w m rest => exact State.refusesEdgesFor.perform (s := { s with seq := .running op w rest }) hn m
  | gpioFailure | toggleFailure => exact refusesEdgesFor_of_togEn hn.1 rfl
  | toggle => exact refusesEdgesFor_of_blLast hn.1 rfl
  | write _ heffect => exact heffect.refusesEdgesFor hn
  | nothing | read | refusedRead => exact hn

/-- R180: within the window every edge event is refused, whatever the agents do. -/
theorem runEvents_refusesEdges {evs : List Event} {s u : State} (h : runEvents evs s = .next u)
    (ha : evs.all isAgent = true) (hs : s.refusesEdgesFor (evs.count .tick)) : u.edgeAccepted = false := by
  induction evs generalizing s with
  | nil => cases h; exact hs.edgeAccepted
  | cons ev evs ih =>
    obtain ⟨t, ht, h'⟩ := runEvents_cons h
    simp only [List.all_cons, Bool.and_eq_true] at ha
    rw [← List.singleton_append, List.count_append] at hs
    exact ih h' ha.2 ((handle_effect ha.1 ht).refusesEdgesFor hs)

end Sys2Proof.Machine
end

section
/-! The sequencer's step, one equation per state of SEQ and DLY (10_state.md R33, 60_exceptions.md R212), and that it
reads neither BL_STATE nor BL_LAST (43_backlight.md R175). -/

namespace Sys2Proof.Machine

theorem sequencerStep_idle {s : State} (hidle : s.seq = .idle) (b : Bool) : sequencerStep b s = .next s := by
  simp [sequencerStep, hidle]

theorem sequencerStep_waiting {s : State} {op : BitVec 4} {w : Word} {steps : List MicroStep}
    (hseq : s.seq = .running op w steps) (hdly : s.dly ≠ 0#32) (b : Bool) : sequencerStep b s = .next s := by
  simp [sequencerStep, hseq, hdly]

theorem sequencerStep_enabled {s : State} {op : BitVec 4} {w : Word} {m : MicroStep} {rest : List MicroStep}
    (hseq : s.seq = .running op w (m :: rest)) (hdly : s.dly = 0#32) (b : Bool) :
    sequencerStep b s = .next
      (if b && m.usesGpio then s.gpioFailure else { s with seq := .running op w rest }.perform m) := by
  simp only [sequencerStep, hseq, hdly, ne_eq, not_true_eq_false, if_false]
  split <;> rfl

/-- `t` is `s` but for BL_STATE and BL_LAST. -/
def sameButBacklight (s t : State) : Prop := t = { s with blState := t.blState, blLast := t.blLast }

theorem perform_sameButBacklight (m : MicroStep) (s : State) (x : Bool) (y : Tick) :
    sameButBacklight (s.perform m) ({ s with blState := x, blLast := y }.perform m) := by
  cases m <;> rfl

theorem sequencerStep_sameButBacklight {b : Bool} {s t : State} (h : sequencerStep b s = .next t) (x : Bool)
    (y : Tick) :
    ∃ u, sequencerStep b { s with blState := x, blLast := y } = .next u ∧ sameButBacklight t u := by
  rcases sequencerStep_cases h with
    ⟨hidle, rfl⟩ | ⟨_, _, _, hseq, hdly, rfl⟩ | ⟨_, _, m, _, hseq, hdly, rfl, hgpio, rfl⟩
      | ⟨op, w, m, rest, hseq, hdly, hb, rfl⟩
  · exact ⟨_, sequencerStep_idle (s := { t with blState := x, blLast := y }) hidle b, rfl⟩
  · exact ⟨_, sequencerStep_waiting (s := { t with blState := x, blLast := y }) hseq hdly b, rfl⟩
  · refine ⟨_, sequencerStep_enabled (s := { s with blState := x, blLast := y }) hseq hdly true, ?_⟩
    rw [hgpio]
    rfl
  · refine ⟨_, sequencerStep_enabled (s := { s with blState := x, blLast := y }) hseq hdly b, ?_⟩
    have hok : ¬ (b && m.usesGpio) = true := by rcases hb with hb | hgpio <;> simp [*]
    rw [if_neg hok]
    exact perform_sameButBacklight m { s with seq := .running op w rest } x y

end Sys2Proof.Machine
end

section
/-! The statements of 43_backlight.md: the toggle rule, the window, the toggler beside the sequencer, and the GPIO
failure of either. -/

namespace Sys2Proof.Machine

/-- Settles O30: an accepted event opens the window, which only ticks shorten. -/
theorem secondEdgeInWindowRefused : Obligations.SecondEdgeInWindowRefused := by
  refine fun s hr => ⟨fun haccepted => ?_, handle_edge_refused⟩
  refine ⟨s.toggle, handle_edge_accepted hr haccepted false, rfl, fun evs u ha hrun hcount => ?_⟩
  have hwindow : s.toggle.refusesEdgesFor (evs.count .tick) := refusesEdgesFor_of_blLast hcount rfl
  exact handle_edge_refused (runEvents_refusesEdges hrun ha hwindow)

/-- Settles O32: the toggler's step in its three cases (RESET asserted, accepted, refused), then the sequencer's. -/
theorem togglerAndSequencerIndependent : Obligations.TogglerAndSequencerIndependent := by
  refine ⟨fun s t h => ?_, fun s t b x y h => sequencerStep_sameButBacklight h x y⟩
  rcases Bool.eq_false_or_eq_true s.resetPort with hr | hr
  · rw [handle_agent_in_reset rfl hr] at h
    cases h
    exact ⟨rfl, rfl, rfl, fun q => handle_agent_in_reset (s := { s with seq := q }) rfl hr⟩
  · rcases Bool.eq_false_or_eq_true s.edgeAccepted with haccepted | hrefused
    · rw [handle_edge_accepted hr haccepted] at h
      cases h
      exact ⟨rfl, toggle_sentDisplay s, rfl,
        fun q => handle_edge_accepted (s := { s with seq := q }) hr haccepted false⟩
    · rw [handle_edge_refused hrefused] at h
      cases h
      exact ⟨rfl, rfl, rfl, fun q => handle_edge_refused (s := { s with seq := q }) hrefused false⟩

/-- Settles O34: a failing micro-step is `gpioFailure`, a failing toggler write `toggleFailure`, and nothing else. -/
theorem gpioFailureAborts : Obligations.GpioFailureAborts := by
  refine ⟨fun s op w m rest hseq hdly hr => ?_, fun s haccepted hr => ?_⟩
  · simp only [handle_released hr, agentStep, sequencerStep_enabled hseq hdly]
    constructor
    · intro hm
      have hgpio : m.usesGpio = true := by rcases hm with ⟨_, rfl⟩ | rfl | rfl | rfl | rfl <;> rfl
      rw [hgpio]
      exact ⟨s.gpioFailure, rfl, rfl, rfl, rfl, rfl, rfl, rfl, rfl, rfl, rfl, rfl, rfl, rfl, rfl⟩
    · intro hm
      have hgpio : m.usesGpio = false := by
        rcases hm with ⟨_, rfl⟩ | ⟨_, rfl⟩ | ⟨_, rfl⟩ | ⟨_, rfl⟩ | ⟨_, rfl⟩ | rfl <;> rfl
      rw [hgpio]
      rfl
  · exact ⟨s.toggleFailure, handle_edge_accepted hr haccepted true, rfl, rfl, rfl, rfl, rfl, rfl, rfl, rfl⟩

/-- Settles O29: the guard is the statement's, and an accepted event is `toggle`. -/
theorem toggleRule : Obligations.ToggleRule := by
  intro s hr
  rw [← toNat_now_sub_blLast, ← edgeAccepted_iff, Bool.not_eq_true]
  refine ⟨fun htog hwindow => ?_, handle_edge_refused⟩
  rw [handle_edge_accepted hr ((edgeAccepted_iff s).2 ⟨htog, hwindow⟩) false, ← toggle_eq]
  rfl

/-- Settles O31: the guard refuses both events, and each of the named points clears TOG_EN. -/
theorem edgeWithoutEffect : Obligations.EdgeWithoutEffect :=
  ⟨fun s h => handle_edge_refused ((edgeAccepted_eq_false_iff s).2 h), rfl, fun _ => ⟨rfl, rfl, rfl⟩⟩

end Sys2Proof.Machine
end

section
/-! The access check, the window an admitted access names, and the checks of a MSG_LEN and a MSG_BUF write (20_memory.md
R51 to R58, 60_exceptions.md R204, R206). -/

namespace Sys2Proof.Machine

/-! The accesses of R52 and R53. -/

theorem admitted_iff (wd : Width) (off : Offset) :
    admitted wd off = true ↔ off.toNat % wd.bytes = 0 ∧ (msgBase ≤ off.toNat ∨ wd = .w32) := by
  simp [admitted, or_comm]

theorem admitted_eq_false_iff (wd : Width) (off : Offset) :
    admitted wd off = false ↔ off.toNat % wd.bytes ≠ 0 ∨ (off.toNat < msgBase ∧ wd ≠ .w32) := by
  rw [← Bool.not_eq_true, admitted_iff, not_and_or, not_or, Nat.not_le]

/-- Below MSG_BUF a narrow access is not admitted (R53). -/
theorem not_admitted_narrow {wd : Width} {off : Offset} (hwd : wd ≠ .w32) (hlow : off.toNat < msgBase) :
    admitted wd off = false := (admitted_eq_false_iff wd off).2 (.inr ⟨hlow, hwd⟩)

/-- An admitted access is to CMD, to STATUS, to MSG_LEN, to a reserved offset or to MSG_BUF (R51, R53). -/
theorem admitted_cases {wd : Width} {off : Offset} (h : admitted wd off = true) :
    (wd = .w32 ∧ off = 0x00#7) ∨ (wd = .w32 ∧ off = 0x04#7) ∨ (wd = .w32 ∧ off = 0x08#7)
      ∨ (wd = .w32 ∧ 0x0C ≤ off.toNat ∧ off.toNat < msgBase ∧ off.toNat % 4 = 0)
      ∨ (off.toNat % wd.bytes = 0 ∧ msgBase ≤ off.toNat) := by
  obtain ⟨haligned, -⟩ := (admitted_iff wd off).1 h
  rcases Nat.lt_or_ge off.toNat msgBase with hlow | hbase
  · obtain rfl := width_of_admitted_low h hlow
    have hword : off.toNat % 4 = 0 := haligned
    have hoffset : off = 0x00#7 ∨ off = 0x04#7 ∨ off = 0x08#7 ∨ 0x0C ≤ off.toNat := by bv_omega
    rcases hoffset with rfl | rfl | rfl | hreserved
    · exact .inl ⟨rfl, rfl⟩
    · exact .inr (.inl ⟨rfl, rfl⟩)
    · exact .inr (.inr (.inl ⟨rfl, rfl⟩))
    · exact .inr (.inr (.inr (.inl ⟨rfl, hreserved, hlow, hword⟩)))
  · exact .inr (.inr (.inr (.inr ⟨haligned, hbase⟩)))

/-! A refused access (R206), and an admitted read (R57). -/

section Refused

variable {wd : Width} {off : Offset} (h : admitted wd off = false) (s : State)

include h

theorem memRead_refused : s.memRead wd off = 0#32 := by simp [State.memRead, h]

theorem afterRead_refused : s.afterRead wd off = s.raiseError .badAccess := by simp [State.afterRead, h]

theorem memWrite_refused (v : Word) : memWrite wd off v s = .next (s.raiseError .badAccess) := by simp [memWrite, h]

end Refused

theorem afterRead_admitted {wd : Width} {off : Offset} (h : admitted wd off = true) (s : State) :
    s.afterRead wd off = s := by
  simp [State.afterRead, h]

/-! MSG_LEN (R55, R204). -/

theorem writeMsgLen_lenRange {v : Word} {s : State} (hidle : s.seq = .idle) (hlen : Config.msgCap < v.toNat) :
    s.writeMsgLen v = s.raiseError .lenRange := by
  simp [State.writeMsgLen, (busy_eq_false_iff s).2 hidle, hlen]

theorem memRead_msgLen (s : State) : s.memRead .w32 0x08#7 = s.msgLen.setWidth 32 := rfl

/-- A length within MSG_CAP fits the seven bits of MSG_LEN (R27). -/
theorem setWidth_msgLen {v : Word} (h : v.toNat ≤ Config.msgCap) : (v.setWidth 7).setWidth 32 = v := by
  simp only [Config.msgCap] at h
  bv_omega

end Sys2Proof.Machine
end

section
/-! A CMD write, one equation per check of R203 (60_exceptions.md), in their order. -/

namespace Sys2Proof.Machine

theorem acceptCommand_faulted {s : State} (h : s.fault = true) (w : Word) :
    acceptCommand w s = .next (s.raiseError .faulted) := by
  simp [acceptCommand, h]

theorem acceptCommand_busy {s : State} (hfault : s.fault = false) (hrun : s.seq ≠ .idle) (w : Word) :
    acceptCommand w s = .next (s.raiseError .busy) := by
  have hbusy : s.busy = true := by rwa [← Bool.not_eq_false, busy_eq_false_iff]
  simp [acceptCommand, hfault, hbusy]

/-- Of the commands INIT alone needs an uninitialised block. -/
theorem wantsInited_eq (i : Instr) : wantsInited i = decide (i.opcode ≠ 1#4) := by cases i <;> rfl

/-- The last two checks of R203: a legal command that meets the wrong INITED. -/
theorem exec_wrong_inited {i : Instr} {s : State} (hfault : s.fault = false) (hidle : s.seq = .idle)
    (hwf : i.wellFormed = true) (hinit : s.inited ≠ wantsInited i) :
    exec i s = .next (s.raiseError (if wantsInited i then .notInit else .alreadyInit)) := by
  have hinited : s.inited = !wantsInited i := Bool.eq_not_of_ne hinit
  have hbusy := (busy_eq_false_iff s).2 hidle
  rw [exec_eq_takeCommand, State.commandCheck, hfault, hbusy, hwf, hinited]
  cases wantsInited i <;> rfl

section Legal

variable {w : Word} {i : Instr} {s : State} (hfault : s.fault = false) (hidle : s.seq = .idle) (h : decode w = .ok i)

include h

theorem wantsInited_of_decode : wantsInited i = decide (opField w ≠ 1#4) := by
  obtain ⟨hinstr, -, -⟩ := decode_eq_ok w i h
  obtain ⟨hop, -⟩ := instrOf_eq_some _ _ i hinstr
  rw [wantsInited_eq, hop]

/-- A legal word meets the INITED it wants: 0 for INIT's OP, 1 for every other. -/
theorem inited_eq_wantsInited_iff (s : State) :
    s.inited = wantsInited i ↔ (opField w = 1#4 ↔ s.inited = false) := by
  rw [wantsInited_of_decode h]
  by_cases hop : opField w = 1#4 <;> simp [hop]

include hfault hidle

theorem acceptCommand_wrong_inited (hinit : ¬ (opField w = 1#4 ↔ s.inited = false)) :
    acceptCommand w s = .next (s.raiseError (if opField w = 1#4 then .alreadyInit else .notInit)) := by
  obtain ⟨-, -, hwf⟩ := decode_eq_ok w i h
  rw [acceptCommand_eq_exec h, exec_wrong_inited hfault hidle hwf (mt (inited_eq_wantsInited_iff h s).1 hinit),
    wantsInited_of_decode h]
  simp

/-- R33: the word as written goes to SEQ. -/
theorem acceptCommand_starts (hinit : opField w = 1#4 ↔ s.inited = false) :
    acceptCommand w s = .next { s with seq := .running (opField w) w (expand s.params s.message i) } := by
  obtain ⟨hinstr, -, hwf⟩ := decode_eq_ok w i h
  obtain ⟨hop, -⟩ := instrOf_eq_some _ _ i hinstr
  rw [acceptCommand_eq_exec h, exec_starts hfault hidle hwf ((inited_eq_wantsInited_iff h s).2 hinit), hop,
    encode_of_decode h]

end Legal

end Sys2Proof.Machine
end

section
/-! The faulted block (60_exceptions.md R213): it is idle with RESET released, and FAULT is read by STATUS and by a CMD
write alone. -/

namespace Sys2Proof.Machine

/-- A running block has no fault (R212). -/
theorem idle_of_fault {s : State} (h : s.sequencerOk) (hfault : s.fault = true) : s.seq = .idle := by
  cases hseq : s.seq with
  | idle => rfl
  | running op w steps =>
    obtain ⟨hnone, -⟩ := (sequencerOk_running_iff hseq).1 h
    exact absurd (hfault.symm.trans hnone) Bool.false_ne_true.symm

/-- RESET asserted clears FAULT (R230). -/
theorem released_of_fault {s : State} (h : s.resetHeld) (hfault : s.fault = true) : s.resetPort = false := by
  by_contra hr
  have hreset : s = s.enterReset := h (by simpa using hr)
  exact absurd (hfault.symm.trans (congrArg State.fault hreset)) Bool.false_ne_true.symm

/-- The toggler of a faulted block is off (R213). -/
theorem edgeAccepted_of_fault {s : State} (h : s.pinsOk) (hfault : s.fault = true) : s.edgeAccepted = false := by
  obtain ⟨hoff, -⟩ := h
  exact (edgeAccepted_eq_false_iff s).2 (.inl (hoff hfault))

/-- A read of anything but STATUS does not see FAULT. -/
theorem memRead_withFault {off : Offset} (hoff : off ≠ 0x04#7) (wd : Width) (s : State) (f : Bool) :
    { s with fault := f }.memRead wd off = s.memRead wd off := by
  simp only [State.memRead, State.readWindow, if_neg hoff]

theorem writeMsgLen_withFault (v : Word) (s : State) (f : Bool) :
    { s with fault := f }.writeMsgLen v = { s.writeMsgLen v with fault := f } := by
  have hbusy : { s with fault := f }.busy = s.busy := rfl
  simp only [State.writeMsgLen, hbusy]
  split
  · rfl
  · split <;> rfl

theorem writeMsgBuf_withFault (wd : Width) (off : Offset) (v : Word) (s : State) (f : Bool) :
    { s with fault := f }.writeMsgBuf wd off v = { s.writeMsgBuf wd off v with fault := f } := by
  have hbusy : { s with fault := f }.busy = s.busy := rfl
  simp only [State.writeMsgBuf, hbusy]
  split <;> rfl

/-- A write to anything but CMD does not see FAULT, and leaves it. -/
theorem memWrite_withFault {wd : Width} {off : Offset} {v : Word} {s t : State} (hoff : off ≠ 0x00#7)
    (h : memWrite wd off v s = .next t) (f : Bool) :
    memWrite wd off v { s with fault := f } = .next { t with fault := f } := by
  rcases Bool.eq_false_or_eq_true (admitted wd off) with hadm | hadm
  · rcases admitted_cases hadm with
      ⟨-, hcmd⟩ | ⟨rfl, rfl⟩ | ⟨rfl, rfl⟩ | ⟨rfl, hlow, hhigh, hword⟩ | ⟨haligned, hbase⟩
    · exact absurd hcmd hoff
    · rw [memWrite_status] at h ⊢
      cases h
      cases v.getLsbD 8 <;> rfl
    · rw [memWrite_msgLen] at h ⊢
      cases h
      exact congrArg _ (writeMsgLen_withFault v s f)
    · rw [memWrite_reserved hlow hhigh _ hword] at h ⊢
      cases h
      rfl
    · rw [memWrite_msgBuf haligned hbase] at h ⊢
      cases h
      exact congrArg _ (writeMsgBuf_withFault wd off v s f)
  · rw [memWrite_refused hadm] at h ⊢
    cases h
    rfl

theorem handle_releaseReset (s : State) : handle (.setReset false) s = .next { s with resetPort := false } := by
  unfold handle
  split <;> rfl

/-- Only an event that asserts RESET clears FAULT (R213). -/
theorem handle_fault {ev : Event} {s t : State} (hev : ev ≠ .setReset true) (h : handle ev s = .next t)
    (hfault : s.fault = true) : t.fault = true := by
  cases ev with
  | setReset b =>
    obtain rfl : b = false := by simpa using hev
    rw [handle_releaseReset] at h
    cases h
    exact hfault
  | _ => exact agent_fault h rfl hfault

end Sys2Proof.Machine
end

section
/-! The statements of 60_exceptions.md: the access check, the checks of a CMD, a MSG_LEN and a MSG_BUF write, and the
faulted block. -/

namespace Sys2Proof.Machine

/-- Settles O9: the access check, then one equation for each check of a CMD write. -/
theorem acceptanceInOrder : Obligations.AcceptanceInOrder := by
  refine ⟨fun wd w s hwd => memWrite_refused (not_admitted_narrow hwd (by decide)) s w, fun w s => ?_⟩
  refine ⟨memWrite_cmd w s, fun hfault => acceptCommand_faulted hfault w,
    fun hfault hrun => acceptCommand_busy hfault hrun w, fun hfault hidle => ?_⟩
  refine ⟨fun r => acceptCommand_reject hfault hidle, fun i h hop hinit => ?_, fun i h hop hinit => ?_,
    fun i => acceptCommand_starts hfault hidle⟩
  · rw [acceptCommand_wrong_inited hfault hidle h (by simp [hop, hinit]), if_neg hop]
  · rw [acceptCommand_wrong_inited hfault hidle h (by simp [hop, hinit]), if_pos hop]

/-- Settles O38: an access is refused exactly where it is not admitted. -/
theorem badAccessRefused : Obligations.BadAccessRefused := by
  refine fun wd off s => ⟨fun hbad => ?_, fun haligned hwide => ?_⟩
  · have hadm : admitted wd off = false := (admitted_eq_false_iff wd off).2 hbad
    exact ⟨memRead_refused hadm s, afterRead_refused hadm s, memWrite_refused hadm s⟩
  · exact afterRead_admitted ((admitted_iff wd off).2 ⟨haligned, hwide⟩) s

/-- Settles O40: the access check, then the checks of `writeMsgLen` and `writeMsgBuf`, none of which reads FAULT. -/
theorem messageWriteChecks : Obligations.MessageWriteChecks := by
  refine ⟨fun wd v s => ⟨fun hwd => ?_, fun hbusy => ?_, fun hfree hlen => ?_, fun hfree hlen => ⟨?_, ?_⟩⟩,
    fun wd off v s hbase => ⟨fun hbad => ?_, fun haligned hbusy => ?_, fun haligned hfree => ?_⟩⟩
  · exact memWrite_refused (not_admitted_narrow hwd (by decide)) s v
  · rw [memWrite_msgLen, writeMsgLen_busy hbusy]
  · rw [memWrite_msgLen, writeMsgLen_lenRange ((busy_eq_false_iff s).1 hfree) hlen]
  · rw [memWrite_msgLen, writeMsgLen_idle ((busy_eq_false_iff s).1 hfree) hlen]
  · rw [memRead_msgLen, setWidth_msgLen hlen]
  · exact memWrite_refused ((admitted_eq_false_iff wd off).2 (.inl hbad)) s v
  · rw [memWrite_msgBuf haligned hbase, writeMsgBuf_busy hbusy]
  · rw [memWrite_msgBuf haligned hbase, writeMsgBuf_idle ((busy_eq_false_iff s).1 hfree)]

/-- Settles O35: a faulted block is idle with RESET released and its toggler off, and FAULT reaches nothing else. -/
theorem faultedBlock : Obligations.FaultedBlock := by
  rintro s hfault ⟨-, hseq, hpins, hheld⟩
  have hidle := idle_of_fault hseq hfault
  have hreleased := released_of_fault hheld hfault
  refine ⟨acceptCommand_faulted hfault, handle_edge_refused (edgeAccepted_of_fault hpins hfault), handle_released,
    fun wd off hoff => (memRead_withFault hoff wd s false).symm, fun wd off v hoff => ?_, fun v hlen => ?_,
    fun wd off v hadm hbase => ?_, fun ev t hev h => handle_fault hev h hfault,
    s.enterReset, handle_released hreleased, rfl⟩
  · obtain ⟨t, ht⟩ := memWrite_answers_next wd off v s
    exact ⟨t, ht, memWrite_withFault hoff ht false⟩
  · rw [memWrite_msgLen, writeMsgLen_idle hidle hlen]
  · obtain ⟨haligned, -⟩ := (admitted_iff wd off).1 hadm
    rw [memWrite_msgBuf haligned hbase, writeMsgBuf_idle hidle]

end Sys2Proof.Machine
end

section
/-! The words of the specification's own test vectors (95_test_vectors.md). -/

namespace Sys2Proof

/-- R93: a word packed from a well-formed command decodes to it. -/
theorem decode_of_encode {w : Word} {i : Instr} (hword : encode i = w) (hwf : i.wellFormed = true) :
    decode w = .ok i :=
  hword ▸ decode_encode hwf

end Sys2Proof

namespace Sys2Proof.Machine

/-- Settles O3: six of the words are packed from their well-formed commands; of the others, EN26 has a legal opcode and
a reserved bit set, and EN27 has opcode 9. -/
theorem wordsOfTheSpecDecode : Obligations.WordsOfTheSpecDecode := by
  refine ⟨decode_of_encode ?_ ?_, decode_of_encode ?_ ?_, decode_of_encode ?_ ?_, decode_of_encode ?_ ?_,
    decode_of_encode ?_ ?_, decode_of_encode ?_ ?_, decode_reservedBits ?_ ?_ ?_, decode_illegalOp (.inr ?_)⟩
  all_goals decide

end Sys2Proof.Machine
end
